-- ==== Sys2Proof/Word.lean ====
section
/-! DEFINITION. The words of the machine: command words, binary64 and binary32 patterns, bytes. -/

namespace Sys2Proof

/-- A command or event word `cw[63:0]` (`30_encoding.md` R60). -/
abbrev Word64 := BitVec 64

/-- The bit pattern of one binary64 value: the format of every data register and of every wire
(`00_scope.md` R7). -/
abbrev F64 := BitVec 64

/-- The bit pattern of one binary32 value: a staging register or an output sample
(`00_scope.md` R7, `20_memory.md` R41, R43). -/
abbrev F32 := BitVec 32

/-- One byte of a host memory image (`20_memory.md` R45). -/
abbrev Byte := BitVec 8

end Sys2Proof
end

