-- ==== Sys2Proof/Syntax.lean ====
section
/-! DEFINITION. The instructions: one constructor for each row of spec/opcode_table.json. -/

namespace Sys2Proof

/-- The two event words, the four commands of the port, and the seven stages of one sample step
(`30_encoding.md` R66, R70). -/
inductive Instr where
  /-- `NOTEON`, format N (R61): legal in a `RENDER` payload. -/
  | noteon (note velocity : BitVec 7) (accent slide : Bool) (sampleOffset : BitVec 32)
  /-- `NOTEOFF`, format N (R61): legal in a `RENDER` payload. -/
  | noteoff (note velocity : BitVec 7) (accent slide : Bool) (sampleOffset : BitVec 32)
  /-- `RENDER`, format R (R62): a top-level command, followed by `evCount` event words. -/
  | render (evCount : BitVec 24) (numSamples : BitVec 32)
  /-- `LDPARAM`, format P (R63): a top-level command. -/
  | ldparam (index : BitVec 8) (value : F32)
  /-- `RESET`, format Z (R64): a top-level command. -/
  | reset
  /-- `RDSTAT`, format Z (R64): a top-level command. -/
  | rdstat (clr : Bool)
  /-- Stage `PSLEW`, code 0b0001. -/
  | pslew
  /-- Stage `OSC`, code 0b0010. -/
  | osc
  /-- Stage `ENV`, code 0b0011. -/
  | env
  /-- Stage `COEF`, code 0b0100. -/
  | coef
  /-- Stage `FILT`, code 0b0101. -/
  | filt
  /-- Stage `SAN`, code 0b0110. -/
  | san
  /-- Stage `VCA`, code 0b0111. -/
  | vca
deriving DecidableEq, Repr

/-- Where an instruction may stand (`30_encoding.md` R66, R70). -/
inductive Place where
  /-- At the command port, between render calls. -/
  | topLevel
  /-- In the payload of a `RENDER`. -/
  | payload
  /-- Inside `STEP`, run by the scheduler only. -/
  | stage
deriving DecidableEq, Repr

/-- The column "Where legal" of the opcode map (`30_encoding.md` R66, R70). -/
def Instr.place : Instr → Place
  | .noteon _ _ _ _ _ => .payload
  | .noteoff _ _ _ _ _ => .payload
  | .render _ _ => .topLevel
  | .ldparam _ _ => .topLevel
  | .reset => .topLevel
  | .rdstat _ => .topLevel
  | .pslew => .stage
  | .osc => .stage
  | .env => .stage
  | .coef => .stage
  | .filt => .stage
  | .san => .stage
  | .vca => .stage

end Sys2Proof
end

