-- ==== Sys2Proof/Decode.lean ====
section
/-! DEFINITION. Decoding and encoding (`30_encoding.md` R60 to R70) and the host's byte image of a word
(`20_memory.md` R45). The decoder reads each field out once; a word it refuses is refused by name. -/

namespace Sys2Proof

/-- Why a word or a stage code is not the instruction of its place (`30_encoding.md` R67). -/
inductive Reject where
  /-- R67 (a): `op` is 0x0 or 0x7 to 0xF. -/
  | reservedOp
  /-- R67 (b): a reserved bit of the word's format is not 0. -/
  | reservedBits
  /-- R67 (c): an `LDPARAM` with `index` 12 or above. -/
  | reservedIndex
  /-- R67 (d): an event word at the top level. -/
  | eventAtTopLevel
  /-- R67 (e): a command word in a payload. -/
  | commandInPayload
  /-- A 4-bit stage code other than 0b0001 to 0b0111 (R70). -/
  | reservedStage
  /-- Fewer than eight bytes: not a whole word (R60, R69). -/
  | truncated
deriving DecidableEq, Repr

/-- The mask of format N: op and reserved bits (`30_encoding.md` R66). -/
def maskN : Word64 := 0xFC8080FF00000000#64

/-- The mask of format R. -/
def maskR : Word64 := 0xFF00000000000000#64

/-- The mask of format P. -/
def maskP : Word64 := 0xFFFFFF0000000000#64

/-- The mask of `RESET`. -/
def maskReset : Word64 := 0xFFFFFFFFFFFFFFFF#64

/-- The mask of `RDSTAT`. -/
def maskRdstat : Word64 := 0xFFFFFFFFFFFFFFFE#64

/-- The field `op = cw[63:60]` (`30_encoding.md` R60). -/
def fieldOp (w : Word64) : BitVec 4 := w.extractLsb' 60 4

/-- The field `slide = cw[57]` (`30_encoding.md` R65). -/
def fieldSlide (w : Word64) : Bool := w.getLsbD 57

/-- The field `accent = cw[56]` (`30_encoding.md` R65). -/
def fieldAccent (w : Word64) : Bool := w.getLsbD 56

/-- The field `velocity = cw[54:48]` (`30_encoding.md` R65). -/
def fieldVelocity (w : Word64) : BitVec 7 := w.extractLsb' 48 7

/-- The field `note = cw[46:40]` (`30_encoding.md` R65). -/
def fieldNote (w : Word64) : BitVec 7 := w.extractLsb' 40 7

/-- The field `sampleOffset = cw[31:0]` (`30_encoding.md` R65). -/
def fieldOffset (w : Word64) : BitVec 32 := w.extractLsb' 0 32

/-- The field `evCount = cw[55:32]` (`30_encoding.md` R65). -/
def fieldEvCount (w : Word64) : BitVec 24 := w.extractLsb' 32 24

/-- The field `numSamples = cw[31:0]` (`30_encoding.md` R65). -/
def fieldNumSamples (w : Word64) : BitVec 32 := w.extractLsb' 0 32

/-- The field `index = cw[39:32]` (`30_encoding.md` R65). -/
def fieldIndex (w : Word64) : BitVec 8 := w.extractLsb' 32 8

/-- The field `value = cw[31:0]` (`30_encoding.md` R65). -/
def fieldValue (w : Word64) : F32 := w.extractLsb' 0 32

/-- The field `clr = cw[0]` (`30_encoding.md` R65). -/
def fieldClr (w : Word64) : Bool := w.getLsbD 0

/-- What a word spells, whatever its place (`30_encoding.md` R66, R67 (a) to (c)). -/
def decodeWord (w : Word64) : Except Reject Instr :=
  if fieldOp w = 1#4 then
    if w &&& maskN = 0x1000000000000000#64 then
      .ok (.noteon (fieldNote w) (fieldVelocity w) (fieldAccent w) (fieldSlide w) (fieldOffset w))
    else .error .reservedBits
  else if fieldOp w = 2#4 then
    if w &&& maskN = 0x2000000000000000#64 then
      .ok (.noteoff (fieldNote w) (fieldVelocity w) (fieldAccent w) (fieldSlide w) (fieldOffset w))
    else .error .reservedBits
  else if fieldOp w = 3#4 then
    if w &&& maskR = 0x3000000000000000#64 then .ok (.render (fieldEvCount w) (fieldNumSamples w))
    else .error .reservedBits
  else if fieldOp w = 4#4 then
    if w &&& maskP = 0x4000000000000000#64 then
      if (fieldIndex w).toNat < 12 then .ok (.ldparam (fieldIndex w) (fieldValue w))
      else .error .reservedIndex
    else .error .reservedBits
  else if fieldOp w = 5#4 then
    if w &&& maskReset = 0x5000000000000000#64 then .ok .reset else .error .reservedBits
  else if fieldOp w = 6#4 then
    if w &&& maskRdstat = 0x6000000000000000#64 then .ok (.rdstat (fieldClr w)) else .error .reservedBits
  else .error .reservedOp

/-- A word at the top level of the command port (`30_encoding.md` R67 (d)). -/
def decodeTop (w : Word64) : Except Reject Instr :=
  match decodeWord w with
  | .error r => .error r
  | .ok i => if i.place = .topLevel then .ok i else .error .eventAtTopLevel

/-- A word in a `RENDER` payload (`30_encoding.md` R67 (e)). -/
def decodePayload (w : Word64) : Except Reject Instr :=
  match decodeWord w with
  | .error r => .error r
  | .ok i => if i.place = .payload then .ok i else .error .commandInPayload

/-- `legal_event_word(w)` of `47_render_scheduler.md` R172 and R175. -/
def legalEventWord (w : Word64) : Bool :=
  match decodePayload w with
  | .ok _ => true
  | .error _ => false

/-- The stage a 4-bit stage code names (`30_encoding.md` R70). -/
def decodeStage (code : BitVec 4) : Except Reject Instr :=
  if code = 1#4 then .ok .pslew
  else if code = 2#4 then .ok .osc
  else if code = 3#4 then .ok .env
  else if code = 4#4 then .ok .coef
  else if code = 5#4 then .ok .filt
  else if code = 6#4 then .ok .san
  else if code = 7#4 then .ok .vca
  else .error .reservedStage

/-! ### The host's byte image (`20_memory.md` R45): least significant byte first. -/

/-- The bytes of a word, lowest address first. -/
def bytesLE (k : Nat) (w : Nat) : List Byte :=
  match k with
  | 0 => []
  | k + 1 => BitVec.ofNat 8 w :: bytesLE k (w / 256)

/-- The number that bytes spell, lowest address first. -/
def ofBytesLE : List Byte → Nat
  | [] => 0
  | b :: bs => b.toNat + 256 * ofBytesLE bs

/-- The word at the front of a byte image and the bytes after it, decoded whatever its place; total on any bytes. -/
def decodeBytes (bs : List Byte) : Except Reject (Instr × List Byte) :=
  if bs.length < 8 then .error .truncated
  else match decodeWord (BitVec.ofNat 64 (ofBytesLE (bs.take 8))) with
    | .ok i => .ok (i, bs.drop 8)
    | .error r => .error r

/-- The decoder on a row of spec/opcode_table.json: a row of up to 8 bits is a stage code (its 4 bits, the rest of the
byte 0), a longer one is a 64-bit word, laid out as its little-endian bytes. -/
def decodeTableWord (nbits w : Nat) : Option Instr :=
  if nbits ≤ 8 then
    if w < 16 then (decodeStage (BitVec.ofNat 4 w)).toOption else none
  else if w < 2 ^ 64 then
    match decodeBytes (bytesLE 8 w) with
    | .ok (i, _) => some i
    | .error _ => none
  else none

/-! ### The encoder -/

/-- An encoding: a 64-bit word, or the 4-bit code of a stage (`30_encoding.md` R60, R70). -/
inductive Code where
  | word (w : Word64)
  | stage (code : BitVec 4)
deriving DecidableEq, Repr

/-- Format N, from bit 63 down (`30_encoding.md` R61). -/
def encodeN (op : BitVec 4) (note velocity : BitVec 7) (accent slide : Bool) (sampleOffset : BitVec 32) : Word64 :=
  op ++ 0#2 ++ BitVec.ofBool slide ++ BitVec.ofBool accent ++ 0#1 ++ velocity ++ 0#1 ++ note ++ 0#8 ++ sampleOffset

/-- Format R, from bit 63 down (`30_encoding.md` R62). -/
def encodeR (evCount : BitVec 24) (numSamples : BitVec 32) : Word64 := 3#4 ++ 0#4 ++ evCount ++ numSamples

/-- Format P, from bit 63 down (`30_encoding.md` R63). -/
def encodeP (index : BitVec 8) (value : F32) : Word64 := 4#4 ++ 0#20 ++ index ++ value

/-- Format Z, from bit 63 down (`30_encoding.md` R64). -/
def encodeZ (op : BitVec 4) (clr : Bool) : Word64 := op ++ 0#59 ++ BitVec.ofBool clr

/-- The encoding of an instruction (`30_encoding.md` R61 to R64, R70). -/
def encode : Instr → Code
  | .noteon note vel acc sl off => .word (encodeN 1#4 note vel acc sl off)
  | .noteoff note vel acc sl off => .word (encodeN 2#4 note vel acc sl off)
  | .render evCount n => .word (encodeR evCount n)
  | .ldparam index value => .word (encodeP index value)
  | .reset => .word (encodeZ 5#4 false)
  | .rdstat clr => .word (encodeZ 6#4 clr)
  | .pslew => .stage 1#4
  | .osc => .stage 2#4
  | .env => .stage 3#4
  | .coef => .stage 4#4
  | .filt => .stage 5#4
  | .san => .stage 6#4
  | .vca => .stage 7#4

/-- The instruction an encoding spells. -/
def decode : Code → Except Reject Instr
  | .word w => decodeWord w
  | .stage c => decodeStage c

end Sys2Proof
end

