-- ==== Sys2Proof/Machine/State.lean ====
section
/-! DEFINITION. Everything the spec gives the machine, as plain data, and the state after power-on reset. -/

namespace Sys2Proof.Machine

/-- Why a step stops with a fault. No constructor: "There are no fatal error conditions in the render path"
(`60_exceptions.md` R200); every abnormal condition is repaired in place and the machine goes on. Nobody raises a fault. -/
inductive Fault where
deriving DecidableEq, Repr

/-- Why an instruction is refused. -/
inductive Refusal where
  /-- An instruction without a meaning yet, by its mnemonic. Raised only by an arm of `exec` that has no meaning (there is
  none such); safe: the machine stops. -/
  | notModelled (mnemonic : String)
deriving DecidableEq, Repr

/-- The gate (`10_state.md` R20): 0 = `Silent`, 1 = `Sounding`. -/
inductive Gate where
  | silent
  | sounding
deriving DecidableEq, Repr

/-- VoiceState (`10_state.md` R10 to R20): the thirteen data registers D0 to D12 (binary64 patterns), the two flags, the
note field and the gate. -/
structure Voice where
  phase : F64
  y0 : F64
  y1 : F64
  y2 : F64
  y3 : F64
  y4 : F64
  hpz : F64
  mainEnv : F64
  ampEnv : F64
  rc1 : F64
  rc2 : F64
  pitchCurrent : F64
  pitchTarget : F64
  accentActive : Bool
  slideActive : Bool
  currentNote : BitVec 7
  gate : Gate
deriving DecidableEq, Repr

/-- VoiceState as both resets leave it: every number +0, the flags false, the gate `Silent` (`10_state.md` R31). -/
def Voice.zero : Voice where
  phase := 0#64
  y0 := 0#64
  y1 := 0#64
  y2 := 0#64
  y3 := 0#64
  y4 := 0#64
  hpz := 0#64
  mainEnv := 0#64
  ampEnv := 0#64
  rc1 := 0#64
  rc2 := 0#64
  pitchCurrent := 0#64
  pitchTarget := 0#64
  accentActive := false
  slideActive := false
  currentNote := 0#7
  gate := .silent

/-- The names of the data registers D0 to D12 (`10_state.md` section 2). -/
inductive DReg where
  | phase | y0 | y1 | y2 | y3 | y4 | hpz | mainEnv | ampEnv | rc1 | rc2 | pitchCurrent | pitchTarget
deriving DecidableEq, Repr

/-- The names of the twelve parameters, indices 0 to 11 in this order (`10_state.md` R22). -/
inductive Param where
  | cutoffHz | resonance | envModDepth | decay | accentLevel | waveformBlend | volume
  | tauAttackMs | tauAccAttackMs | tauAccDecayMs | tauVegMs | tauSlideMs
deriving DecidableEq, Repr

/-- A bank of twelve parameter registers (`10_state.md` R22, R23). -/
structure Bank (α : Type) where
  cutoffHz : α
  resonance : α
  envModDepth : α
  decay : α
  accentLevel : α
  waveformBlend : α
  volume : α
  tauAttackMs : α
  tauAccAttackMs : α
  tauAccDecayMs : α
  tauVegMs : α
  tauSlideMs : α
deriving DecidableEq, Repr

/-- The stages of one sample step, in no order (`30_encoding.md` R70). -/
inductive Stage where
  | pslew | osc | env | coef | filt | san | vca
deriving DecidableEq, Repr

/-- Where in a command the voice stands (notes/assumptions/7.md). -/
inductive Sched where
  /-- No command in progress: the next word at the port is a top-level command. -/
  | idle
  /-- A `RENDER` has been accepted and `left` payload words are still to be captured. -/
  | capture (left : BitVec 24)
  /-- In the slicing loop; the next stage of the current `STEP` is `next`. At `pslew` the voice stands at a sample
  boundary, where an event is due before a sample. -/
  | loop (next : Stage)
deriving DecidableEq, Repr

/-- The wires that one stage hands to a later stage of the same sample (`46_sample_step.md` R159). -/
structure Wires where
  osc : F64
  instCutoff : F64
  vcaEnv : F64
  b0 : F64
  k : F64
  g : F64
deriving DecidableEq, Repr

/-- The output stream `OUT` of one call (`20_memory.md` R43): the samples stored, by index. -/
abbrev Memory := List (Nat × F32)

/-- The state of the voice and of its command port. -/
structure State where
  /-- VoiceState (`10_state.md` R10). -/
  voice : Voice
  /-- The active parameter registers P0 to P11, binary64 (`10_state.md` R22). -/
  params : Bank F64
  /-- The staging registers S0 to S11, binary32 patterns (`10_state.md` R23, `20_memory.md` R41). -/
  staging : Bank F32
  /-- `DIAG`, sticky (`10_state.md` R21). -/
  diag : BitVec 4
  /-- `NFCNT`, saturating (`10_state.md` R21, `48_host_control.md` R193). -/
  nfcnt : BitVec 8
  /-- Where in a command the voice stands. -/
  sched : Sched
  /-- The requested sample count of the current call (`10_state.md` R24). -/
  n : BitVec 32
  /-- The index of the next sample (`10_state.md` R24). -/
  pos : BitVec 32
  /-- The index of the next event word (`10_state.md` R24). -/
  evi : BitVec 32
  /-- The accepted event words of the current call (`10_state.md` R24, `20_memory.md` R42). -/
  evq : List Word64
  /-- Wires between stages. -/
  wires : Wires
  /-- `OUT` of the current or last call (`20_memory.md` R43). -/
  out : Memory
  /-- Status words answered, oldest first (`48_host_control.md` R192). -/
  resp : List (BitVec 32)
  /-- Words presented at the command port and not yet accepted, oldest first (`20_memory.md` R44). -/
  port : List Word64
deriving DecidableEq, Repr

/-- The active parameters at power-on: P7 to P11 by `10_state.md` R31; P0 to P6 are unspecified there and take the lower
end of their range (DESIGN CHOICE, unsafe, notes/assumptions/1.md). -/
def resetParams : Bank F64 where
  cutoffHz := 0x4034000000000000#64
  resonance := 0#64
  envModDepth := 0#64
  decay := 0#64
  accentLevel := 0#64
  waveformBlend := 0#64
  volume := 0#64
  tauAttackMs := 0x4008000000000000#64
  tauAccAttackMs := 0x4008000000000000#64
  tauAccDecayMs := 0x4069000000000000#64
  tauVegMs := 0x40A7700000000000#64
  tauSlideMs := 0x404E000000000000#64

/-- The staging registers at power-on: S7 to S11 by `10_state.md` R31; S0 to S6 are unspecified there and are 0
(DESIGN CHOICE, unsafe, notes/assumptions/2.md). -/
def resetStaging : Bank F32 where
  cutoffHz := 0#32
  resonance := 0#32
  envModDepth := 0#32
  decay := 0#32
  accentLevel := 0#32
  waveformBlend := 0#32
  volume := 0#32
  tauAttackMs := 0x40400000#32
  tauAccAttackMs := 0x40400000#32
  tauAccDecayMs := 0x43480000#32
  tauVegMs := 0x453B8000#32
  tauSlideMs := 0x42700000#32

/-- Power-on reset (`70_reset_and_hazards.md` R230, `10_state.md` R31). The dead registers `n`, `pos`, `evi`, `evq` and
the dead wires are 0 or empty (DESIGN CHOICE, notes/assumptions/3.md); nothing has been presented, answered or stored. -/
def State.reset : State where
  voice := Voice.zero
  params := resetParams
  staging := resetStaging
  diag := 0#4
  nfcnt := 0#8
  sched := .idle
  n := 0#32
  pos := 0#32
  evi := 0#32
  evq := []
  wires := { osc := 0#64, instCutoff := 0#64, vcaEnv := 0#64, b0 := 0#64, k := 0#64, g := 0#64 }
  out := []
  resp := []
  port := []

end Sys2Proof.Machine
end

