-- ==== Sys2Proof/Machine/Flags.lean ====
section
/-! DEFINITION. The flags: the diagnostic register, its counter, and the status word that shows every flag
(`10_state.md` R18 to R21, `48_host_control.md` R192, R193). -/

namespace Sys2Proof.Machine

/-- The conditions a rule may raise and record (`60_exceptions.md` R200). -/
inductive Condition where
  /-- Class (a), a non-finite value (R201, R202, R204). -/
  | numericInstability
  /-- Class (e), an illegal word (R208). -/
  | illegalWord
  /-- Class (f), a late event (R209). -/
  | lateEvent
  /-- Class (g), an event overflow (R210). -/
  | eventDrop
deriving DecidableEq, Repr

/-- The `DIAG` bit of a condition, as a mask: 0 `NUMFAULT`, 1 `ILLCMD`, 2 `LATEEVT`, 3 `EVDROP` (`10_state.md` R21). -/
def diagMask : Condition → BitVec 4
  | .numericInstability => 0b0001#4
  | .illegalWord => 0b0010#4
  | .lateEvent => 0b0100#4
  | .eventDrop => 0b1000#4

/-- `sat8(x + 1)`: the saturating count (`48_host_control.md` R193). -/
def sat8Succ (x : BitVec 8) : BitVec 8 := BitVec.ofNat 8 (min (x.toNat + 1) 255)

/-- `NFCNT` after a condition: only a replaced non-finite value counts (`10_state.md` R21). -/
def countAfter (k : Condition) (x : BitVec 8) : BitVec 8 :=
  match k with
  | .numericInstability => sat8Succ x
  | .illegalWord => x
  | .lateEvent => x
  | .eventDrop => x

/-- The gate as the bit `F[gate]` (`10_state.md` R20). -/
def gateBit : Gate → Bool
  | .silent => false
  | .sounding => true

/-- The status word of `RDSTAT` (`48_host_control.md` R192): bit 0 gate, 1 accentActive, 2 slideActive, 14:8
currentNote, 19:16 `DIAG`, 31:24 `NFCNT`, the rest 0. -/
def statusWord (s : State) : BitVec 32 :=
  s.nfcnt ++ 0#4 ++ s.diag ++ 0#1 ++ s.voice.currentNote ++ 0#5
    ++ BitVec.ofBool s.voice.slideActive ++ BitVec.ofBool s.voice.accentActive ++ BitVec.ofBool (gateBit s.voice.gate)

end Sys2Proof.Machine
end

