-- ==== Sys2Proof/Config.lean ====
section
/-! DEFINITION. What is fixed at the construction of a voice and left OPEN by the spec (`00_scope.md` R6): constants with
no body, so that nothing can be proved of a particular value. `Sys2Proof/Machine/Params.lean` keeps each within the limits
the spec sets for it. -/

namespace Sys2Proof.Config

/-- The argument record of the normalizer functions (`43_envelopes.md` R118). -/
structure NormArgs where
  tauAttackMs : F64
  tauAccAttackMs : F64
  tauAccDecayMs : F64
  decayTimeSec : F64
  sampleRate : Nat
deriving DecidableEq, Repr

/-- The OPEN parameters of one voice and its transcendental functions, as a record that the datapath takes
(`00_scope.md` R6, R7). -/
structure Voicing where
  /-- `SAMPLE_RATE`, samples per second (R5). -/
  sampleRate : Nat
  /-- `EVQ_DEPTH`, the largest number of event words one call accepts (`47_render_scheduler.md` R176). -/
  evqDepth : Nat
  /-- `ACCENT_VCA_GAIN` (`46_sample_step.md` R161). -/
  accentVcaGain : F64
  /-- `NORM1` (`43_envelopes.md` R118). -/
  norm1 : NormArgs → F64
  /-- `NORM2` (`43_envelopes.md` R118). -/
  norm2 : NormArgs → F64
  /-- `e^x` in `ARITH` (`00_scope.md` R7). -/
  exp : F64 → F64
  /-- `2^x` in `ARITH` (`00_scope.md` R7). -/
  pow2 : F64 → F64

/-- Free number behind `SAMPLE_RATE`, which is a positive integer and OPEN (`92_eei_decisions.md` D37; notes/assumptions/4.md). -/
opaque sampleRateRaw : Nat

/-- Free number behind `EVQ_DEPTH` (OPEN, 1 to 2^24 − 1, `92_eei_decisions.md` D24; notes/assumptions/4.md). -/
opaque evqDepthRaw : Nat

/-- Free value behind `ACCENT_VCA_GAIN` (OPEN, a real not below 0, `92_eei_decisions.md` D19; notes/assumptions/4.md). -/
opaque accentVcaGainRaw : F64

/-- Free function behind `NORM1` (OPEN, total, finite, non-negative, `92_eei_decisions.md` D10; notes/assumptions/4.md). -/
opaque norm1Raw : NormArgs → F64

/-- Free function behind `NORM2` (OPEN, total, finite, non-negative, `92_eei_decisions.md` D10; notes/assumptions/4.md). -/
opaque norm2Raw : NormArgs → F64

/-- Free function behind `e^x`: its accuracy is not given (`91_not_in_source.md` N24, `92_eei_decisions.md` D1;
notes/assumptions/5.md). -/
opaque expRaw : F64 → F64

/-- Free function behind `2^x`: its accuracy is not given (`91_not_in_source.md` N24, `92_eei_decisions.md` D1;
notes/assumptions/5.md). -/
opaque pow2Raw : F64 → F64

end Sys2Proof.Config
end

