-- ==== Sys2Proof/Machine/Arith.lean ====
section
/-! DEFINITION. The arithmetic `ARITH` of `00_scope.md` R7: IEEE-754 binary64 inside, binary32 at the ports, round to
nearest even. Values are bit patterns; every finite value is a whole number of *units*, a unit being the smallest subnormal
of the format (2^-1074 for binary64), so that an operation is exact integer arithmetic and one rounding. The operations are
marked irreducible so that no proof about the datapath evaluates them by accident; `unfold` and `decide +kernel` open
them. -/

namespace Sys2Proof.Machine

/-- The units in 1 of binary64, 2^1074, in factors that every evaluator takes at once. A large constant stands first in a
product, so that an evaluator never counts it down. -/
def scale64 : Nat := 2 ^ 256 * 2 ^ 256 * 2 ^ 256 * 2 ^ 256 * 2 ^ 50

/-- The units in 1 of binary32, 2^149. -/
def scale32 : Nat := 2 ^ 149

/-- The binary64 units in a binary32 unit, 2^925. -/
def scale3264 : Nat := 2 ^ 256 * 2 ^ 256 * 2 ^ 256 * 2 ^ 157

/-- Fraction bits of binary64. -/
def fracBits64 : Nat := 52

/-- Fraction bits of binary32. -/
def fracBits32 : Nat := 23

/-- The magnitude pattern of infinity in binary64. -/
def infMag64 : Nat := 2047 * 2 ^ 52

/-- The magnitude pattern of infinity in binary32. -/
def infMag32 : Nat := 255 * 2 ^ 23

/-- `n / d` to the nearest whole number, ties to the even one (`00_scope.md` R7, round to nearest even). -/
def nearestEven (n d : Nat) : Nat :=
  let q := n / d
  let r := n % d
  if d < 2 * r ∨ (2 * r = d ∧ q % 2 = 1) then q + 1 else q

/-- How many bits above the last kept one a quotient of `q` whole units has: the exponent field less one, and 0 for a
subnormal. -/
def excess (frac q : Nat) : Nat := Nat.log2 q - frac

/-- The magnitude pattern (sign cleared) of the value `n / d` units, rounded to nearest even in a format with `frac`
fraction bits whose infinity is the pattern `inf`. A carry out of the fraction goes into the exponent by itself. -/
def roundMag (frac inf n d : Nat) : Nat :=
  let k := excess frac (n / d)
  min inf (2 ^ frac * k + nearestEven n (d * 2 ^ k))

/-- The number of units a finite magnitude pattern stands for. -/
def magUnits (frac mag : Nat) : Nat :=
  if mag / 2 ^ frac = 0 then mag % 2 ^ frac
  else (2 ^ frac + mag % 2 ^ frac) * 2 ^ (mag / 2 ^ frac - 1)

/-! ### Binary64 patterns -/

/-- The sign bit. -/
def fsign (x : F64) : Bool := x.getLsbD 63

/-- The pattern without its sign bit. -/
def fmag (x : F64) : Nat := x.toNat % 2 ^ 63

/-- A binary64 pattern from its sign and its magnitude pattern. -/
def fpack (neg : Bool) (mag : Nat) : F64 :=
  BitVec.ofNat 64 ((if neg then 2 ^ 63 else 0) + mag)

/-- `x` is NaN. -/
def isNaN (x : F64) : Bool := decide (infMag64 < fmag x)

/-- `isfinite(x)` (`00_scope.md` section 5.3). -/
def isFinite (x : F64) : Bool := decide (fmag x < infMag64)

/-- `x` is +∞ or −∞. -/
def isInf (x : F64) : Bool := decide (fmag x = infMag64)

/-- The one NaN pattern the operations produce. DESIGN CHOICE (notes/assumptions/6.md): no rule tells two NaNs apart. -/
def fnan : F64 := 0x7FF8000000000000#64

/-- Infinity with a sign. -/
def finf (neg : Bool) : F64 := fpack neg infMag64

/-- Zero with a sign. -/
def fzero (neg : Bool) : F64 := fpack neg 0

/-- The exact value of a finite pattern, in units. -/
def units (x : F64) : Int :=
  if fsign x then -(magUnits fracBits64 (fmag x) : Int) else (magUnits fracBits64 (fmag x) : Int)

/-- The binary64 value nearest to `± n / d` units. -/
@[irreducible] def roundUnits (neg : Bool) (n d : Nat) : F64 :=
  fpack neg (roundMag fracBits64 infMag64 n d)

/-- The binary64 value nearest to a whole number of units; an exact zero takes the sign `negZero`. -/
def roundInt (negZero : Bool) (z : Int) : F64 :=
  if z = 0 then fzero negZero else roundUnits (decide (z < 0)) z.natAbs 1

/-- The binary64 value nearest to the rational `± n / d`. -/
def fratio (neg : Bool) (n d : Nat) : F64 := roundUnits neg (scale64 * n) d

/-- The binary64 value nearest to a natural number. -/
def fnat (n : Nat) : F64 := fratio false n 1

/-- The binary64 value nearest to the decimal literal `m · 10^-k` (DEDUCED, notes/assumptions/14.md). -/
def flit (m k : Nat) : F64 := fratio false m (10 ^ k)

/-! ### Comparison -/

/-- The place of a pattern in the order of the extended reals; −0 and +0 share one. -/
def forder (x : F64) : Int := if fsign x then -(fmag x : Int) else (fmag x : Int)

/-- `x < y`; false when either is NaN. -/
@[irreducible] def flt (x y : F64) : Bool := !isNaN x && !isNaN y && decide (forder x < forder y)

/-- `x ≤ y`; false when either is NaN. -/
@[irreducible] def fle (x y : F64) : Bool := !isNaN x && !isNaN y && decide (forder x ≤ forder y)

/-! ### The operations -/

/-- `−x`. -/
def fneg (x : F64) : F64 := x ^^^ 0x8000000000000000#64

/-- `x + y`. -/
@[irreducible] def fadd (x y : F64) : F64 :=
  if isNaN x || isNaN y then fnan
  else if isInf x then (if isInf y && (fsign x != fsign y) then fnan else x)
  else if isInf y then y
  else roundInt (fsign x && fsign y) (units x + units y)

/-- `x − y`. -/
def fsub (x y : F64) : F64 := fadd x (fneg y)

/-- `x · y`. -/
@[irreducible] def fmul (x y : F64) : F64 :=
  if isNaN x || isNaN y then fnan
  else if isInf x || isInf y then (if fmag x = 0 || fmag y = 0 then fnan else finf (fsign x != fsign y))
  else roundUnits (fsign x != fsign y) ((units x).natAbs * (units y).natAbs) scale64

/-- `x / y`. -/
@[irreducible] def fdiv (x y : F64) : F64 :=
  if isNaN x || isNaN y then fnan
  else if isInf x then (if isInf y then fnan else finf (fsign x != fsign y))
  else if isInf y then fzero (fsign x != fsign y)
  else if fmag y = 0 then (if fmag x = 0 then fnan else finf (fsign x != fsign y))
  else roundUnits (fsign x != fsign y) (scale64 * (units x).natAbs) (units y).natAbs

/-- The whole part of the square root, two bits of the operand a turn. -/
def isqrt : Nat → Nat → Nat
  | 0, _ => 0
  | k + 1, n =>
    let r := 2 * isqrt k (n / 4)
    if (r + 1) * (r + 1) ≤ n then r + 1 else r

/-- `√x`. The root is taken to 128 bits below a unit's own root and a sticky bit says whether it is inexact. -/
@[irreducible] def fsqrt (x : F64) : F64 :=
  if isNaN x then fnan
  else if fmag x = 0 then x
  else if fsign x then fnan
  else if isInf x then x
  else
    let n := 2 ^ 256 * (scale64 * (units x).natAbs)
    let r := isqrt (Nat.log2 n / 2 + 1) n
    roundUnits false (2 * r + if r * r = n then 0 else 1) (2 ^ 129)

/-- The largest whole number of ones not above a finite `x`. -/
def floorInt (x : F64) : Int := units x / (scale64 : Int)

/-- The least whole number of ones not below a finite `x`. -/
def ceilInt (x : F64) : Int := -(-(units x) / (scale64 : Int))

/-- `floor(x)` as a value; infinities and NaN are kept. -/
@[irreducible] def ffloor (x : F64) : F64 :=
  if isNaN x then fnan else if isInf x then x
  else roundInt (fsign x) ((scale64 : Int) * floorInt x)

/-- `frac(v) = v − floor(v)` (`00_scope.md` section 5.3). -/
def ffrac (x : F64) : F64 := fsub x (ffloor x)

/-- The constant 0. -/
def f0 : F64 := 0#64

/-- The constant 1. -/
def f1 : F64 := 0x3FF0000000000000#64

/-- `clamp(v, lo, hi)`: `lo` if `v < lo` or `v` is NaN, `hi` if `v > hi`, else `v` (`00_scope.md` section 5.3). -/
def fclamp (v lo hi : F64) : F64 :=
  if isNaN v || flt v lo then lo else if flt hi v then hi else v

/-- `clamp01(v)` (`00_scope.md` section 5.3). -/
def fclamp01 (v : F64) : F64 := fclamp v f0 f1

/-- `2^z` for a whole number `z`: exact where binary64 holds it, 0 below and infinity above. -/
@[irreducible] def pow2Int (z : Int) : F64 :=
  if z < -1074 then f0 else if 1023 < z then finf false else roundUnits false (2 ^ (z + 1074).toNat) 1

/-! ### Binary32 -/

/-- The sign bit of a binary32 pattern. -/
def sign32 (w : F32) : Bool := w.getLsbD 31

/-- A binary32 pattern without its sign bit. -/
def mag32 (w : F32) : Nat := w.toNat % 2 ^ 31

/-- The binary32 pattern is finite. -/
def isFinite32 (w : F32) : Bool := decide (mag32 w < infMag32)

/-- `f32bits(w)`: the value a binary32 pattern encodes; exact in binary64 (`30_encoding.md` R65). -/
@[irreducible] def f32bits (w : F32) : F64 :=
  if infMag32 < mag32 w then fnan
  else if mag32 w = infMag32 then finf (sign32 w)
  else roundUnits (sign32 w) (scale3264 * magUnits fracBits32 (mag32 w)) 1

/-- A binary32 pattern from its sign and its magnitude pattern. -/
def pack32 (neg : Bool) (mag : Nat) : F32 :=
  BitVec.ofNat 32 ((if neg then 2 ^ 31 else 0) + mag)

/-- `f32(v)`: `v` rounded to binary32, round to nearest even (`00_scope.md` section 5.3). -/
@[irreducible] def f32 (x : F64) : F32 :=
  if isNaN x then 0x7FC00000#32
  else if isInf x then pack32 (fsign x) infMag32
  else pack32 (fsign x) (roundMag fracBits32 infMag32 (units x).natAbs scale3264)

/-- The binary32 pattern nearest to the rational `± n / d` (the assembler's `<real>`, `30_encoding.md` R71). -/
@[irreducible] def ratio32 (neg : Bool) (n d : Nat) : F32 :=
  pack32 neg (roundMag fracBits32 infMag32 (scale32 * n) d)

end Sys2Proof.Machine
end

