-- ==== Sys2Proof/Machine/Params.lean ====
section
/-! DEFINITION. The parameters of the model (`00_scope.md` R6): the constants the spec decides, and the one voicing of the
machine, made of the OPEN constants of Config within the limits the spec sets for each. -/

namespace Sys2Proof.Machine

/-- `FBHP_FC`, 150 Hz. -/
def fbhpFc : F64 := fnat 150

/-- `PHASE_INC_MIN`, 2^-30 cycles per sample. -/
def phaseIncMin : F64 := fratio false 1 (2 ^ 30)

/-- `PHASE_INC_MAX`, 0.5 cycles per sample. -/
def phaseIncMax : F64 := fratio false 1 2

/-- `INST_CUTOFF_MAX`, 20000 Hz. -/
def instCutoffMax : F64 := fnat 20000

/-- `TUNE_A4`, 440 Hz. -/
def tuneA4 : F64 := fnat 440

/-- `TUNE_NOTE`, note 69. -/
def tuneNote : F64 := fnat 69

/-- `TAU_MAX_MS`, 60000 ms. -/
def tauMaxMs : F64 := fnat 60000

/-- `π` in binary64 (PRESUMED digits, notes/assumptions/14.md). -/
def fpi : F64 := flit 314159265358979323846264338327950288 35

/-- `2*π`, as `COEF` and `a1` write it. -/
def twoPi : F64 := fmul (fnat 2) fpi

/-- `|x|`: the sign cleared. -/
def fabs (x : F64) : F64 := x &&& 0x7FFFFFFFFFFFFFFF#64

/-- A value kept to the limits of `ACCENT_VCA_GAIN`, `NORM1` and `NORM2`: finite and not below 0. -/
def finiteNonneg (x : F64) : F64 := if isFinite x then fabs x else f0

/-- A positive whole number below a limit. -/
def positiveBelow (limit raw : Nat) : Nat := if raw % limit = 0 then 1 else raw % limit

/-- `SAMPLE_RATE` is below 2^1023, so that it is a finite number of `ARITH` (DEDUCED, notes/assumptions/4.md). -/
def rateLimit : Nat := 2 ^ 256 * 2 ^ 256 * 2 ^ 256 * 2 ^ 255

/-- `EVQ_DEPTH` is at most 2^24 − 1 (`92_eei_decisions.md` D24). -/
def depthLimit : Nat := 2 ^ 24

/-- `2^x` by a free function within the powers of two of the whole numbers around `x`
(DEDUCED, notes/assumptions/5.md). -/
def pow2Within (raw : F64 → F64) (x : F64) : F64 :=
  if isNaN x then fnan
  else if isInf x then (if fsign x then f0 else finf false)
  else fclamp (fabs (raw x)) (pow2Int (floorInt x)) (pow2Int (ceilInt x))

/-- Twice the value of `x`, rounded down to a whole number. -/
def floorTwice (x : F64) : Int := 2 * units x / (scale64 : Int)

/-- Twice the value of `x`, rounded up to a whole number. -/
def ceilTwice (x : F64) : Int := -(-(2 * units x) / (scale64 : Int))

/-- `e^x` by a free function within powers of two: `e` lies between 2 and 4 (DEDUCED, notes/assumptions/5.md). -/
def expWithin (raw : F64 → F64) (x : F64) : F64 :=
  if isNaN x then fnan
  else if isInf x then (if fsign x then f0 else finf false)
  else if fsign x then fclamp (fabs (raw x)) (pow2Int (floorTwice x)) (pow2Int (ceilInt x))
  else fclamp (fabs (raw x)) (pow2Int (floorInt x)) (pow2Int (ceilTwice x))

/-- The voicing of the machine: any values the spec allows (notes/assumptions/4.md, notes/assumptions/5.md). -/
def voicing : Config.Voicing where
  sampleRate := positiveBelow rateLimit Config.sampleRateRaw
  evqDepth := positiveBelow depthLimit Config.evqDepthRaw
  accentVcaGain := finiteNonneg Config.accentVcaGainRaw
  norm1 a := finiteNonneg (Config.norm1Raw a)
  norm2 a := finiteNonneg (Config.norm2Raw a)
  exp := expWithin Config.expRaw
  pow2 := pow2Within Config.pow2Raw

end Sys2Proof.Machine
end

