-- ==== Sys2Proof/Machine/Operands.lean ====
section
/-! DEFINITION. The operand forms of the rules: `D[name]`, `P[name]`, `S[i]`, and the rate coefficients that are functions
of the active parameters (`00_scope.md` section 5.3, `10_state.md` R26). -/

namespace Sys2Proof.Machine

/-! ### Data registers -/

/-- `D[r]` of a VoiceState. -/
def Voice.get (v : Voice) : DReg → F64
  | .phase => v.phase
  | .y0 => v.y0
  | .y1 => v.y1
  | .y2 => v.y2
  | .y3 => v.y3
  | .y4 => v.y4
  | .hpz => v.hpz
  | .mainEnv => v.mainEnv
  | .ampEnv => v.ampEnv
  | .rc1 => v.rc1
  | .rc2 => v.rc2
  | .pitchCurrent => v.pitchCurrent
  | .pitchTarget => v.pitchTarget

/-- `D[r] <- x` of a VoiceState. -/
def Voice.set (v : Voice) (r : DReg) (x : F64) : Voice :=
  match r with
  | .phase => { v with phase := x }
  | .y0 => { v with y0 := x }
  | .y1 => { v with y1 := x }
  | .y2 => { v with y2 := x }
  | .y3 => { v with y3 := x }
  | .y4 => { v with y4 := x }
  | .hpz => { v with hpz := x }
  | .mainEnv => { v with mainEnv := x }
  | .ampEnv => { v with ampEnv := x }
  | .rc1 => { v with rc1 := x }
  | .rc2 => { v with rc2 := x }
  | .pitchCurrent => { v with pitchCurrent := x }
  | .pitchTarget => { v with pitchTarget := x }

/-- `D[r]` (`00_scope.md` section 5.3). -/
def readD (s : State) (r : DReg) : F64 := s.voice.get r

/-- `D[r] <- x` (`00_scope.md` section 5.3). -/
def writeD (s : State) (r : DReg) (x : F64) : State := { s with voice := s.voice.set r x }

/-! ### Parameter registers -/

/-- The register a parameter names in a bank. -/
def Bank.get {α : Type} (b : Bank α) : Param → α
  | .cutoffHz => b.cutoffHz
  | .resonance => b.resonance
  | .envModDepth => b.envModDepth
  | .decay => b.decay
  | .accentLevel => b.accentLevel
  | .waveformBlend => b.waveformBlend
  | .volume => b.volume
  | .tauAttackMs => b.tauAttackMs
  | .tauAccAttackMs => b.tauAccAttackMs
  | .tauAccDecayMs => b.tauAccDecayMs
  | .tauVegMs => b.tauVegMs
  | .tauSlideMs => b.tauSlideMs

/-- A bank with one register written. -/
def Bank.set {α : Type} (b : Bank α) (p : Param) (x : α) : Bank α :=
  match p with
  | .cutoffHz => { b with cutoffHz := x }
  | .resonance => { b with resonance := x }
  | .envModDepth => { b with envModDepth := x }
  | .decay => { b with decay := x }
  | .accentLevel => { b with accentLevel := x }
  | .waveformBlend => { b with waveformBlend := x }
  | .volume => { b with volume := x }
  | .tauAttackMs => { b with tauAttackMs := x }
  | .tauAccAttackMs => { b with tauAccAttackMs := x }
  | .tauAccDecayMs => { b with tauAccDecayMs := x }
  | .tauVegMs => { b with tauVegMs := x }
  | .tauSlideMs => { b with tauSlideMs := x }

/-- The bank whose register `p` is `f p`. -/
def bankOf {α : Type} (f : Param → α) : Bank α where
  cutoffHz := f .cutoffHz
  resonance := f .resonance
  envModDepth := f .envModDepth
  decay := f .decay
  accentLevel := f .accentLevel
  waveformBlend := f .waveformBlend
  volume := f .volume
  tauAttackMs := f .tauAttackMs
  tauAccAttackMs := f .tauAccAttackMs
  tauAccDecayMs := f .tauAccDecayMs
  tauVegMs := f .tauVegMs
  tauSlideMs := f .tauSlideMs

/-- The index of a parameter (`10_state.md` R22, `20_memory.md` R48). -/
def Param.index : Param → Nat
  | .cutoffHz => 0
  | .resonance => 1
  | .envModDepth => 2
  | .decay => 3
  | .accentLevel => 4
  | .waveformBlend => 5
  | .volume => 6
  | .tauAttackMs => 7
  | .tauAccAttackMs => 8
  | .tauAccDecayMs => 9
  | .tauVegMs => 10
  | .tauSlideMs => 11

/-- The parameter an index of `PSTG` names; 12 to 255 are reserved and hold nothing (`20_memory.md` R41, R48). -/
def paramAt : Nat → Option Param
  | 0 => some .cutoffHz
  | 1 => some .resonance
  | 2 => some .envModDepth
  | 3 => some .decay
  | 4 => some .accentLevel
  | 5 => some .waveformBlend
  | 6 => some .volume
  | 7 => some .tauAttackMs
  | 8 => some .tauAccAttackMs
  | 9 => some .tauAccDecayMs
  | 10 => some .tauVegMs
  | 11 => some .tauSlideMs
  | _ => none

/-- `LO[i]` of the latch (`48_host_control.md` R187). -/
def paramLo : Param → F64
  | .cutoffHz => fnat 20
  | _ => f0

/-- `HI[i]` of the latch (`48_host_control.md` R187). -/
def paramHi : Param → F64
  | .cutoffHz => fnat 20000
  | .resonance => f1
  | .envModDepth => f1
  | .decay => f1
  | .accentLevel => f1
  | .waveformBlend => f1
  | .volume => f1
  | .tauAttackMs => tauMaxMs
  | .tauAccAttackMs => tauMaxMs
  | .tauAccDecayMs => tauMaxMs
  | .tauVegMs => tauMaxMs
  | .tauSlideMs => tauMaxMs

/-- `P[p]`, the active parameter (`00_scope.md` section 5.3). -/
def readP (s : State) (p : Param) : F64 := s.params.get p

/-! ### Rate coefficients (`10_state.md` R26): functions of the active parameters and `SAMPLE_RATE`. -/

/-- `SAMPLE_RATE` as a number of `ARITH`. -/
def rateF (c : Config.Voicing) : F64 := fnat c.sampleRate

/-- `coefOf(tau_ms)` (`43_envelopes.md` R112). -/
def coefOf (c : Config.Voicing) (tauMs : F64) : F64 :=
  if flt f0 tauMs then c.exp (fdiv (fneg f1) (fmul (fdiv tauMs (fnat 1000)) (rateF c))) else f0

/-- `decayTimeSec = 0.2 + decay·1.8` (`43_envelopes.md` R111). -/
def decayTimeSec (s : State) : F64 := fadd (flit 2 1) (fmul (readP s .decay) (flit 18 1))

/-- `decayCoeff` (`43_envelopes.md` R111). -/
def decayCoeff (c : Config.Voicing) (s : State) : F64 :=
  c.exp (fdiv (fneg f1) (fmul (decayTimeSec s) (rateF c)))

/-- `vegCoeff` (`43_envelopes.md` R112, R114). -/
def vegCoeff (c : Config.Voicing) (s : State) : F64 := coefOf c (readP s .tauVegMs)

/-- `rc1Coeff` (`43_envelopes.md` R112, R115). -/
def rc1Coeff (c : Config.Voicing) (s : State) : F64 := coefOf c (readP s .tauAttackMs)

/-- `rc2Coeff`, from the accent attack constant (`43_envelopes.md` R112, R116). -/
def rc2Coeff (c : Config.Voicing) (s : State) : F64 := coefOf c (readP s .tauAccAttackMs)

/-- `slewCoeff` (`44_pitch_slew.md` R132). -/
def slewCoeff (c : Config.Voicing) (s : State) : F64 := coefOf c (readP s .tauSlideMs)

/-- `a1 = −e^(−2π·FBHP_FC/SAMPLE_RATE)` (`42_ladder_filter.md` R101). -/
def fbhpCoeff (c : Config.Voicing) : F64 :=
  fneg (c.exp (fdiv (fmul (fneg twoPi) fbhpFc) (rateF c)))

/-- The argument record of the normalizers (`43_envelopes.md` R118). -/
def normArgs (c : Config.Voicing) (s : State) : Config.NormArgs where
  tauAttackMs := readP s .tauAttackMs
  tauAccAttackMs := readP s .tauAccAttackMs
  tauAccDecayMs := readP s .tauAccDecayMs
  decayTimeSec := decayTimeSec s
  sampleRate := c.sampleRate

/-- `acc`: 1 when `F[accentActive] = 1`, else 0 (`43_envelopes.md` R117, `46_sample_step.md` R160). -/
def accOf (s : State) : F64 := if s.voice.accentActive then f1 else f0

/-- `freqOf(note) = 440 · 2^((note − 69)/12)` hertz (`44_pitch_slew.md` R131). -/
def freqOf (c : Config.Voicing) (note : BitVec 7) : F64 :=
  fmul tuneA4 (c.pow2 (fdiv (fsub (fnat note.toNat) tuneNote) (fnat 12)))

end Sys2Proof.Machine
end

