-- ==== Sys2Proof/Machine/Ops.lean ====
section
/-! DEFINITION. The shared operations: raising a condition, the spaces `PSTG` and `OUT`, the write filters of the envelope
and filter registers, and the latch. -/

namespace Sys2Proof.Machine

/-- `raise <Condition>`: set its sticky `DIAG` bit and count it where it counts; control goes on with the next statement
(`60_exceptions.md` R200, R213). There is no entry, no saved state and no return. -/
def raiseCond (k : Condition) (s : State) : State :=
  { s with diag := s.diag ||| diagMask k, nfcnt := countAfter k s.nfcnt }

/-! ### `OUT` (`20_memory.md` R43): cells by index, strictly rising; an unlisted index holds no sample. -/

/-- The sample at an index, if one is stored there. -/
def memRead : Memory → Nat → Option F32
  | [], _ => none
  | (b, w) :: m, a => if a = b then some w else memRead m a

/-- `MemWrite(OUT, a, 32, v)`. -/
def memWrite : Memory → Nat → F32 → Memory
  | [], a, v => [(a, v)]
  | (b, w) :: m, a, v =>
    if a < b then (a, v) :: (b, w) :: m
    else if a = b then (a, v) :: m
    else (b, w) :: memWrite m a v

/-- The canonical form: strictly rising indices. -/
def Memory.wf : Memory → Bool
  | [] => true
  | [_] => true
  | (a, _) :: (b, w) :: m => decide (a < b) && Memory.wf ((b, w) :: m)

/-- The samples stored, in index order. -/
def samplesOf (m : Memory) : List F32 := m.map Prod.snd

/-! ### Register writes with a repair -/

/-- A write to an envelope register through `envreg` (`43_envelopes.md` R119, `60_exceptions.md` R202): a non-finite value
is replaced by 0 and raised, a finite one is clamped to [0,1]. -/
def writeEnv (r : DReg) (x : F64) (s : State) : State :=
  if isFinite x then writeD s r (fclamp01 x)
  else raiseCond .numericInstability (writeD s r f0)

/-- One turn of the loop of `SAN` (`60_exceptions.md` R201): a non-finite register becomes 0 and is raised. -/
def sanitizeReg (s : State) (r : DReg) : State :=
  if isFinite (readD s r) then s
  else raiseCond .numericInstability (writeD s r f0)

/-- The sample store of `VCA` (`46_sample_step.md` R160, `60_exceptions.md` R204): a non-finite sample is stored as +0 and
raised. -/
def storeSample (x : F32) (s : State) : State :=
  if isFinite32 x then { s with out := memWrite s.out s.pos.toNat x }
  else raiseCond .numericInstability { s with out := memWrite s.out s.pos.toNat 0#32 }

/-! ### `PSTG` and the latch -/

/-- `MemWrite(PSTG, index, 32, v)`; a reserved index is an illegal word and writes nothing (`48_host_control.md` R186). -/
def writeStaging (index : Nat) (v : F32) (s : State) : State :=
  match paramAt index with
  | some p => { s with staging := s.staging.set p v }
  | none => raiseCond .illegalWord s

/-- The active value the latch makes of a staged pattern: the clamp, and −0, which every range from 0 on holds, kept as 0, so
that its sign has no effect on any rule (`48_host_control.md` R187 and its corner cases). No bound is negative, so a zero is
all whose sign `fabs` clears. -/
def latched (p : Param) (w : F32) : F64 := fabs (fclamp (f32bits w) (paramLo p) (paramHi p))

/-- `latch()`: all twelve active registers at once; the staging registers keep their values (`48_host_control.md` R187,
R188). -/
def latch (s : State) : State :=
  { s with params := bankOf fun p => latched p (s.staging.get p) }

/-! ### The event queue -/

/-- The order of the re-sort: by `sampleOffset`, unsigned (`47_render_scheduler.md` R171). -/
def offsetLe (a b : Word64) : Bool := decide ((fieldOffset a).toNat ≤ (fieldOffset b).toNat)

/-- Put an event word before the first one whose offset is not below its own. -/
def insertEvent (w : Word64) : List Word64 → List Word64
  | [] => [w]
  | v :: q => if offsetLe w v then w :: v :: q else v :: insertEvent w q

/-- `stable_sort(evq, key = sampleOffset)`: ascending, ties in payload order (`47_render_scheduler.md` R171). -/
def sortEvents : List Word64 → List Word64
  | [] => []
  | w :: q => insertEvent w (sortEvents q)

end Sys2Proof.Machine
end

