-- ==== Sys2Proof/Machine/Amplifier.lean ====
section
/-! DEFINITION. Stage `VCA` (`46_sample_step.md`). -/

namespace Sys2Proof.Machine

/-- `filt = 2·g·y4` (`42_ladder_filter.md` R105, `46_sample_step.md` R160). -/
def filtOut (s : State) : F64 := fmul (fmul (fnat 2) s.wires.g) (readD s .y4)

/-- `gain` with the accent boost (`46_sample_step.md` R160, R161). -/
def vcaGain (c : Config.Voicing) (s : State) : F64 :=
  fmul (fmul (readP s .volume) s.wires.vcaEnv)
    (fadd f1 (fmul (fmul (accOf s) (readP s .accentLevel)) c.accentVcaGain))

/-- The output amplifier: one sample stored at `pos`, which the scheduler then advances (`46_sample_step.md` R160 to
R163). -/
def amplifier (c : Config.Voicing) (s : State) : State :=
  storeSample (f32 (fmul (filtOut s) (vcaGain c s))) s

/-- The meaning of `VCA`. -/
def execVca (s : State) : Host.Outcome State Fault Refusal := .next (amplifier voicing s)

end Sys2Proof.Machine
end

