-- ==== Sys2Proof/Machine/Coefficients.lean ====
section
/-! DEFINITION. Stage `COEF` (`41_coefficients.md`). -/

namespace Sys2Proof.Machine

/-- `fx`, evaluated as written, left to right (`41_coefficients.md` R90, R91). -/
def fxOf (c : Config.Voicing) (cutoff : F64) : F64 :=
  fdiv (fmul (fdiv (fmul twoPi cutoff) (rateF c)) (fdiv f1 (fsqrt (fnat 2)))) twoPi

/-- `b0` (`41_coefficients.md` R92). -/
def b0Of (fx : F64) : F64 :=
  fdiv (fadd (flit 45522346 11) (fmul (flit 61922189 7) fx))
    (fadd (fadd f1 (fmul (flit 12358354 6) fx)) (fmul (fmul (flit 44156345 7) fx) fx))

/-- The polynomial `k0` in nested form (`41_coefficients.md` R93). -/
def k0Of (fx : F64) : F64 :=
  let h5 := fmul fx (fadd fx (flit 71986997 4))
  let h4 := fmul fx (fsub h5 (flit 58377917 4))
  let h3 := fmul fx (fsub h4 (flit 47647308 5))
  let h2 := fmul fx (fadd h3 (flit 61495611 5))
  let h1 := fmul fx (fadd h2 (flit 21387126 5))
  fadd h1 (flit 16998792 6)

/-- `rSkew` (`41_coefficients.md` R94). -/
def rSkewOf (c : Config.Voicing) (resonance : F64) : F64 :=
  fdiv (fsub f1 (c.exp (fmul (fneg (fnat 3)) resonance))) (fsub f1 (c.exp (fneg (fnat 3))))

/-- `g`, three assignments from the unskewed polynomial (`41_coefficients.md` R95). -/
def gOf (k0 rSkew : F64) : F64 :=
  fmul (fadd (fmul (fsub (fdiv k0 (fnat 17)) f1) rSkew) f1) (fadd f1 rSkew)

/-- The coefficient calculation: a pure function of `instCutoff`, `resonance` and `SAMPLE_RATE`
(`41_coefficients.md` R90, R97). -/
def coefficients (c : Config.Voicing) (s : State) : State :=
  let fx := fxOf c s.wires.instCutoff
  let k0 := k0Of fx
  let r := rSkewOf c (readP s .resonance)
  { s with wires := { s.wires with b0 := b0Of fx, k := fmul k0 r, g := gOf k0 r } }

/-- The meaning of `COEF`. -/
def execCoef (s : State) : Host.Outcome State Fault Refusal := .next (coefficients voicing s)

end Sys2Proof.Machine
end

