-- ==== Sys2Proof/Machine/Envelopes.lean ====
section
/-! DEFINITION. Stage `ENV` (`43_envelopes.md`). -/

namespace Sys2Proof.Machine

/-- A leaky integrator's new value, `r + (x − r) · (1 − coeff)` (`43_envelopes.md` R115, R116). -/
def leaky (r x coeff : F64) : F64 := fadd r (fmul (fsub x r) (fsub f1 coeff))

/-- The statement of RC1 (`43_envelopes.md` R115). -/
def stepRc1 (c : Config.Voicing) (s : State) : State :=
  writeEnv .rc1 (leaky (readD s .rc1) (readD s .mainEnv) (rc1Coeff c s)) s

/-- The statement of RC2 (`43_envelopes.md` R116). -/
def stepRc2 (c : Config.Voicing) (s : State) : State :=
  writeEnv .rc2 (leaky (readD s .rc2) (fmul (readP s .accentLevel) (readD s .mainEnv)) (rc2Coeff c s)) s

/-- `envMod`, in octaves (`43_envelopes.md` R117). -/
def envMod (c : Config.Voicing) (s : State) : F64 :=
  fmul (readP s .envModDepth)
    (fadd (fmul (c.norm1 (normArgs c s)) (readD s .rc1))
      (fmul (fmul (fmul (accOf s) (readP s .accentLevel)) (c.norm2 (normArgs c s))) (readD s .rc2)))

/-- `instCutoff` (`43_envelopes.md` R120). -/
def cutoffOf (c : Config.Voicing) (s : State) : F64 :=
  fclamp (fmul (readP s .cutoffHz) (c.pow2 (envMod c s))) f0 instCutoffMax

/-- The wires of `ENV`: `instCutoff` from the integrators just updated, `vcaEnv` from the undecayed `ampEnv`
(`43_envelopes.md` R110, R121). -/
def setEnvWires (c : Config.Voicing) (s : State) : State :=
  { s with wires := { s.wires with instCutoff := cutoffOf c s, vcaEnv := readD s .ampEnv } }

/-- The decay of `mainEnv` (`43_envelopes.md` R113). -/
def decayMain (c : Config.Voicing) (s : State) : State :=
  writeEnv .mainEnv (fmul (readD s .mainEnv) (decayCoeff c s)) s

/-- The decay of `ampEnv` (`43_envelopes.md` R114). -/
def decayAmp (c : Config.Voicing) (s : State) : State :=
  writeEnv .ampEnv (fmul (readD s .ampEnv) (vegCoeff c s)) s

/-- One envelope step, its statements in order (`43_envelopes.md` R110). -/
def envelopes (c : Config.Voicing) (s : State) : State :=
  decayAmp c (decayMain c (setEnvWires c (stepRc2 c (stepRc1 c s))))

/-- The meaning of `ENV`. -/
def execEnv (s : State) : Host.Outcome State Fault Refusal := .next (envelopes voicing s)

end Sys2Proof.Machine
end

