-- ==== Sys2Proof/Machine/HostControl.lean ====
section
/-! DEFINITION. The control commands `LDPARAM`, `RESET`, `RDSTAT` (`48_host_control.md`). -/

namespace Sys2Proof.Machine

/-- The meaning of `LDPARAM`: the 32 bits as they are into one staging register (`48_host_control.md` R186). -/
def execLdparam (index : BitVec 8) (value : F32) (s : State) : Host.Outcome State Fault Refusal :=
  .next (writeStaging index.toNat value s)

/-- The meaning of `RESET`: VoiceState zeroed, the gate `Silent`; parameters, staging and diagnostics kept
(`48_host_control.md` R190). -/
def execReset (s : State) : Host.Outcome State Fault Refusal := .next { s with voice := Voice.zero }

/-- `DIAG` and `NFCNT` cleared. -/
def clearDiag (s : State) : State := { s with diag := 0#4, nfcnt := 0#8 }

/-- The status word answered on the command port. -/
def respond (st : BitVec 32) (s : State) : State := { s with resp := s.resp ++ [st] }

/-- The meaning of `RDSTAT`: the status word before the clear is answered (`48_host_control.md` R192). -/
def execRdstat (clr : Bool) (s : State) : Host.Outcome State Fault Refusal :=
  .next (if clr then clearDiag (respond (statusWord s) s) else respond (statusWord s) s)

end Sys2Proof.Machine
end

