-- ==== Sys2Proof/Machine/Ladder.lean ====
section
/-! DEFINITION. Stage `FILT` (`42_ladder_filter.md`). -/

namespace Sys2Proof.Machine

/-- The one-pole lowpass of the feedback path, `(1 + a1)·fb − a1·hpz` (`42_ladder_filter.md` R102). -/
def fbLowpass (a1 fb hpz : F64) : F64 := fsub (fmul (fadd f1 a1) fb) (fmul a1 hpz)

/-- Stage 1: `y1 + 2·b0·(y0 − y1 + y2)` (`42_ladder_filter.md` R104). -/
def ladder1 (b0 y0 y1 y2 : F64) : F64 :=
  fadd y1 (fmul (fmul (fnat 2) b0) (fadd (fsub y0 y1) y2))

/-- Stages 2 and 3: `y + b0·(before − 2·y + after)` (`42_ladder_filter.md` R104). -/
def ladderMid (b0 before y after : F64) : F64 :=
  fadd y (fmul b0 (fadd (fsub before (fmul (fnat 2) y)) after))

/-- Stage 4: `y4 + b0·(y3 − 2·y4)` (`42_ladder_filter.md` R104). -/
def ladder4 (b0 y3 y4 : F64) : F64 := fadd y4 (fmul b0 (fsub y3 (fmul (fnat 2) y4)))

/-- The statements of the feedback path: `hpz`, then the input node `y0` (`42_ladder_filter.md` R100, R103). -/
def filterInput (c : Config.Voicing) (s : State) : State :=
  let fb := fmul s.wires.k (readD s .y4)
  let lp := fbLowpass (fbhpCoeff c) fb (readD s .hpz)
  let hp := fsub fb lp
  writeD (writeD s .hpz lp) .y0 (fsub s.wires.osc hp)

/-- The statement of `y1`. -/
def filterY1 (s : State) : State :=
  writeD s .y1 (ladder1 s.wires.b0 (readD s .y0) (readD s .y1) (readD s .y2))

/-- The statement of `y2`. -/
def filterY2 (s : State) : State :=
  writeD s .y2 (ladderMid s.wires.b0 (readD s .y1) (readD s .y2) (readD s .y3))

/-- The statement of `y3`. -/
def filterY3 (s : State) : State :=
  writeD s .y3 (ladderMid s.wires.b0 (readD s .y2) (readD s .y3) (readD s .y4))

/-- The statement of `y4`. -/
def filterY4 (s : State) : State :=
  writeD s .y4 (ladder4 s.wires.b0 (readD s .y3) (readD s .y4))

/-- One filter step, its statements in order, each seeing the writes before it (`42_ladder_filter.md` R100). -/
def ladderFilter (c : Config.Voicing) (s : State) : State :=
  filterY4 (filterY3 (filterY2 (filterY1 (filterInput c s))))

/-- The meaning of `FILT`. -/
def execFilt (s : State) : Host.Outcome State Fault Refusal := .next (ladderFilter voicing s)

end Sys2Proof.Machine
end

