-- ==== Sys2Proof/Machine/NoteEvents.lean ====
section
/-! DEFINITION. The event words `NOTEON` and `NOTEOFF` (`45_note_events.md`). When an event is applied is the scheduler's
part (Sys2Proof/Machine/Scheduler.lean). -/

namespace Sys2Proof.Machine

/-- Whether a NoteOn retriggers (`45_note_events.md` R140). -/
def retriggers (s : State) (slide : Bool) : Bool := decide (s.voice.gate = .silent) || !slide

/-- Everything a NoteOn writes (`45_note_events.md` R141): the target and the note always; the two envelopes, the accent
flag and the snapped pitch when it retriggers; `slideActive` says which it was. -/
def noteOn (c : Config.Voicing) (note : BitVec 7) (accent slide : Bool) (s : State) : State :=
  if retriggers s slide then
    { s with voice :=
      { s.voice with
        pitchTarget := freqOf c note
        currentNote := note
        mainEnv := f1
        ampEnv := f1
        accentActive := accent
        slideActive := false
        pitchCurrent := freqOf c note
        gate := .sounding } }
  else
    { s with voice :=
      { s.voice with
        pitchTarget := freqOf c note
        currentNote := note
        slideActive := true
        gate := .sounding } }

/-- The meaning of `NOTEON`; `velocity` is read by no rule (`45_note_events.md` R146) and `sampleOffset` by the scheduler
only. -/
def execNoteon (note _velocity : BitVec 7) (accent slide : Bool) (_sampleOffset : BitVec 32) (s : State) :
    Host.Outcome State Fault Refusal := .next (noteOn voicing note accent slide s)

/-- The meaning of `NOTEOFF`: no state change (`45_note_events.md` R145). -/
def execNoteoff (_note _velocity : BitVec 7) (_accent _slide : Bool) (_sampleOffset : BitVec 32) (s : State) :
    Host.Outcome State Fault Refusal := .next s

end Sys2Proof.Machine
end

