-- ==== Sys2Proof/Machine/Oscillator.lean ====
section
/-! DEFINITION. Stage `OSC` (`40_oscillator.md`). -/

namespace Sys2Proof.Machine

/-- The phase increment (`40_oscillator.md` R81). -/
def phaseInc (c : Config.Voicing) (pitch : F64) : F64 :=
  fclamp (fdiv pitch (rateF c)) phaseIncMin phaseIncMax

/-- The polynomial band-limited step residual `blep(t, dt)` (`40_oscillator.md` R82). -/
def blep (t dt : F64) : F64 :=
  if flt t dt then
    let u := fdiv t dt
    fsub (fsub (fmul (fnat 2) u) (fmul u u)) f1
  else if flt (fsub f1 dt) t then
    let u := fdiv (fsub t f1) dt
    fadd (fadd (fmul u u) (fmul (fnat 2) u)) f1
  else f0

/-- The band-limited sawtooth (`40_oscillator.md` R83). -/
def sawWave (p inc : F64) : F64 := fsub (fsub (fmul (fnat 2) p) f1) (blep p inc)

/-- The band-limited square (`40_oscillator.md` R84). -/
def squareWave (p inc : F64) : F64 :=
  fsub (fadd (if flt p (fratio false 1 2) then f1 else fneg f1) (blep p inc))
    (blep (ffrac (fadd p (fratio false 1 2))) inc)

/-- The blend of the two (`40_oscillator.md` R86). -/
def blendWave (wb saw sq : F64) : F64 :=
  fadd (fmul (fsub f1 wb) saw) (fmul (fmul wb (fratio false 1 2)) sq)

/-- One oscillator sample, computed from the phase before the advance (`40_oscillator.md` R80, R85). -/
def oscillator (c : Config.Voicing) (s : State) : State :=
  let inc := phaseInc c (readD s .pitchCurrent)
  let p := readD s .phase
  let o := blendWave (readP s .waveformBlend) (sawWave p inc) (squareWave p inc)
  writeD { s with wires := { s.wires with osc := o } } .phase (ffrac (fadd p inc))

/-- The meaning of `OSC`. -/
def execOsc (s : State) : Host.Outcome State Fault Refusal := .next (oscillator voicing s)

end Sys2Proof.Machine
end

