-- ==== Sys2Proof/Machine/PitchSlew.lean ====
section
/-! DEFINITION. Stage `PSLEW` (`44_pitch_slew.md`). -/

namespace Sys2Proof.Machine

/-- `pitchCurrent + (pitchTarget − pitchCurrent) · (1 − slewCoeff)` (`44_pitch_slew.md` R133). -/
def slewed (cur target coeff : F64) : F64 := fadd cur (fmul (fsub target cur) (fsub f1 coeff))

/-- One slew step (`44_pitch_slew.md` R133). -/
def pitchSlew (c : Config.Voicing) (s : State) : State :=
  writeD s .pitchCurrent (slewed (readD s .pitchCurrent) (readD s .pitchTarget) (slewCoeff c s))

/-- The meaning of `PSLEW`. -/
def execPslew (s : State) : Host.Outcome State Fault Refusal := .next (pitchSlew voicing s)

end Sys2Proof.Machine
end

