-- ==== Sys2Proof/Machine/Render.lean ====
section
/-! DEFINITION. The command `RENDER` (`47_render_scheduler.md`): what its own word does at once. The rest of the call, the
capture of the payload and the slicing loop, is the scheduler's (Sys2Proof/Machine/Scheduler.lean), one step at a time
(notes/assumptions/7.md). -/

namespace Sys2Proof.Machine

/-- The start of a render call: the latch, then an empty queue, position 0 and an empty output stream, with `evCount`
payload words to come (`47_render_scheduler.md` R172, R174, `20_memory.md` R42, R43). -/
def startRender (evCount : BitVec 24) (numSamples : BitVec 32) (s : State) : State :=
  { latch s with n := numSamples, pos := 0#32, evi := 0#32, evq := [], out := [], sched := .capture evCount }

/-- The meaning of `RENDER`. -/
def execRender (evCount : BitVec 24) (numSamples : BitVec 32) (s : State) : Host.Outcome State Fault Refusal :=
  .next (startRender evCount numSamples s)

end Sys2Proof.Machine
end

