-- ==== Sys2Proof/Machine/Sanitize.lean ====
section
/-! DEFINITION. Stage `SAN` (`60_exceptions.md` R201). -/

namespace Sys2Proof.Machine

/-- The registers `SAN` checks, in its order (`60_exceptions.md` R201). -/
def filterRegs : List DReg := [.y0, .y1, .y2, .y3, .y4, .hpz]

/-- The non-finite check of the filter state (`60_exceptions.md` R201). -/
def sanitize (s : State) : State := filterRegs.foldl sanitizeReg s

/-- The meaning of `SAN`. -/
def execSan (s : State) : Host.Outcome State Fault Refusal := .next (sanitize s)

end Sys2Proof.Machine
end

