-- ==== Sys2Proof/Machine/Dispatch.lean ====
section
/-! DEFINITION. Each instruction to its meaning. -/

namespace Sys2Proof.Machine

def exec (i : Instr) (s : State) : Host.Outcome State Fault Refusal :=
  match i with
  | .noteon note velocity accent slide sampleOffset => Sys2Proof.Machine.execNoteon note velocity accent slide sampleOffset s
  | .noteoff note velocity accent slide sampleOffset => Sys2Proof.Machine.execNoteoff note velocity accent slide sampleOffset s
  | .render evCount numSamples => Sys2Proof.Machine.execRender evCount numSamples s
  | .ldparam index value => Sys2Proof.Machine.execLdparam index value s
  | .reset => Sys2Proof.Machine.execReset s
  | .rdstat clr => Sys2Proof.Machine.execRdstat clr s
  | .pslew => Sys2Proof.Machine.execPslew s
  | .osc => Sys2Proof.Machine.execOsc s
  | .env => Sys2Proof.Machine.execEnv s
  | .coef => Sys2Proof.Machine.execCoef s
  | .filt => Sys2Proof.Machine.execFilt s
  | .san => Sys2Proof.Machine.execSan s
  | .vca => Sys2Proof.Machine.execVca s

end Sys2Proof.Machine
end

