-- ==== Sys2Proof/Machine/Scheduler.lean ====
section
/-! DEFINITION. The sequencing of the voice: the command port (`20_memory.md` R44), the capture of a payload and the slicing
loop of the event scheduler (`47_render_scheduler.md` R172), one instruction or one bookkeeping action a step. -/

namespace Sys2Proof.Machine

/-- The instruction of a stage (`30_encoding.md` R70). -/
def Stage.instr : Stage → Instr
  | .pslew => .pslew
  | .osc => .osc
  | .env => .env
  | .coef => .coef
  | .filt => .filt
  | .san => .san
  | .vca => .vca

/-- The stage after a stage, in the fixed order of `STEP`; after `VCA` the next sample begins (`46_sample_step.md`
R155). -/
def Stage.next : Stage → Stage
  | .pslew => .osc
  | .osc => .env
  | .env => .coef
  | .coef => .filt
  | .filt => .san
  | .san => .vca
  | .vca => .pslew

/-- `pos` after a stage: advanced by one after `VCA`, and by nothing else (`47_render_scheduler.md` R174). -/
def Stage.posAfter (st : Stage) (pos : BitVec 32) : BitVec 32 :=
  match st with
  | .pslew => pos
  | .osc => pos
  | .env => pos
  | .coef => pos
  | .filt => pos
  | .san => pos
  | .vca => pos + 1#32

/-- What the scheduler does after a stage: `pos`, and on to the next stage. -/
def afterStage (st : Stage) (s : State) : State :=
  { s with pos := st.posAfter s.pos, sched := .loop st.next }

/-- `evi <- evi + 1` (`47_render_scheduler.md` R172). -/
def nextEvent (s : State) : State := { s with evi := s.evi + 1#32 }

/-- A next state carried on by `f`; a stop stays as it is. -/
def thenNext (o : Host.Outcome State Fault Refusal) (f : State → State) : Host.Outcome State Fault Refusal :=
  match o with
  | .next t => .next (f t)
  | .fault e => .fault e
  | .refused r => .refused r

/-- Run one stage and move on. -/
def runStage (st : Stage) (s : State) : Host.Outcome State Fault Refusal :=
  thenNext (exec st.instr s) (afterStage st)

/-- A word at the top level: executed, or discarded as illegal (`60_exceptions.md` R208). The state is the one after the
word has been taken off the port. -/
def acceptWord (w : Word64) (s : State) : Host.Outcome State Fault Refusal :=
  match decodeTop w with
  | .ok i => exec i s
  | .error _ => .next (raiseCond .illegalWord s)

/-- Capture of one payload word: an illegal one is discarded first, then one beyond the depth, else it is queued in payload
order (`47_render_scheduler.md` R172, R175, R176, R182). -/
def captureWord (depth : Nat) (w : Word64) (s : State) : State :=
  if !legalEventWord w then raiseCond .illegalWord s
  else if s.evq.length = depth then raiseCond .eventDrop s
  else { s with evq := s.evq ++ [w] }

/-- The re-sort, after which the slicing loop begins at `pos = 0`, `evi = 0` (`47_render_scheduler.md` R171, R172). -/
def startLoop (s : State) : State :=
  { s with evq := sortEvents s.evq, pos := 0#32, evi := 0#32, sched := .loop .pslew }

/-- The end of the call: the queue is gone, no call is in progress (`47_render_scheduler.md` R172, `20_memory.md` R42). -/
def endCall (s : State) : State := { s with evq := [], sched := .idle }

/-- Apply an event word at its offset; a queue word that is no event (no run puts one there) is discarded as illegal
(notes/assumptions/19.md). -/
def applyEvent (w : Word64) (s : State) : Host.Outcome State Fault Refusal :=
  match decodePayload w with
  | .ok i => thenNext (exec i s) nextEvent
  | .error _ => .next (nextEvent (raiseCond .illegalWord s))

/-- A sample boundary of the slicing loop (`47_render_scheduler.md` R172): an event that is late is discarded, one that is
due is applied, else the next sample begins; with no event left, samples up to `n`, then the end. -/
def boundary (s : State) : Host.Outcome State Fault Refusal :=
  match s.evq[s.evi.toNat]? with
  | some w =>
    if s.n.toNat ≤ (fieldOffset w).toNat then .next (nextEvent (raiseCond .lateEvent s))
    else if s.pos.toNat < (fieldOffset w).toNat then runStage .pslew s
    else applyEvent w s
  | none => if s.pos.toNat < s.n.toNat then runStage .pslew s else .next (endCall s)

/-- One payload word captured, or, when none is left to come, the loop begun. A word not yet presented is waited for
(notes/assumptions/8.md). -/
def captureStep (left : BitVec 24) (s : State) : Host.Outcome State Fault Refusal :=
  if left = 0#24 then .next (startLoop s)
  else match s.port with
    | [] => .next s
    | w :: rest => .next (captureWord voicing.evqDepth w { s with port := rest, sched := .capture (left - 1#24) })

/-- Between commands: the next word at the port, or, with none presented, the state held (`60_exceptions.md` R220,
notes/assumptions/9.md). -/
def idleStep (s : State) : Host.Outcome State Fault Refusal :=
  match s.port with
  | [] => .next s
  | w :: rest => acceptWord w { s with port := rest }

/-- One stage of a `STEP` in progress, or the boundary between two. -/
def loopStep (st : Stage) (s : State) : Host.Outcome State Fault Refusal :=
  match st with
  | .pslew => boundary s
  | .osc => runStage .osc s
  | .env => runStage .env s
  | .coef => runStage .coef s
  | .filt => runStage .filt s
  | .san => runStage .san s
  | .vca => runStage .vca s

/-- One step of the voice. -/
def advance (s : State) : Host.Outcome State Fault Refusal :=
  match s.sched with
  | .idle => idleStep s
  | .capture left => captureStep left s
  | .loop st => loopStep st s

/-! ### Where a step fetches (`withFetchWord`) -/

/-- The voice at a sample boundary with one event word due. -/
def withEvent (s : State) (w : Word64) : State :=
  { s with sched := .loop .pslew, evq := [w], evi := 0#32, pos := fieldOffset w, n := fieldOffset w + 1#32 }

/-- The voice inside a one-sample call with a given stage next. -/
def withStage (s : State) (st : Stage) : State :=
  { s with sched := .loop st, evq := [], evi := 0#32, pos := 0#32, n := 1#32 }

/-- The voice between commands with a word at the front of the port. -/
def withCommand (s : State) (w : Word64) : State := { s with sched := .idle, port := w :: s.port }

/-- `s` arranged so that the next step fetches the instruction whose bits are `w` (notes/assumptions/12.md). -/
def fetchAt (s : State) (nbits w : Nat) : State :=
  match decodeTableWord nbits w with
  | some (.noteon _ _ _ _ _) => withEvent s (BitVec.ofNat 64 w)
  | some (.noteoff _ _ _ _ _) => withEvent s (BitVec.ofNat 64 w)
  | some .pslew => withStage s .pslew
  | some .osc => withStage s .osc
  | some .env => withStage s .env
  | some .coef => withStage s .coef
  | some .filt => withStage s .filt
  | some .san => withStage s .san
  | some .vca => withStage s .vca
  | some (.render _ _) => withCommand s (BitVec.ofNat 64 w)
  | some (.ldparam _ _) => withCommand s (BitVec.ofNat 64 w)
  | some .reset => withCommand s (BitVec.ofNat 64 w)
  | some (.rdstat _) => withCommand s (BitVec.ofNat 64 w)
  | none => withCommand s (BitVec.ofNat 64 w)

end Sys2Proof.Machine
end

