-- ==== Sys2Proof/Machine/Step.lean ====
section
/-! DEFINITION. One step of the machine, and the state in which the next step fetches a given instruction. -/

namespace Sys2Proof.Machine

/-- One step: one word taken at the command port, one payload word captured, one event applied or discarded, one stage run,
or one bookkeeping action of the scheduler. -/
def step (s : State) : Host.Outcome State Fault Refusal := advance s

/-- `s` with the instruction whose bits are `w` placed where the next step fetches: a command word at the front of the port,
an event word due in a render call, a stage next in a `STEP`. -/
def State.withFetchWord (s : State) (nbits w : Nat) : State := fetchAt s nbits w

end Sys2Proof.Machine
end

