-- ==== Sys2Proof/Machine/Assembler.lean ====
section
/-! DEFINITION. The assembler form and the pseudo-instructions (`30_encoding.md` R71, R72), over lines already read into
their parts (notes/assumptions/18.md): which words a line stands for. -/

namespace Sys2Proof.Machine

/-- A `<real>` as the rational a decimal literal spells. -/
structure RealLit where
  neg : Bool
  num : Nat
  den : Nat
deriving DecidableEq, Repr

/-- The field `value` of a `<real>`: rounded to binary32, nearest even, not clamped (`30_encoding.md` R71). -/
def RealLit.value (x : RealLit) : F32 := ratio32 x.neg x.num x.den

/-- An `<event>` of a `RENDER` line; `accent` and `slide` are the words `ACC` and `SLD` (`30_encoding.md` R71). -/
inductive AsmEvent where
  | noteon (note velocity : BitVec 7) (accent slide : Bool) (sampleOffset : BitVec 32)
  | noteoff (note : BitVec 7) (velocity : Option (BitVec 7)) (sampleOffset : BitVec 32)
deriving DecidableEq, Repr

/-- A line: a command, or a pseudo-instruction (`30_encoding.md` R71, R72). -/
inductive AsmLine where
  | render (numSamples : BitVec 32) (events : List AsmEvent)
  | ldparam (param : Param) (x : RealLit)
  | reset
  | rdstat (clr : Bool)
  | allNotesOff
  | ldpset (cutoffHz resonance envModDepth decay accentLevel waveformBlend volume : RealLit)
  | ldtimes (attack accAttack accDecay veg slide : RealLit)
deriving DecidableEq, Repr

/-- The instruction of an event; a `NOTEOFF` without a velocity has velocity 0, and no accent or slide
(`30_encoding.md` R71). -/
def AsmEvent.instr : AsmEvent → Instr
  | .noteon note velocity accent slide off => .noteon note velocity accent slide off
  | .noteoff note velocity off => .noteoff note (velocity.getD 0#7) false false off

/-- `LDPARAM` of a named parameter. -/
def loadParam (p : Param) (x : RealLit) : Instr := .ldparam (BitVec.ofNat 8 p.index) x.value

/-- The instructions a line stands for: `evCount` is the number of events written, and each pseudo-instruction is its
expansion (`30_encoding.md` R71, R72). More events than the field holds make no line. -/
def AsmLine.expand : AsmLine → Option (List Instr)
  | .render n events =>
    if events.length < 2 ^ 24 then
      some (.render (BitVec.ofNat 24 events.length) n :: events.map AsmEvent.instr)
    else none
  | .ldparam p x => some [loadParam p x]
  | .reset => some [.reset]
  | .rdstat clr => some [.rdstat clr]
  | .allNotesOff => some [.reset]
  | .ldpset c r e d a w v =>
    some [loadParam .cutoffHz c, loadParam .resonance r, loadParam .envModDepth e, loadParam .decay d,
      loadParam .accentLevel a, loadParam .waveformBlend w, loadParam .volume v]
  | .ldtimes a aa ad v s =>
    some [loadParam .tauAttackMs a, loadParam .tauAccAttackMs aa, loadParam .tauAccDecayMs ad, loadParam .tauVegMs v,
      loadParam .tauSlideMs s]

/-- The word of an encoding that is a word. -/
def codeWord : Code → Option Word64
  | .word w => some w
  | .stage _ => none

/-- The words a line is assembled to. -/
def AsmLine.assemble (l : AsmLine) : Option (List Word64) :=
  l.expand.map fun is => is.filterMap fun i => codeWord (encode i)

end Sys2Proof.Machine
end

