-- ==== Sys2Proof/Machine/WholeCall.lean ====
section
/-! DEFINITION. A whole render call as one function, written from the pseudocode of `47_render_scheduler.md` R172. The machine
takes a call in small steps; this is what the steps together must come to, and what a reader may hold beside the rule. -/

namespace Sys2Proof.Machine

/-- `STEP`: the seven stages in their order (`46_sample_step.md` R155). -/
def sampleStep (c : Config.Voicing) (s : State) : State :=
  amplifier c (sanitize (ladderFilter c (coefficients c (envelopes c (oscillator c (pitchSlew c s))))))

/-- `STEP() ; pos <- pos + 1`, `k` times. -/
def sampleSteps (c : Config.Voicing) : Nat → State → State
  | 0, s => s
  | k + 1, s =>
    let t := sampleStep c s
    sampleSteps c k { t with pos := t.pos + 1#32 }

/-- `apply(e)` (`45_note_events.md` R141, R145). -/
def eventEffect (c : Config.Voicing) (w : Word64) (s : State) : State :=
  match decodePayload w with
  | .ok (.noteon note _ accent slide _) => noteOn c note accent slide s
  | .ok _ => s
  | .error _ => raiseCond .illegalWord s

/-- Part 2 of the pseudocode: the payload in its order. -/
def capturePayload (depth : Nat) (ws : List Word64) (s : State) : State :=
  ws.foldl (fun t w => captureWord depth w t) s

/-- Part 4 of the pseudocode: the events in their order, with the samples before each, and the samples after the last. -/
def sliceLoop (c : Config.Voicing) : List Word64 → State → State
  | [], s => sampleSteps c (s.n.toNat - s.pos.toNat) s
  | w :: q, s =>
    if s.n.toNat ≤ (fieldOffset w).toNat then sliceLoop c q (nextEvent (raiseCond .lateEvent s))
    else sliceLoop c q
      (nextEvent (eventEffect c w (sampleSteps c ((fieldOffset w).toNat - s.pos.toNat) s)))

/-- `RENDER(n, evCount, EVQ)`: latch, capture, sort, slice (`47_render_scheduler.md` R172). The registers that are dead
outside a call are left as the machine leaves them. -/
def renderCall (c : Config.Voicing) (numSamples : BitVec 32) (payload : List Word64) (s : State) : State :=
  let s1 := { latch s with n := numSamples, pos := 0#32, evi := 0#32, evq := [], out := [] }
  let s2 := capturePayload c.evqDepth payload s1
  let s3 := sliceLoop c (sortEvents s2.evq) s2
  { s3 with evq := [] }

end Sys2Proof.Machine
end

