-- ==== Sys2Proof/Safety.lean ====
section
/-! DEFINITION. What holds of the voice in every state of a run (`10_state.md` R28, `60_exceptions.md` R221), and which state
each operation may write (`10_state.md` R33), in the words the statements use. -/

namespace Sys2Proof.Safety

open Sys2Proof.Machine

/-- A finite value in the closed interval from `lo` to `hi`. -/
def within (lo hi x : F64) : Bool := isFinite x && fle lo x && fle x hi

/-- The four envelope registers lie in [0,1] (`10_state.md` R28). -/
def envelopesInUnit (v : Voice) : Bool :=
  within f0 f1 v.mainEnv && within f0 f1 v.ampEnv && within f0 f1 v.rc1 && within f0 f1 v.rc2

/-- The filter state is finite (`10_state.md` R28). -/
def filterFinite (v : Voice) : Bool := filterRegs.all fun r => isFinite (v.get r)

/-- The voice stands between `FILT` and `SAN`, the one place where filter state may be non-finite. -/
def beforeSanitize (s : State) : Bool := decide (s.sched = .loop .san)

/-- An active parameter lies in its legal range (`10_state.md` R22). -/
def paramInRange (b : Bank F64) (p : Param) : Bool := within (paramLo p) (paramHi p) (b.get p)

/-- Every active parameter lies in its legal range (`10_state.md` R22). -/
def paramsInRange (b : Bank F64) : Prop := ∀ p, paramInRange b p = true

/-- Every stored sample is finite (`60_exceptions.md` R221). -/
def samplesFinite (m : Memory) : Bool := m.all fun c => isFinite32 c.2

/-- The phase lies in [0,1) (`10_state.md` R28). -/
def phaseInUnit (v : Voice) : Bool := isFinite v.phase && fle f0 v.phase && flt v.phase f1

/-- `pitchTarget` is 0 or the frequency of some note (`10_state.md` R28). -/
def targetLegal (v : Voice) : Prop := v.pitchTarget = f0 ∨ ∃ note, v.pitchTarget = freqOf voicing note

/-- `pitchTarget` is legal and `pitchCurrent` is finite, not below 0 and not above 2^14 Hz. -/
def pitchBounded (v : Voice) : Prop := targetLegal v ∧ within f0 (fnat 16384) v.pitchCurrent = true

/-- The indices of the stored samples. -/
def storedIndices (m : Memory) : List Nat := m.map Prod.fst

/-- The scheduler's registers in a render call (`10_state.md` R24, `47_render_scheduler.md` R174 to R176): while the payload
is captured nothing has been rendered; in the loop the queue is sorted, `evi` and `pos` have not passed their ends, inside a
sample `pos` is below `n`, and exactly the samples 0 to `pos` − 1 are stored. The queue holds event words only, at most
`EVQ_DEPTH`. -/
def schedulerSound (s : State) : Prop :=
  match s.sched with
  | .idle => True
  | .capture _ =>
    s.evq.all legalEventWord = true ∧ s.evq.length ≤ voicing.evqDepth ∧ s.out = [] ∧ s.pos = 0#32 ∧ s.evi = 0#32
  | .loop st =>
    s.evq.all legalEventWord = true ∧ s.evq.length ≤ voicing.evqDepth ∧
    s.evq.Pairwise (fun a b => offsetLe a b = true) ∧ s.evi.toNat ≤ s.evq.length ∧
    s.pos.toNat ≤ s.n.toNat ∧ (st ≠ .pslew → s.pos.toNat < s.n.toNat) ∧
    storedIndices s.out = List.range s.pos.toNat

/-- The data registers an instruction may write (`10_state.md` R33). -/
def mayWrite : Instr → DReg → Bool
  | .noteon _ _ _ _ _, r => decide (r = .mainEnv ∨ r = .ampEnv ∨ r = .pitchCurrent ∨ r = .pitchTarget)
  | .noteoff _ _ _ _ _, _ => false
  | .render _ _, _ => false
  | .ldparam _ _, _ => false
  | .reset, _ => true
  | .rdstat _, _ => false
  | .pslew, r => decide (r = .pitchCurrent)
  | .osc, r => decide (r = .phase)
  | .env, r => decide (r = .mainEnv ∨ r = .ampEnv ∨ r = .rc1 ∨ r = .rc2)
  | .coef, _ => false
  | .filt, r => decide (r ∈ filterRegs)
  | .san, r => decide (r ∈ filterRegs)
  | .vca, _ => false

/-- The instruction may write the flags, the note and the gate (`10_state.md` R33). -/
def mayWriteFlags : Instr → Bool
  | .noteon _ _ _ _ _ => true
  | .reset => true
  | .noteoff _ _ _ _ _ => false
  | .render _ _ => false
  | .ldparam _ _ => false
  | .rdstat _ => false
  | .pslew => false
  | .osc => false
  | .env => false
  | .coef => false
  | .filt => false
  | .san => false
  | .vca => false

/-- The instruction may write `DIAG` and `NFCNT` (`10_state.md` R33). -/
def mayWriteDiag : Instr → Bool
  | .env => true
  | .san => true
  | .vca => true
  | .ldparam _ _ => true
  | .rdstat _ => true
  | .noteon _ _ _ _ _ => false
  | .noteoff _ _ _ _ _ => false
  | .render _ _ => false
  | .reset => false
  | .pslew => false
  | .osc => false
  | .coef => false
  | .filt => false

/-- The state with what only `RDSTAT` shows put aside: `DIAG`, `NFCNT` and the answered status words (`10_state.md`
R21). -/
def withoutDiagnostics (s : State) : State := { s with diag := 0#4, nfcnt := 0#8, resp := [] }

/-- The state with what no stage reads put aside: the gate, `slideActive`, `currentNote`, `DIAG` and `NFCNT`
(`46_sample_step.md` R158). -/
def withoutBookkeeping (s : State) : State :=
  { s with
    diag := 0#4, nfcnt := 0#8
    voice := { s.voice with gate := .silent, slideActive := false, currentNote := 0#7 } }

/-- An event word with its `sampleOffset` later by `t` samples, every other field kept (`30_encoding.md` R61). -/
def delayed (t : BitVec 32) (w : Word64) : Word64 := w.extractLsb' 32 32 ++ (fieldOffset w + t)

end Sys2Proof.Safety
end

