-- ==== Sys2Proof/WellFormed.lean ====
section
/-! DEFINITION. Which instructions an encoding exists for. -/

namespace Sys2Proof

/-- The one operand check that a field's width does not make by itself: `LDPARAM` has index 0 to 11
(`30_encoding.md` R63, R66, `20_memory.md` R48). -/
def Instr.wellFormed : Instr → Bool
  | .ldparam index _ => decide (index.toNat < 12)
  | .noteon _ _ _ _ _ => true
  | .noteoff _ _ _ _ _ => true
  | .render _ _ => true
  | .reset => true
  | .rdstat _ => true
  | .pslew => true
  | .osc => true
  | .env => true
  | .coef => true
  | .filt => true
  | .san => true
  | .vca => true

end Sys2Proof
end

