-- ==== Sys2Proof/Certificates/Slice0/Obligations.lean ====
section
/-! DEFINITION. The statements for the provers: what the numbered rules of spec/ say the voice does. -/

open Sys2Proof Sys2Proof.Machine Sys2Proof.Safety

/-! ### Encoding -/

/-- Decoding the encoding of a well-formed instruction gives it back, with every operand at every value
(`30_encoding.md` R61 to R65, R70). -/
def Obligations.DecodeOfEncode : Prop :=
  ∀ i : Instr, i.wellFormed = true → decode (encode i) = .ok i

/-- What decodes is well formed, and its encoding is the code it came from: no code is spelled twice
(`30_encoding.md` R60, R66, R70). -/
def Obligations.EncodeOfDecode : Prop :=
  ∀ (c : Code) (i : Instr), decode c = .ok i → i.wellFormed = true ∧ encode i = c

/-- The opcode map (`30_encoding.md` R66): each mnemonic is spelled by exactly the words its match and mask (and, for
`LDPARAM`, its index) select, and stands at exactly the place the map gives it, the instructions of each place named one
by one. No word spells a stage. -/
def Obligations.OpcodeMap : Prop :=
  ∀ w : Word64,
    ((∃ n v a l o, decodeWord w = .ok (.noteon n v a l o)) ↔ w &&& 0xFC8080FF00000000#64 = 0x1000000000000000#64) ∧
    ((∃ n v a l o, decodeWord w = .ok (.noteoff n v a l o)) ↔ w &&& 0xFC8080FF00000000#64 = 0x2000000000000000#64) ∧
    ((∃ e n, decodeWord w = .ok (.render e n)) ↔ w &&& 0xFF00000000000000#64 = 0x3000000000000000#64) ∧
    ((∃ x v, decodeWord w = .ok (.ldparam x v)) ↔
      w &&& 0xFFFFFF0000000000#64 = 0x4000000000000000#64 ∧ (w.extractLsb' 32 8).toNat ≤ 11) ∧
    (decodeWord w = .ok .reset ↔ w &&& 0xFFFFFFFFFFFFFFFF#64 = 0x5000000000000000#64) ∧
    ((∃ c, decodeWord w = .ok (.rdstat c)) ↔ w &&& 0xFFFFFFFFFFFFFFFE#64 = 0x6000000000000000#64) ∧
    (∀ i ∈ [Instr.pslew, .osc, .env, .coef, .filt, .san, .vca], decodeWord w ≠ .ok i) ∧
    (∀ i, decodeTop w = .ok i ↔ decodeWord w = .ok i ∧
      ((∃ e n, i = .render e n) ∨ (∃ x v, i = .ldparam x v) ∨ i = .reset ∨ ∃ c, i = .rdstat c)) ∧
    (∀ i, decodePayload w = .ok i ↔ decodeWord w = .ok i ∧
      ((∃ n v a l o, i = .noteon n v a l o) ∨ ∃ n v a l o, i = .noteoff n v a l o))

/-- Words written out by hand decode to their instructions (`30_encoding.md` R72, the table of worked encodings, and
`95_test_vectors.md` S2.12). -/
def Obligations.WorkedWords : Prop :=
  decodeWord 0x12643E000000089D#64 = .ok (.noteon 62 100 false true 2205) ∧
  decodeWord 0x117F240000000000#64 = .ok (.noteon 36 127 true false 0) ∧
  decodeWord 0x20003C0000000064#64 = .ok (.noteoff 60 0 false false 100) ∧
  decodeWord 0x300000020000113A#64 = .ok (.render 2 4410) ∧
  decodeWord 0x4000000B42700000#64 = .ok (.ldparam 11 0x42700000#32) ∧
  decodeWord 0x5000000000000000#64 = .ok .reset ∧
  decodeWord 0x6000000000000001#64 = .ok (.rdstat true) ∧
  decodeStage 0b0101#4 = .ok .filt ∧
  decodeWord 0x10643C0100000003#64 = .error .reservedBits ∧
  decodeWord 0x7000000000000005#64 = .error .reservedOp ∧
  decodeWord 0x4000000C3F800000#64 = .error .reservedIndex

/-- Worked lines of the assembler form (`30_encoding.md` R71, R72; `95_test_vectors.md` P1). -/
def Obligations.WorkedAssembly : Prop :=
  (AsmLine.render 4410 [.noteon 60 100 false false 0, .noteon 62 100 false true 2205]).assemble
    = some [0x300000020000113A#64, 0x10643C0000000000#64, 0x12643E000000089D#64] ∧
  (AsmLine.ldparam .cutoffHz ⟨false, 500, 1⟩).assemble = some [0x4000000043FA0000#64] ∧
  AsmLine.allNotesOff.assemble = some [0x5000000000000000#64] ∧
  (AsmLine.ldtimes ⟨false, 3, 1⟩ ⟨false, 3, 1⟩ ⟨false, 200, 1⟩ ⟨false, 3000, 1⟩ ⟨false, 60, 1⟩).assemble
    = some [0x4000000740400000#64, 0x4000000840400000#64, 0x4000000943480000#64, 0x4000000A453B8000#64,
        0x4000000B42700000#64]

/-! ### A step runs the decoded instruction -/

/-- Between commands a legal word at the port is taken off it and its instruction executed (`20_memory.md` R44). -/
def Obligations.StepRunsCommand : Prop :=
  ∀ (s : State) (w : Word64) (rest : List Word64) (i : Instr),
    s.sched = .idle → s.port = w :: rest → decodeTop w = .ok i →
    step s = exec i { s with port := rest }

/-- At a sample boundary an event word that is due is executed, and `evi` advances by one (`47_render_scheduler.md` R172,
R173). -/
def Obligations.StepRunsDueEvent : Prop :=
  ∀ (s t : State) (w : Word64) (i : Instr),
    s.sched = .loop .pslew → s.evq[s.evi.toNat]? = some w →
    (fieldOffset w).toNat < s.n.toNat → (fieldOffset w).toNat ≤ s.pos.toNat →
    decodePayload w = .ok i → exec i s = .next t →
    step s = .next { t with evi := t.evi + 1#32 }

/-- In a sample step each stage is executed and the next one follows; after `VCA`, and after no other stage, `pos` advances
by one. At a boundary `PSLEW` begins a sample exactly where no event is due and a sample is to come before the next event
or the end, and with no event left and `pos` at `n` the call ends: no call in progress, the queue gone, everything else
kept (`46_sample_step.md` R155, `47_render_scheduler.md` R172, R174). That `n`, `pos`, `evi` and the wires, which are dead
after a call, keep their values there is the model's choice (DESIGN CHOICE, notes/assumptions/13.md), not these rules'. -/
def Obligations.StepRunsStages : Prop :=
  ∀ s : State,
    (s.sched = .loop .pslew → s.evq[s.evi.toNat]? = none → s.n.toNat ≤ s.pos.toNat →
      step s = .next { s with evq := [], sched := .idle }) ∧
    (∀ t, s.sched = .loop .pslew → step s = .next t →
      (t.sched = .loop .osc ↔
        (∃ w, s.evq[s.evi.toNat]? = some w ∧ (fieldOffset w).toNat < s.n.toNat ∧
          s.pos.toNat < (fieldOffset w).toNat) ∨
        (s.evq[s.evi.toNat]? = none ∧ s.pos.toNat < s.n.toNat))) ∧
    (∀ t, s.sched = .loop .pslew →
      ((∃ w, s.evq[s.evi.toNat]? = some w ∧ (fieldOffset w).toNat < s.n.toNat ∧ s.pos.toNat < (fieldOffset w).toNat) ∨
        (s.evq[s.evi.toNat]? = none ∧ s.pos.toNat < s.n.toNat)) →
      exec .pslew s = .next t → step s = .next { t with sched := .loop .osc }) ∧
    (∀ t, s.sched = .loop .osc → exec .osc s = .next t → step s = .next { t with sched := .loop .env }) ∧
    (∀ t, s.sched = .loop .env → exec .env s = .next t → step s = .next { t with sched := .loop .coef }) ∧
    (∀ t, s.sched = .loop .coef → exec .coef s = .next t → step s = .next { t with sched := .loop .filt }) ∧
    (∀ t, s.sched = .loop .filt → exec .filt s = .next t → step s = .next { t with sched := .loop .san }) ∧
    (∀ t, s.sched = .loop .san → exec .san s = .next t → step s = .next { t with sched := .loop .vca }) ∧
    (∀ t, s.sched = .loop .vca → exec .vca s = .next t →
      step s = .next { t with sched := .loop .pslew, pos := t.pos + 1#32 })

/-- No step stops (`60_exceptions.md` R200). -/
def Obligations.StepNeverStops : Prop := ∀ s : State, ∃ t, step s = .next t

/-- With no command in progress and nothing presented the voice holds its state (`60_exceptions.md` R220). -/
def Obligations.IdleHoldsState : Prop :=
  ∀ s : State, s.sched = .idle → s.port = [] → step s = .next s

/-- An illegal word is discarded: `ILLCMD` is set, nothing else changes, nothing is answered; inside a payload the scheduler
goes on with the next word (`60_exceptions.md` R208). -/
def Obligations.IllegalWordIsDiscarded : Prop :=
  ∀ (s : State) (w : Word64) (rest : List Word64), s.port = w :: rest →
    (∀ r, s.sched = .idle → decodeTop w = .error r →
      step s = .next { s with port := rest, diag := s.diag ||| 0b0010#4 }) ∧
    (∀ r left, s.sched = .capture left → left ≠ 0#24 → decodePayload w = .error r →
      step s = .next { s with port := rest, sched := .capture (left - 1#24), diag := s.diag ||| 0b0010#4 })

/-- A legal payload word is queued behind the others while the queue has room, and discarded with `EVDROP` when it holds
`EVQ_DEPTH` words (`47_render_scheduler.md` R175, R176, `60_exceptions.md` R210). -/
def Obligations.PayloadWordIsQueuedOrDropped : Prop :=
  ∀ (s : State) (w : Word64) (rest : List Word64) (left : BitVec 24) (i : Instr),
    s.sched = .capture left → left ≠ 0#24 → s.port = w :: rest → decodePayload w = .ok i →
    (s.evq.length < voicing.evqDepth →
      step s = .next { s with port := rest, sched := .capture (left - 1#24), evq := s.evq ++ [w] }) ∧
    (s.evq.length = voicing.evqDepth →
      step s = .next { s with port := rest, sched := .capture (left - 1#24), diag := s.diag ||| 0b1000#4 })

/-- A late event is discarded when the loop reaches it: `LATEEVT` is set and `evi` advances; it is not applied now or later
(`60_exceptions.md` R209). -/
def Obligations.LateEventIsDiscarded : Prop :=
  ∀ (s : State) (w : Word64),
    s.sched = .loop .pslew → s.evq[s.evi.toNat]? = some w → s.n.toNat ≤ (fieldOffset w).toNat →
    step s = .next { s with evi := s.evi + 1#32, diag := s.diag ||| 0b0100#4 }

/-! ### Events and commands -/

/-- A NoteOn that finds the gate `Silent`, or carries no slide, retriggers: what it writes, and that it writes nothing else
(`45_note_events.md` R141, R142, R143). -/
def Obligations.NoteOnRetriggers : Prop :=
  ∀ (s : State) (note velocity : BitVec 7) (accent slide : Bool) (off : BitVec 32),
    s.voice.gate = .silent ∨ slide = false →
    exec (.noteon note velocity accent slide off) s =
      .next { s with voice :=
        { s.voice with
          pitchTarget := freqOf voicing note, pitchCurrent := freqOf voicing note, currentNote := note,
          mainEnv := f1, ampEnv := f1, accentActive := accent, slideActive := false, gate := .sounding } }

/-- A slide NoteOn on a `Sounding` gate glides: only the pitch target and the two bookkeeping fields change
(`45_note_events.md` R144). -/
def Obligations.NoteOnGlides : Prop :=
  ∀ (s : State) (note velocity : BitVec 7) (accent : Bool) (off : BitVec 32),
    s.voice.gate = .sounding →
    exec (.noteon note velocity accent true off) s =
      .next { s with voice :=
        { s.voice with pitchTarget := freqOf voicing note, currentNote := note, slideActive := true } }

/-- A NoteOff, spelled by the words of its row, changes no state, whatever its fields (`45_note_events.md` R145). -/
def Obligations.NoteOffChangesNothing : Prop :=
  (∀ (s : State) (note velocity : BitVec 7) (accent slide : Bool) (off : BitVec 32),
    exec (.noteoff note velocity accent slide off) s = .next s) ∧
  ∀ w : Word64,
    (∃ n v a l o, decodeWord w = .ok (.noteoff n v a l o)) ↔ w &&& 0xFC8080FF00000000#64 = 0x2000000000000000#64

/-- The frequency of a note, over the free function `2^x` of the voicing (`44_pitch_slew.md` R131; what `2^x` may be is the
model's choice, notes/assumptions/5.md). -/
def Obligations.FrequencyFormula : Prop :=
  ∀ note : BitVec 7,
    freqOf voicing note = fmul (fnat 440) (voicing.pow2 (fdiv (fsub (fnat note.toNat) (fnat 69)) (fnat 12)))

/-- Every encodable note has a finite positive frequency not above 2^14 Hz, and the notes a whole number of octaves from 69
(9, 21, 33, ..., 117: 440 Hz halved or doubled so often) have their exact value (`44_pitch_slew.md` R131; rests on the limits of notes/assumptions/5.md). -/
def Obligations.FrequencyFiniteAndExactAtOctaves : Prop :=
  (∀ note : BitVec 7, isFinite (freqOf voicing note) = true ∧ flt f0 (freqOf voicing note) = true ∧
    fle (freqOf voicing note) (fnat 16384) = true) ∧
  freqOf voicing 9 = fratio false 55 4 ∧ freqOf voicing 21 = fratio false 55 2 ∧ freqOf voicing 33 = fnat 55 ∧
  freqOf voicing 45 = fnat 110 ∧ freqOf voicing 57 = fnat 220 ∧ freqOf voicing 69 = fnat 440 ∧
  freqOf voicing 81 = fnat 880 ∧ freqOf voicing 93 = fnat 1760 ∧ freqOf voicing 105 = fnat 3520 ∧
  freqOf voicing 117 = fnat 7040

/-- `LDPARAM` stores the 32 bits as they are in the staging register of its index, and nothing else; a reserved index is an
illegal word; and which words spell it, with which operands (`48_host_control.md` R186). -/
def Obligations.LdparamWritesStaging : Prop :=
  (∀ (w : Word64) (index : BitVec 8) (value : F32), decodeWord w = .ok (.ldparam index value) ↔
    w &&& 0xFFFFFF0000000000#64 = 0x4000000000000000#64 ∧ index.toNat ≤ 11 ∧
      w.extractLsb' 32 8 = index ∧ w.extractLsb' 0 32 = value) ∧
  ∀ (s : State) (index : BitVec 8) (value : F32),
    (12 ≤ index.toNat → exec (.ldparam index value) s = .next { s with diag := s.diag ||| 0b0010#4 }) ∧
    (index.toNat < 12 → ∃ p : Param, p.index = index.toNat ∧ ∃ b : Bank F32,
      exec (.ldparam index value) s = .next { s with staging := b } ∧
      ∀ q, b.get q = if q = p then value else s.staging.get q)

/-- `RENDER` latches all twelve parameters at once, each the clamp of its staged value with −0 kept as 0, and begins the call: `n` and the payload count from the word, `pos` and
`evi` 0, an empty queue, an empty output stream; the staging registers and everything else are kept
(`48_host_control.md` R187, R188, `47_render_scheduler.md` R172, R174). The empty stream is the model's choice
(notes/assumptions/10.md). -/
def Obligations.RenderBegins : Prop :=
  ∀ (s : State) (evCount : BitVec 24) (n : BitVec 32), ∃ b : Bank F64,
    exec (.render evCount n) s =
      .next { s with
        params := b, n := n, pos := 0#32, evi := 0#32, evq := [], out := [], sched := .capture evCount } ∧
    b.cutoffHz = fabs (fclamp (f32bits s.staging.cutoffHz) (fnat 20) (fnat 20000)) ∧
    b.resonance = fabs (fclamp (f32bits s.staging.resonance) f0 f1) ∧
    b.envModDepth = fabs (fclamp (f32bits s.staging.envModDepth) f0 f1) ∧
    b.decay = fabs (fclamp (f32bits s.staging.decay) f0 f1) ∧
    b.accentLevel = fabs (fclamp (f32bits s.staging.accentLevel) f0 f1) ∧
    b.waveformBlend = fabs (fclamp (f32bits s.staging.waveformBlend) f0 f1) ∧
    b.volume = fabs (fclamp (f32bits s.staging.volume) f0 f1) ∧
    b.tauAttackMs = fabs (fclamp (f32bits s.staging.tauAttackMs) f0 (fnat 60000)) ∧
    b.tauAccAttackMs = fabs (fclamp (f32bits s.staging.tauAccAttackMs) f0 (fnat 60000)) ∧
    b.tauAccDecayMs = fabs (fclamp (f32bits s.staging.tauAccDecayMs) f0 (fnat 60000)) ∧
    b.tauVegMs = fabs (fclamp (f32bits s.staging.tauVegMs) f0 (fnat 60000)) ∧
    b.tauSlideMs = fabs (fclamp (f32bits s.staging.tauSlideMs) f0 (fnat 60000)) ∧
    ∀ q, fsign (b.get q) = false

/-- `RESET`, spelled by the one word 0x5000000000000000, zeroes every field of VoiceState and nothing else
(`48_host_control.md` R190). -/
def Obligations.ResetZeroesVoice : Prop :=
  (∀ w : Word64, decodeWord w = .ok .reset ↔ w = 0x5000000000000000#64) ∧
  ∀ s : State, ∃ v : Voice,
    exec .reset s = .next { s with voice := v } ∧
    (∀ r : DReg, v.get r = f0) ∧ v.accentActive = false ∧ v.slideActive = false ∧ v.currentNote = 0#7 ∧
    v.gate = .silent

/-- `RDSTAT` answers the status word of the state before it, bit for bit, and with `clr` then clears `DIAG` and `NFCNT`;
nothing else changes; and which words spell it (`48_host_control.md` R192). -/
def Obligations.RdstatAnswersStatus : Prop :=
  (∀ (w : Word64) (clr : Bool), decodeWord w = .ok (.rdstat clr) ↔
    w &&& 0xFFFFFFFFFFFFFFFE#64 = 0x6000000000000000#64 ∧ w.getLsbD 0 = clr) ∧
  ∀ (s : State) (clr : Bool), ∃ st : BitVec 32,
    exec (.rdstat clr) s =
      .next { s with
        resp := s.resp ++ [st]
        diag := if clr then 0#4 else s.diag
        nfcnt := if clr then 0#8 else s.nfcnt } ∧
    st.getLsbD 0 = decide (s.voice.gate = .sounding) ∧ st.getLsbD 1 = s.voice.accentActive ∧
    st.getLsbD 2 = s.voice.slideActive ∧ st.extractLsb' 3 5 = 0#5 ∧ st.extractLsb' 8 7 = s.voice.currentNote ∧
    st.getLsbD 15 = false ∧ st.extractLsb' 16 4 = s.diag ∧ st.extractLsb' 20 4 = 0#4 ∧ st.extractLsb' 24 8 = s.nfcnt

/-! ### The stages -/

/-- `PSLEW` writes `pitchCurrent` and nothing else (`44_pitch_slew.md` R133; `slewCoeff` by R132 and R112). -/
def Obligations.PslewStep : Prop :=
  ∀ s : State,
    exec .pslew s = .next { s with voice := { s.voice with
      pitchCurrent := fadd s.voice.pitchCurrent
        (fmul (fsub s.voice.pitchTarget s.voice.pitchCurrent) (fsub f1 (coefOf voicing s.params.tauSlideMs))) } }

/-- The coefficient of a time constant: the formula for a constant above 0, and 0 otherwise (`43_envelopes.md` R112). -/
def Obligations.TimeConstantFormula : Prop :=
  ∀ tau : F64,
    (flt f0 tau = true → coefOf voicing tau =
      voicing.exp (fdiv (fneg f1) (fmul (fdiv tau (fnat 1000)) (fnat voicing.sampleRate)))) ∧
    (flt f0 tau = false → coefOf voicing tau = f0)

/-- Every coefficient of a time constant is a finite value in [0,1] (`43_envelopes.md` R112; rests on the limits of
notes/assumptions/4.md and notes/assumptions/5.md). -/
def Obligations.TimeConstantInUnit : Prop := ∀ tau : F64, within f0 f1 (coefOf voicing tau) = true

/-- The polynomial residual (`40_oscillator.md` R82). -/
def Obligations.BlepPieces : Prop :=
  ∀ t dt : F64,
    (flt t dt = true →
      blep t dt = fsub (fsub (fmul (fnat 2) (fdiv t dt)) (fmul (fdiv t dt) (fdiv t dt))) f1) ∧
    (flt t dt = false → flt (fsub f1 dt) t = true →
      blep t dt = fadd (fadd (fmul (fdiv (fsub t f1) dt) (fdiv (fsub t f1) dt))
        (fmul (fnat 2) (fdiv (fsub t f1) dt))) f1) ∧
    (flt t dt = false → flt (fsub f1 dt) t = false → blep t dt = f0)

/-- `OSC` writes the wire `osc`, computed from the old phase, and the advanced phase, and nothing else
(`40_oscillator.md` R80, R81, R83 to R86). -/
def Obligations.OscStep : Prop :=
  ∀ s : State,
    let inc := fclamp (fdiv s.voice.pitchCurrent (fnat voicing.sampleRate)) (fratio false 1 (2 ^ 30)) (fratio false 1 2)
    let p := s.voice.phase
    let saw := fsub (fsub (fmul (fnat 2) p) f1) (blep p inc)
    let sq := fsub (fadd (if flt p (fratio false 1 2) then f1 else fneg f1) (blep p inc))
      (blep (ffrac (fadd p (fratio false 1 2))) inc)
    let wb := s.params.waveformBlend
    exec .osc s = .next { s with
      wires := { s.wires with osc := fadd (fmul (fsub f1 wb) saw) (fmul (fmul wb (fratio false 1 2)) sq) }
      voice := { s.voice with phase := ffrac (fadd p inc) } }

/-- At phase 0 the oscillator answers 0 for every blend, and the phase becomes the increment (`40_oscillator.md` R80, corner
cases). -/
def Obligations.OscZeroAtPhaseZero : Prop :=
  ∀ s t : State, s.voice.phase = f0 → within f0 f1 s.params.waveformBlend = true → exec .osc s = .next t →
    t.wires.osc = f0 ∧
    t.voice.phase =
      fclamp (fdiv s.voice.pitchCurrent (fnat voicing.sampleRate)) (fratio false 1 (2 ^ 30)) (fratio false 1 2)

/-- `ENV`, its statements in order: the integrators from the undecayed `mainEnv`, the modulation and the cutoff from the
integrators just written, `vcaEnv` from the undecayed `ampEnv`, then the two decays; each register write through `envreg`,
which counts what it repairs; nothing else changes (`43_envelopes.md` R110, R113 to R117, R119 to R121). -/
def Obligations.EnvStep : Prop :=
  ∀ s : State,
    let envreg := fun x : F64 => if isFinite x then fclamp x f0 f1 else f0
    let p := s.params
    let v := s.voice
    let x1 := fadd v.rc1 (fmul (fsub v.mainEnv v.rc1) (fsub f1 (coefOf voicing p.tauAttackMs)))
    let x2 := fadd v.rc2 (fmul (fsub (fmul p.accentLevel v.mainEnv) v.rc2) (fsub f1 (coefOf voicing p.tauAccAttackMs)))
    let dts := fadd (flit 2 1) (fmul p.decay (flit 18 1))
    let a : Config.NormArgs := ⟨p.tauAttackMs, p.tauAccAttackMs, p.tauAccDecayMs, dts, voicing.sampleRate⟩
    let acc := if v.accentActive then f1 else f0
    let mod := fmul p.envModDepth (fadd (fmul (voicing.norm1 a) (envreg x1))
      (fmul (fmul (fmul acc p.accentLevel) (voicing.norm2 a)) (envreg x2)))
    let x3 := fmul v.mainEnv (voicing.exp (fdiv (fneg f1) (fmul dts (fnat voicing.sampleRate))))
    let x4 := fmul v.ampEnv (coefOf voicing p.tauVegMs)
    let bad := ([x1, x2, x3, x4].filter fun x => !isFinite x).length
    exec .env s = .next { s with
      voice := { v with rc1 := envreg x1, rc2 := envreg x2, mainEnv := envreg x3, ampEnv := envreg x4 }
      wires := { s.wires with
        instCutoff := fclamp (fmul p.cutoffHz (voicing.pow2 mod)) f0 (fnat 20000)
        vcaEnv := v.ampEnv }
      diag := if bad = 0 then s.diag else s.diag ||| 0b0001#4
      nfcnt := if bad = 0 then s.nfcnt else BitVec.ofNat 8 (min (s.nfcnt.toNat + bad) 255) }

/-- From all four envelope registers 0 they stay exactly 0, the cutoff is the base cutoff and `vcaEnv` is 0
(`43_envelopes.md` R110, corner cases; rests on the limits of notes/assumptions/4.md and notes/assumptions/5.md). -/
def Obligations.EnvSilentCorner : Prop :=
  ∀ s t : State, paramsInRange s.params → s.voice.mainEnv = f0 → s.voice.ampEnv = f0 → s.voice.rc1 = f0 →
    s.voice.rc2 = f0 → exec .env s = .next t →
    t.voice = s.voice ∧ t.wires.instCutoff = s.params.cutoffHz ∧ t.wires.vcaEnv = f0

/-- `ENV` never raises `mainEnv` or `ampEnv` (`43_envelopes.md` R113, R114, R122; rests on the limits of
notes/assumptions/5.md). -/
def Obligations.EnvelopesNeverRise : Prop :=
  ∀ s t : State, paramsInRange s.params → envelopesInUnit s.voice = true → exec .env s = .next t →
    fle t.voice.mainEnv s.voice.mainEnv = true ∧ fle t.voice.ampEnv s.voice.ampEnv = true

/-- `COEF` writes the wires `b0`, `k`, `g` by the printed formulas, and nothing else (`41_coefficients.md` R90 to R95). -/
def Obligations.CoefStep : Prop :=
  ∀ s : State,
    let twoPi' := fmul (fnat 2) (flit 314159265358979323846264338327950288 35)
    let fx := fdiv (fmul (fdiv (fmul twoPi' s.wires.instCutoff) (fnat voicing.sampleRate)) (fdiv f1 (fsqrt (fnat 2)))) twoPi'
    let b0 := fdiv (fadd (flit 45522346 11) (fmul (flit 61922189 7) fx))
      (fadd (fadd f1 (fmul (flit 12358354 6) fx)) (fmul (fmul (flit 44156345 7) fx) fx))
    let k0 := fadd (fmul fx (fadd (fmul fx (fadd (fmul fx (fsub (fmul fx (fsub (fmul fx (fadd fx (flit 71986997 4)))
      (flit 58377917 4))) (flit 47647308 5))) (flit 61495611 5))) (flit 21387126 5))) (flit 16998792 6)
    let rSkew := fdiv (fsub f1 (voicing.exp (fmul (fneg (fnat 3)) s.params.resonance)))
      (fsub f1 (voicing.exp (fneg (fnat 3))))
    let g1 := fdiv k0 (fnat 17)
    let g2 := fadd (fmul (fsub g1 f1) rSkew) f1
    exec .coef s = .next { s with wires := { s.wires with b0 := b0, k := fmul k0 rSkew, g := fmul g2 (fadd f1 rSkew) } }

/-- With resonance 0, and the polynomial value finite, there is no feedback: `k` is 0 and `g` is exactly 1
(`41_coefficients.md` R90, corner cases; rests on the limits of notes/assumptions/5.md). -/
def Obligations.NoResonanceNoFeedback : Prop :=
  ∀ s t : State, s.params.resonance = f0 → isFinite (k0Of (fxOf voicing s.wires.instCutoff)) = true →
    exec .coef s = .next t → fmag t.wires.k = 0 ∧ t.wires.g = f1

/-- `FILT`, its statements in order, each stage reading the new value before it and the old value after it; nothing else
changes (`42_ladder_filter.md` R100 to R104). -/
def Obligations.FiltStep : Prop :=
  ∀ s : State,
    let a1 := fneg (voicing.exp (fdiv (fmul (fneg (fmul (fnat 2) (flit 314159265358979323846264338327950288 35)))
      (fnat 150)) (fnat voicing.sampleRate)))
    let v := s.voice
    let w := s.wires
    let fb := fmul w.k v.y4
    let lp := fsub (fmul (fadd f1 a1) fb) (fmul a1 v.hpz)
    let y0 := fsub w.osc (fsub fb lp)
    let y1 := fadd v.y1 (fmul (fmul (fnat 2) w.b0) (fadd (fsub y0 v.y1) v.y2))
    let y2 := fadd v.y2 (fmul w.b0 (fadd (fsub y1 (fmul (fnat 2) v.y2)) v.y3))
    let y3 := fadd v.y3 (fmul w.b0 (fadd (fsub y2 (fmul (fnat 2) v.y3)) v.y4))
    let y4 := fadd v.y4 (fmul w.b0 (fsub y3 (fmul (fnat 2) v.y4)))
    exec .filt s = .next { s with voice := { v with hpz := lp, y0 := y0, y1 := y1, y2 := y2, y3 := y3, y4 := y4 } }

/-- `SAN` replaces exactly the non-finite ones of the six filter registers by 0 and counts them, saturating at 255; nothing
else changes (`60_exceptions.md` R201). -/
def Obligations.SanStep : Prop :=
  ∀ s : State,
    let fix := fun x : F64 => if isFinite x then x else f0
    let v := s.voice
    let bad := ([v.y0, v.y1, v.y2, v.y3, v.y4, v.hpz].filter fun x => !isFinite x).length
    exec .san s = .next { s with
      voice := { v with
        y0 := fix v.y0, y1 := fix v.y1, y2 := fix v.y2, y3 := fix v.y3, y4 := fix v.y4, hpz := fix v.hpz }
      diag := if bad = 0 then s.diag else s.diag ||| 0b0001#4
      nfcnt := if bad = 0 then s.nfcnt else BitVec.ofNat 8 (min (s.nfcnt.toNat + bad) 255) }

/-- `VCA` stores one sample, `f32(filt · gain)`, at index `pos`: as it is when it is finite, and +0 with `NUMFAULT` and a
count when it is not. No other cell of `OUT` and no other state changes (`46_sample_step.md` R160, R161,
`60_exceptions.md` R204). -/
def Obligations.VcaStep : Prop :=
  ∀ s : State, ∃ m : Memory,
    let acc := if s.voice.accentActive then f1 else f0
    let filt := fmul (fmul (fnat 2) s.wires.g) s.voice.y4
    let gain := fmul (fmul s.params.volume s.wires.vcaEnv)
      (fadd f1 (fmul (fmul acc s.params.accentLevel) voicing.accentVcaGain))
    let x := f32 (fmul filt gain)
    (isFinite32 x = true → exec .vca s = .next { s with out := m }) ∧
    (isFinite32 x = false → exec .vca s = .next { s with
      out := m, diag := s.diag ||| 0b0001#4, nfcnt := BitVec.ofNat 8 (min (s.nfcnt.toNat + 1) 255) }) ∧
    memRead m s.pos.toNat = some (if isFinite32 x then x else 0#32) ∧
    (∀ a, a ≠ s.pos.toNat → memRead m a = memRead s.out a) ∧
    (Memory.wf s.out = true → Memory.wf m = true)

/-- With `vcaEnv` a zero and a finite `filt` the stored sample is a zero, whatever its sign (`46_sample_step.md` R160,
corner cases, and R164; rests on the limits of notes/assumptions/4.md). -/
def Obligations.SilentVcaStoresZero : Prop :=
  ∀ s t : State, paramsInRange s.params → fmag s.wires.vcaEnv = 0 →
    isFinite (fmul (fmul (fnat 2) s.wires.g) s.voice.y4) = true → exec .vca s = .next t →
    ∃ z, memRead t.out s.pos.toNat = some z ∧ mag32 z = 0

/-- No stage reads the gate, `slideActive`, `currentNote`, `DIAG` or `NFCNT`: two states that differ in these only are taken
by a stage to states that differ in these only (`46_sample_step.md` R158). -/
def Obligations.StagesIgnoreBookkeeping : Prop :=
  ∀ (i : Instr) (s1 s2 t1 t2 : State), i.place = .stage → withoutBookkeeping s1 = withoutBookkeeping s2 →
    exec i s1 = .next t1 → exec i s2 = .next t2 → withoutBookkeeping t1 = withoutBookkeeping t2

/-! ### Which operation writes which state -/

/-- The access matrix: an instruction writes only the state that R33 lets it write (`10_state.md` R33). -/
def Obligations.AccessMatrix : Prop :=
  ∀ (i : Instr) (s t : State), exec i s = .next t →
    (∀ r, mayWrite i r = false → readD t r = readD s r) ∧
    (mayWriteFlags i = false → t.voice.accentActive = s.voice.accentActive ∧
      t.voice.slideActive = s.voice.slideActive ∧ t.voice.currentNote = s.voice.currentNote ∧
      t.voice.gate = s.voice.gate) ∧
    ((∀ e n, i ≠ .render e n) → t.params = s.params) ∧
    ((∀ x v, i ≠ .ldparam x v) → t.staging = s.staging) ∧
    (mayWriteDiag i = false → t.diag = s.diag ∧ t.nfcnt = s.nfcnt)

/-- The gate leaves `Sounding` only by the command `RESET` (`45_note_events.md` R140, R147). -/
def Obligations.GateFallsOnlyByReset : Prop :=
  ∀ s t : State, step s = .next t → s.voice.gate = .sounding → t.voice.gate = .silent →
    s.sched = .idle ∧ ∃ w rest, s.port = w :: rest ∧ decodeTop w = .ok .reset

/-- The active parameters change only when a `RENDER` is accepted between calls: never inside a call (`20_memory.md` R51,
`46_sample_step.md` R157, `47_render_scheduler.md` R181). -/
def Obligations.ParametersChangeOnlyAtRender : Prop :=
  ∀ s t : State, step s = .next t → t.params ≠ s.params →
    s.sched = .idle ∧ ∃ w rest e n, s.port = w :: rest ∧ decodeTop w = .ok (.render e n)

/-- A `DIAG` bit, once set, stays set until an `RDSTAT` with `clr`, and `NFCNT` does not fall before one (`10_state.md`
R21). -/
def Obligations.DiagnosticsAreSticky : Prop :=
  ∀ s t : State, step s = .next t →
    (s.diag &&& t.diag = s.diag ∧ s.nfcnt.toNat ≤ t.nfcnt.toNat) ∨
    (s.sched = .idle ∧ ∃ w rest, s.port = w :: rest ∧ decodeTop w = .ok (.rdstat true))

/-- `DIAG` and `NFCNT` never change an output sample or any other state but the status words: two states that differ in
diagnostics only step to states that differ in diagnostics only (`10_state.md` R21). -/
def Obligations.DiagnosticsNeverReachTheSound : Prop :=
  ∀ s1 s2 t1 t2 : State, withoutDiagnostics s1 = withoutDiagnostics s2 →
    step s1 = .next t1 → step s2 = .next t2 → withoutDiagnostics t1 = withoutDiagnostics t2

/-! ### Reset and the invariants -/

/-- Power-on reset: VoiceState 0, the gate `Silent`, `DIAG` and `NFCNT` 0, the five timing constants active and staged, the
other active parameters somewhere in their ranges, and no call in progress (`70_reset_and_hazards.md` R230,
`10_state.md` R31). -/
def Obligations.PowerOnReset : Prop :=
  let s := State.reset
  (∀ r : DReg, readD s r = f0) ∧ s.voice.accentActive = false ∧ s.voice.slideActive = false ∧
  s.voice.currentNote = 0#7 ∧ s.voice.gate = .silent ∧ s.diag = 0#4 ∧ s.nfcnt = 0#8 ∧ s.sched = .idle ∧
  s.params.tauAttackMs = fnat 3 ∧ s.params.tauAccAttackMs = fnat 3 ∧ s.params.tauAccDecayMs = fnat 200 ∧
  s.params.tauVegMs = fnat 3000 ∧ s.params.tauSlideMs = fnat 60 ∧
  s.staging.tauAttackMs = 0x40400000#32 ∧ s.staging.tauAccAttackMs = 0x40400000#32 ∧
  s.staging.tauAccDecayMs = 0x43480000#32 ∧ s.staging.tauVegMs = 0x453B8000#32 ∧
  s.staging.tauSlideMs = 0x42700000#32 ∧ paramsInRange s.params

/-- Every invariant below holds at reset (`10_state.md` R28, R31). -/
def Obligations.InvariantsAtReset : Prop :=
  let s := State.reset
  envelopesInUnit s.voice = true ∧ filterFinite s.voice = true ∧
  (paramsInRange s.params ∧ ∀ q, fsign (s.params.get q) = false) ∧
  (Memory.wf s.out = true ∧ samplesFinite s.out = true) ∧ phaseInUnit s.voice = true ∧ pitchBounded s.voice ∧
  schedulerSound s

/-- The four envelope registers stay in [0,1] (`10_state.md` R28). -/
def Obligations.EnvelopesStayInUnit : Prop :=
  ∀ s t : State, envelopesInUnit s.voice = true → step s = .next t → envelopesInUnit t.voice = true

/-- The filter state is finite everywhere but between `FILT` and `SAN` (`10_state.md` R28, `60_exceptions.md` R221). -/
def Obligations.FilterStaysFinite : Prop :=
  ∀ s t : State, (beforeSanitize s = false → filterFinite s.voice = true) → step s = .next t →
    (beforeSanitize t = false → filterFinite t.voice = true)

/-- An active parameter stays inside its legal range (`10_state.md` R22, `60_exceptions.md` R221), and no run makes one −0
(`48_host_control.md` R187, corner cases). -/
def Obligations.ParametersStayInRange : Prop :=
  ∀ s t : State, step s = .next t →
    (paramsInRange s.params → paramsInRange t.params) ∧
    ((∀ q, fsign (s.params.get q) = false) → ∀ q, fsign (t.params.get q) = false)

/-- `OUT` keeps its canonical form and holds finite samples only (`60_exceptions.md` R204, R221). -/
def Obligations.SamplesStayFinite : Prop :=
  ∀ s t : State, Memory.wf s.out = true ∧ samplesFinite s.out = true → step s = .next t →
    Memory.wf t.out = true ∧ samplesFinite t.out = true

/-- The phase stays in [0,1) (`40_oscillator.md` R85, `10_state.md` R28). -/
def Obligations.PhaseStaysInUnit : Prop :=
  ∀ s t : State, phaseInUnit s.voice = true → step s = .next t → phaseInUnit t.voice = true

/-- `pitchTarget` stays 0 or a note's frequency, and `pitchCurrent` stays finite, not below 0 and not above 2^14 Hz
(`10_state.md` R28, `60_exceptions.md` R203; rests on the limits of notes/assumptions/4.md and notes/assumptions/5.md). -/
def Obligations.PitchStaysBounded : Prop :=
  ∀ s t : State, pitchBounded s.voice → step s = .next t → pitchBounded t.voice

/-- The scheduler's registers stay sound: in a call the queue is legal, bounded and (in the loop) sorted, `evi` and `pos` do
not pass their ends, and exactly the samples 0 to `pos` − 1 are stored (`10_state.md` R24, `47_render_scheduler.md` R174 to
R176). -/
def Obligations.SchedulerStaysSound : Prop :=
  ∀ s t : State, schedulerSound s → step s = .next t → schedulerSound t

/-! ### Whole render calls -/

/-- The re-sort is a permutation, ascending in `sampleOffset`, and stable: the words with one offset keep their payload
order (`47_render_scheduler.md` R171). -/
def Obligations.ResortIsStable : Prop :=
  ∀ q : List Word64,
    (sortEvents q).Perm q ∧
    (sortEvents q).Pairwise (fun a b => (fieldOffset a).toNat ≤ (fieldOffset b).toNat) ∧
    ∀ k : BitVec 32, (sortEvents q).filter (fun w => decide (fieldOffset w = k)) =
      q.filter (fun w => decide (fieldOffset w = k))

/-- A render call makes exactly `n` samples, in index order, whatever its payload and whatever the state it finds
(`47_render_scheduler.md` R174, R181). -/
def Obligations.RenderMakesExactlyN : Prop :=
  ∀ (c : Config.Voicing) (n : BitVec 32) (payload : List Word64) (s : State),
    storedIndices (renderCall c n payload s).out = List.range n.toNat ∧ (renderCall c n payload s).pos = n

/-- The machine's small steps come to the pseudocode of a whole call: from a `RENDER` word and its payload at the port, with
more words behind them, some number of steps ends between commands in the state `renderCall` gives, the words behind
untouched (`47_render_scheduler.md` R172). The whole end state is compared, the registers that are dead after a call and the
wires among it: what these hold then is the model's choice (DESIGN CHOICE, notes/assumptions/13.md), not R172's. -/
def Obligations.StepsComeToTheWholeCall : Prop :=
  ∀ (s : State) (w : Word64) (payload rest : List Word64) (evCount : BitVec 24) (n : BitVec 32),
    s.sched = .idle → s.port = w :: (payload ++ rest) → decodeTop w = .ok (.render evCount n) →
    payload.length = evCount.toNat →
    ∃ k, Host.Core.run Sys2Proof.core k s = .next (renderCall voicing n payload { s with port := rest })

/-- Block boundaries are invisible, for a call with one event: a call of `n` samples with one NoteOn or NoteOff at `t` gives
the samples, the voice, the parameters and the diagnostics of a call of `t` samples followed by a call of `n − t` samples
with the event at 0 (`47_render_scheduler.md` R180). -/
def Obligations.BlockSplitIsInvisible : Prop :=
  ∀ (c : Config.Voicing) (s : State) (op : BitVec 4) (note velocity : BitVec 7) (accent slide : Bool) (t n : BitVec 32),
    op = 1#4 ∨ op = 2#4 → t.toNat < n.toNat →
    let whole := renderCall c n [encodeN op note velocity accent slide t] s
    let first := renderCall c t [] s
    let second := renderCall c (n - t) [encodeN op note velocity accent slide 0#32] first
    samplesOf whole.out = samplesOf first.out ++ samplesOf second.out ∧
    whole.voice = second.voice ∧ whole.params = second.params ∧ whole.diag = second.diag ∧ whole.nfcnt = second.nfcnt

/-- The same for a call with any number of events on both sides of the split: the events before `t` stay in the first call,
those from `t` on (written as the second call has them) stand `t` later in the whole call. The payload fits the queue
and no event is late (`47_render_scheduler.md` R180, R171, R173). -/
def Obligations.BlockSplitAmongEvents : Prop :=
  ∀ (c : Config.Voicing) (s : State) (before after : List Word64) (t n : BitVec 32),
    t.toNat ≤ n.toNat → before.length + after.length ≤ c.evqDepth →
    (∀ w ∈ before, legalEventWord w = true ∧ (fieldOffset w).toNat < t.toNat) →
    (∀ w ∈ after, legalEventWord w = true ∧ (fieldOffset w).toNat < (n - t).toNat) →
    let whole := renderCall c n (before ++ after.map (delayed t)) s
    let first := renderCall c t before s
    let second := renderCall c (n - t) after first
    samplesOf whole.out = samplesOf first.out ++ samplesOf second.out ∧
    whole.voice = second.voice ∧ whole.params = second.params ∧ whole.diag = second.diag ∧ whole.nfcnt = second.nfcnt

/-! ### The arithmetic -/

/-- Rounding to a whole number answers a nearest one, and the even one of two equally near (`00_scope.md` R7). -/
def Obligations.RoundingIsNearestEven : Prop :=
  ∀ n d m : Nat, 0 < d →
    |((nearestEven n d * d : Nat) : Int) - n| ≤ |((m * d : Nat) : Int) - n| ∧
    (2 * |((nearestEven n d * d : Nat) : Int) - n| = d → nearestEven n d % 2 = 0)

/-- A binary32 pattern becomes a binary64 value without rounding, so that rounding it back gives the same pattern
(`48_host_control.md` R187, `30_encoding.md` R65). -/
def Obligations.Binary32IsHeldExactly : Prop :=
  ∀ w : F32, mag32 w ≤ infMag32 → f32 (f32bits w) = w ∧
    (isFinite32 w = true →
      isFinite (f32bits w) = true ∧ fsign (f32bits w) = sign32 w ∧
      (units (f32bits w)).natAbs = magUnits fracBits32 (mag32 w) * 2 ^ 925)
end

