-- ==== Sys2Proof/Laws/Arith.lean ====
section
/-! SUPPORT. The rounding of `ARITH`: it is exact on what a format holds and never reverses an order. Every bound on an
operation of the datapath follows from these two and from the order of patterns being the order of values. -/

namespace Sys2Proof.Laws

open Sys2Proof Sys2Proof.Machine

theorem scale64_eq : scale64 = 2 ^ (1024 + 50) := by
  unfold scale64; rw [← pow_add, ← pow_add, ← pow_add, ← pow_add]

theorem scale3264_eq : scale3264 = 2 ^ (768 + 157) := by
  unfold scale3264; rw [← pow_add, ← pow_add, ← pow_add]

theorem scale64_pos : 0 < scale64 := by rw [scale64_eq]; exact Nat.two_pow_pos _

/-! ### Rounding to a whole number -/

theorem nearestEven_exact (m : Nat) {d : Nat} (hd : 0 < d) : nearestEven (m * d) d = m := by
  have h1 : m * d / d = m := Nat.mul_div_cancel m hd
  have h2 : m * d % d = 0 := Nat.mul_mod_left m d
  simp only [nearestEven, h1, h2]
  rw [if_neg]; omega

theorem nearestEven_bounds (n d : Nat) : n / d ≤ nearestEven n d ∧ nearestEven n d ≤ n / d + 1 := by
  simp only [nearestEven]; split <;> omega

/-- Rounding to a whole number never reverses the order of two quotients. -/
theorem nearestEven_mono {n d n' d' : Nat} (hd : 0 < d) (hd' : 0 < d') (h : n * d' ≤ n' * d) :
    nearestEven n d ≤ nearestEven n' d' := by
  have hq : n / d ≤ n' / d' := by
    rw [Nat.le_div_iff_mul_le hd']
    refine Nat.le_of_mul_le_mul_right (c := d) ?_ hd
    calc n / d * d' * d = n / d * d * d' := by ring
      _ ≤ n * d' := Nat.mul_le_mul_right _ (Nat.div_mul_le_self n d)
      _ ≤ n' * d := h
  rcases Nat.lt_or_eq_of_le hq with hlt | heq
  · have h1 := (nearestEven_bounds n d).2
    have h2 := (nearestEven_bounds n' d').1
    omega
  · have e1 : d * (n / d) + n % d = n := Nat.div_add_mod n d
    have e2 : d' * (n' / d') + n' % d' = n' := Nat.div_add_mod n' d'
    have hr : n % d * d' ≤ n' % d' * d := by
      have : (d * (n / d) + n % d) * d' ≤ (d' * (n' / d') + n' % d') * d := by rw [e1, e2]; exact h
      rw [← heq] at this
      nlinarith [this]
    simp only [nearestEven, ← heq]
    have key : (d < 2 * (n % d) ∨ 2 * (n % d) = d ∧ n / d % 2 = 1) →
        (d' < 2 * (n' % d') ∨ 2 * (n' % d') = d' ∧ n / d % 2 = 1) := by
      rintro (hs | ⟨ht, ho⟩)
      · left
        by_contra hc
        have h3 : d * d' < 2 * (n % d) * d' := Nat.mul_lt_mul_of_pos_right hs hd'
        have h4 : 2 * (n' % d') * d ≤ d' * d := Nat.mul_le_mul_right _ (Nat.le_of_not_lt hc)
        nlinarith
      · have h3 : d' ≤ 2 * (n' % d') := by
          by_contra hc
          have h4 : 2 * (n' % d') * d < d' * d := Nat.mul_lt_mul_of_pos_right (Nat.lt_of_not_le hc) hd
          have h5 : 2 * (n % d) * d' = d * d' := by rw [ht]
          nlinarith
        rcases Nat.lt_or_eq_of_le h3 with h6 | h6
        · exact .inl h6
        · exact .inr ⟨h6.symm, ho⟩
    split
    · next hu => rw [if_pos (key hu)]
    · split <;> omega

/-! ### Rounding into a format -/

theorem lt_pow_excess (frac q : Nat) : q < 2 ^ (excess frac q + frac + 1) := by
  rcases Nat.eq_zero_or_pos q with rfl | hq
  · exact Nat.two_pow_pos _
  · have h : q < 2 ^ (Nat.log2 q + 1) := Nat.lt_log2_self
    refine lt_of_lt_of_le h (Nat.pow_le_pow_right (by norm_num) ?_)
    unfold excess; omega

theorem pow_excess_le {frac q : Nat} (h : 0 < excess frac q) : 2 ^ (excess frac q + frac) ≤ q := by
  have hq : q ≠ 0 := by rintro rfl; simp [excess] at h
  have h1 : 2 ^ Nat.log2 q ≤ q := Nat.log2_self_le hq
  refine le_trans (Nat.pow_le_pow_right (by norm_num) ?_) h1
  unfold excess at h ⊢; omega

theorem excess_mono {frac q q' : Nat} (h : q ≤ q') : excess frac q ≤ excess frac q' := by
  unfold excess
  have : Nat.log2 q ≤ Nat.log2 q' := by
    rcases Nat.eq_zero_or_pos q with rfl | hq
    · simp
    · exact (Nat.le_log2 (by omega)).2 (le_trans (Nat.log2_self_le (by omega)) h)
  omega

/-- The fraction a rounding keeps, before the exponent is put to it. -/
theorem nearestEven_excess_le {frac n d : Nat} (hd : 0 < d) :
    nearestEven n (d * 2 ^ excess frac (n / d)) ≤ 2 ^ (frac + 1) := by
  set k := excess frac (n / d) with hk
  have h1 : n / d < 2 ^ (k + frac + 1) := lt_pow_excess frac (n / d)
  have h2 : n < 2 ^ (k + frac + 1) * d := (Nat.div_lt_iff_lt_mul hd).1 h1
  have h3 : n / (d * 2 ^ k) < 2 ^ (frac + 1) := by
    rw [Nat.div_lt_iff_lt_mul (by positivity)]
    calc n < 2 ^ (k + frac + 1) * d := h2
      _ = 2 ^ (frac + 1) * (d * 2 ^ k) := by ring
  have := (nearestEven_bounds n (d * 2 ^ k)).2
  omega

theorem le_nearestEven_excess {frac n d : Nat} (hd : 0 < d) (hk : 0 < excess frac (n / d)) :
    2 ^ frac ≤ nearestEven n (d * 2 ^ excess frac (n / d)) := by
  set k := excess frac (n / d) with hk'
  have h1 : 2 ^ (k + frac) ≤ n / d := pow_excess_le hk
  have h2 : 2 ^ (k + frac) * d ≤ n := (Nat.le_div_iff_mul_le hd).1 h1
  have h3 : 2 ^ frac ≤ n / (d * 2 ^ k) := by
    rw [Nat.le_div_iff_mul_le (by positivity)]
    calc 2 ^ frac * (d * 2 ^ k) = 2 ^ (k + frac) * d := by ring
      _ ≤ n := h2
  exact le_trans h3 (nearestEven_bounds n (d * 2 ^ k)).1

theorem roundMag_le_inf (frac inf n d : Nat) : roundMag frac inf n d ≤ inf := Nat.min_le_left _ _

/-- Rounding into a format never reverses the order of two values. -/
theorem roundMag_mono {frac inf n d n' d' : Nat} (hd : 0 < d) (hd' : 0 < d') (h : n * d' ≤ n' * d) :
    roundMag frac inf n d ≤ roundMag frac inf n' d' := by
  have hq : n / d ≤ n' / d' := by
    rw [Nat.le_div_iff_mul_le hd']
    refine Nat.le_of_mul_le_mul_right (c := d) ?_ hd
    calc n / d * d' * d = n / d * d * d' := by ring
      _ ≤ n * d' := Nat.mul_le_mul_right _ (Nat.div_mul_le_self n d)
      _ ≤ n' * d := h
  have hk := excess_mono (frac := frac) hq
  simp only [roundMag]
  refine min_le_min le_rfl ?_
  rcases Nat.lt_or_eq_of_le hk with hlt | heq
  · have h1 := nearestEven_excess_le (frac := frac) (n := n) hd
    have h2 := le_nearestEven_excess (frac := frac) (n := n') hd' (by omega)
    have h3 : 2 ^ frac * (excess frac (n / d) + 1) ≤ 2 ^ frac * excess frac (n' / d') :=
      Nat.mul_le_mul_left _ hlt
    have h4 : 2 ^ (frac + 1) = 2 * 2 ^ frac := by ring
    nlinarith
  · rw [heq]
    refine Nat.add_le_add_left (nearestEven_mono (by positivity) (by positivity) ?_) _
    calc n * (d' * 2 ^ excess frac (n' / d')) = n * d' * 2 ^ excess frac (n' / d') := by ring
      _ ≤ n' * d * 2 ^ excess frac (n' / d') := Nat.mul_le_mul_right _ h
      _ = n' * (d * 2 ^ excess frac (n' / d')) := by ring

/-- What a format holds is rounded to itself. -/
theorem roundMag_exact {frac inf mag d : Nat} (hm : mag ≤ inf) (hd : 0 < d) :
    roundMag frac inf (magUnits frac mag * d) d = mag := by
  have hp : 0 < 2 ^ frac := Nat.two_pow_pos frac
  have hdm : 2 ^ frac * (mag / 2 ^ frac) + mag % 2 ^ frac = mag := Nat.div_add_mod mag (2 ^ frac)
  have hlt : mag % 2 ^ frac < 2 ^ frac := Nat.mod_lt _ hp
  simp only [roundMag, Nat.mul_div_cancel _ hd]
  by_cases h0 : mag / 2 ^ frac = 0
  · have hu : magUnits frac mag = mag % 2 ^ frac := by simp [magUnits, h0]
    have hk : excess frac (mag % 2 ^ frac) = 0 := by
      unfold excess
      rcases Nat.eq_zero_or_pos (mag % 2 ^ frac) with hz | hz
      · rw [hz]; simp
      · have := (Nat.log2_lt (by omega : mag % 2 ^ frac ≠ 0)).2 hlt
        omega
    rw [hu, hk, pow_zero, mul_one, nearestEven_exact _ hd, mul_zero, zero_add]
    rw [h0, mul_zero, zero_add] at hdm
    omega
  · obtain ⟨e, he⟩ : ∃ e, mag / 2 ^ frac = e + 1 := Nat.exists_eq_succ_of_ne_zero h0
    have hu : magUnits frac mag = (2 ^ frac + mag % 2 ^ frac) * 2 ^ e := by
      simp [magUnits, he]
    have hlog : Nat.log2 ((2 ^ frac + mag % 2 ^ frac) * 2 ^ e) = frac + e := by
      rw [Nat.log2_eq_iff (by positivity)]
      constructor
      · calc 2 ^ (frac + e) = 2 ^ frac * 2 ^ e := by ring
          _ ≤ _ := Nat.mul_le_mul_right _ (Nat.le_add_right _ _)
      · calc (2 ^ frac + mag % 2 ^ frac) * 2 ^ e < (2 ^ frac + 2 ^ frac) * 2 ^ e :=
            Nat.mul_lt_mul_of_pos_right (by omega) (by positivity)
          _ = 2 ^ (frac + e + 1) := by ring
    have hk : excess frac ((2 ^ frac + mag % 2 ^ frac) * 2 ^ e) = e := by
      unfold excess; omega
    rw [hu, hk]
    have hx : (2 ^ frac + mag % 2 ^ frac) * 2 ^ e * d = (2 ^ frac + mag % 2 ^ frac) * (d * 2 ^ e) := by ring
    rw [hx, nearestEven_exact _ (by positivity)]
    rw [he] at hdm
    have : 2 ^ frac * e + (2 ^ frac + mag % 2 ^ frac) = mag := by
      calc 2 ^ frac * e + (2 ^ frac + mag % 2 ^ frac) = 2 ^ frac * (e + 1) + mag % 2 ^ frac := by ring
        _ = mag := hdm
    rw [this]
    exact min_eq_right hm

/-- A value not above one that the format holds is not rounded above it. -/
theorem roundMag_le {frac inf mag n d : Nat} (hm : mag ≤ inf) (hd : 0 < d)
    (h : n ≤ magUnits frac mag * d) : roundMag frac inf n d ≤ mag := by
  refine le_trans ?_ (le_of_eq (roundMag_exact (frac := frac) hm hd))
  exact roundMag_mono hd hd (Nat.mul_le_mul_right _ h)

/-- A value not below one that the format holds is not rounded below it. -/
theorem le_roundMag {frac inf mag n d : Nat} (hm : mag ≤ inf) (hd : 0 < d)
    (h : magUnits frac mag * d ≤ n) : mag ≤ roundMag frac inf n d := by
  refine le_trans (le_of_eq (roundMag_exact (frac := frac) hm hd).symm) ?_
  exact roundMag_mono hd hd (Nat.mul_le_mul_right _ h)

/-! ### The order of magnitude patterns is the order of values -/

theorem magUnits_le_iff {frac a b : Nat} :
    magUnits frac a ≤ magUnits frac b ↔ a ≤ b := by
  have ha := roundMag_exact (frac := frac) (inf := max a b) (d := 1) (le_max_left a b) Nat.one_pos
  have hb := roundMag_exact (frac := frac) (inf := max a b) (d := 1) (le_max_right a b) Nat.one_pos
  have mono : ∀ {x y : Nat}, x ≤ y →
      roundMag frac (max a b) (x * 1) 1 ≤ roundMag frac (max a b) (y * 1) 1 :=
    fun h => roundMag_mono Nat.one_pos Nat.one_pos (by omega)
  constructor
  · intro h
    have := mono h
    rwa [ha, hb] at this
  · intro h
    by_contra hc
    have h2 := mono (Nat.le_of_lt (Nat.lt_of_not_le hc))
    rw [ha, hb] at h2
    have : a = b := Nat.le_antisymm h h2
    exact hc (by rw [this])

theorem magUnits_zero (frac : Nat) : magUnits frac 0 = 0 := by simp [magUnits]

/-! ### Packing -/

theorem fsign_fpack {neg : Bool} {m : Nat} (h : m < 2 ^ 63) : fsign (fpack neg m) = neg := by
  unfold fsign fpack
  rw [BitVec.getLsbD_ofNat]
  cases neg
  · simp [Nat.testBit_lt_two_pow h]
  · have : Nat.testBit (2 ^ 63 + m) 63 = true := by
      rw [Nat.testBit_two_pow_add_eq, Nat.testBit_lt_two_pow h]; rfl
    simpa using this

theorem fmag_fpack {neg : Bool} {m : Nat} (h : m < 2 ^ 63) : fmag (fpack neg m) = m := by
  unfold fmag fpack
  rw [BitVec.toNat_ofNat]
  cases neg <;> simp <;> omega

/-- A pattern is its sign and its magnitude. -/
theorem fpack_fsign_fmag (x : F64) : fpack (fsign x) (fmag x) = x := by
  have hx : x.toNat < 2 ^ 64 := x.isLt
  have hs : fsign x = decide (2 ^ 63 ≤ x.toNat) := by
    unfold fsign
    rw [BitVec.getLsbD, Nat.testBit_eq_decide_div_mod_eq]
    congr 1
    simp only [eq_iff_iff]
    omega
  apply BitVec.eq_of_toNat_eq
  unfold fpack fmag
  rw [BitVec.toNat_ofNat, hs]
  simp only [decide_eq_true_eq]
  split <;> omega

theorem infMag64_lt : infMag64 < 2 ^ 63 := by unfold infMag64; norm_num

theorem fsign_roundUnits (neg : Bool) (n d : Nat) : fsign (roundUnits neg n d) = neg := by
  unfold roundUnits; exact fsign_fpack (lt_of_le_of_lt (roundMag_le_inf _ _ _ _) infMag64_lt)

theorem fmag_roundUnits (neg : Bool) (n d : Nat) :
    fmag (roundUnits neg n d) = roundMag fracBits64 infMag64 n d := by
  unfold roundUnits; exact fmag_fpack (lt_of_le_of_lt (roundMag_le_inf _ _ _ _) infMag64_lt)

/-- A rounded value is never NaN. -/
theorem isNaN_roundUnits (neg : Bool) (n d : Nat) : isNaN (roundUnits neg n d) = false := by
  simp only [isNaN, fmag_roundUnits, decide_eq_false_iff_not, not_lt]
  exact roundMag_le_inf _ _ _ _

/-! ### The order of patterns -/

theorem isNaN_of_isFinite {x : F64} (h : isFinite x = true) : isNaN x = false := by
  simp only [isFinite, isNaN, decide_eq_true_eq, decide_eq_false_iff_not] at *; omega

theorem isInf_of_isFinite {x : F64} (h : isFinite x = true) : isInf x = false := by
  simp only [isFinite, isInf, decide_eq_true_eq, decide_eq_false_iff_not] at *; omega

/-- The magnitude of the value of a finite pattern. -/
theorem natAbs_units (x : F64) : (units x).natAbs = magUnits fracBits64 (fmag x) := by
  unfold units; split <;> simp

/-- The order of patterns is the order of values. -/
theorem forder_le_iff (x y : F64) : forder x ≤ forder y ↔ units x ≤ units y := by
  have hle := @magUnits_le_iff fracBits64 (fmag x) (fmag y)
  have hge := @magUnits_le_iff fracBits64 (fmag y) (fmag x)
  have hx0 := @magUnits_le_iff fracBits64 (fmag x) 0
  have hy0 := @magUnits_le_iff fracBits64 (fmag y) 0
  rw [magUnits_zero] at hx0 hy0
  unfold forder units
  cases fsign x <;> cases fsign y <;> simp <;> omega

theorem fle_iff {x y : F64} (hx : isFinite x = true) (hy : isFinite y = true) :
    fle x y = true ↔ units x ≤ units y := by
  simp [fle, isNaN_of_isFinite hx, isNaN_of_isFinite hy, forder_le_iff]

theorem flt_iff {x y : F64} (hx : isFinite x = true) (hy : isFinite y = true) :
    flt x y = true ↔ units x < units y := by
  have := forder_le_iff y x
  simp only [flt, isNaN_of_isFinite hx, isNaN_of_isFinite hy, Bool.not_false, Bool.true_and, decide_eq_true_eq]
  omega

/-! ### Clamping -/

/-- A clamp between two finite bounds answers a finite value between them, whatever its operand. -/
theorem fclamp_spec {v lo hi : F64} (hlo : isFinite lo = true) (hhi : isFinite hi = true) (h : fle lo hi = true) :
    isFinite (fclamp v lo hi) = true ∧ fle lo (fclamp v lo hi) = true ∧ fle (fclamp v lo hi) hi = true := by
  have hl := isNaN_of_isFinite hlo
  have hh := isNaN_of_isFinite hhi
  have hrl : fle lo lo = true := by simp [fle, hl]
  have hrh : fle hi hi = true := by simp [fle, hh]
  unfold fclamp
  split
  · exact ⟨hlo, hrl, h⟩
  · next h1 =>
    split
    · exact ⟨hhi, h, hrh⟩
    · next h2 =>
      simp only [Bool.or_eq_true, not_or, Bool.not_eq_true] at h1
      obtain ⟨hn, hlt⟩ := h1
      simp only [flt, hn, hl, Bool.not_false, Bool.true_and, decide_eq_false_iff_not, not_lt] at hlt
      simp only [flt, hn, hh, Bool.not_false, Bool.true_and, decide_eq_true_eq, not_lt] at h2
      have a1 : fle lo v = true := by simp [fle, hn, hl, hlt]
      have a2 : fle v hi = true := by simp [fle, hn, hh, h2]
      refine ⟨?_, a1, a2⟩
      simp only [isFinite, decide_eq_true_eq] at hlo hhi ⊢
      simp only [forder] at hlt h2
      revert hlt h2
      cases fsign lo <;> cases fsign v <;> cases fsign hi <;>
        simp only [Bool.false_eq_true, if_false, if_true] <;> omega

/-- A clamp leaves a value between its bounds alone. -/
theorem fclamp_eq_self {v lo hi : F64} (h1 : fle lo v = true) (h2 : fle v hi = true) : fclamp v lo hi = v := by
  simp only [fle, Bool.and_eq_true, Bool.not_eq_eq_eq_not, Bool.not_true, decide_eq_true_eq] at h1 h2
  unfold fclamp flt
  rw [if_neg, if_neg]
  · simp [h1, h2]
  · simp [h1]

end Sys2Proof.Laws
end

