-- ==== Sys2Proof/Laws/Encoding.lean ====
section
/-! SUPPORT. Each field of an encoded word is read back, so that a proof about decoding never opens the encoder. -/

namespace Sys2Proof.Laws

open Sys2Proof

@[simp] theorem fieldOp_encodeN (op : BitVec 4) (note velocity : BitVec 7) (accent slide : Bool) (off : BitVec 32) :
    fieldOp (encodeN op note velocity accent slide off) = op := by
  refine BitVec.eq_of_getLsbD_eq fun i hi => ?_
  simp only [fieldOp, encodeN, BitVec.getLsbD_extractLsb', BitVec.getLsbD_append]
  interval_cases i <;> simp

@[simp] theorem fieldVelocity_encodeN (op : BitVec 4) (note velocity : BitVec 7) (accent slide : Bool) (off : BitVec 32) :
    fieldVelocity (encodeN op note velocity accent slide off) = velocity := by
  refine BitVec.eq_of_getLsbD_eq fun i hi => ?_
  simp only [fieldVelocity, encodeN, BitVec.getLsbD_extractLsb', BitVec.getLsbD_append]
  interval_cases i <;> simp

@[simp] theorem fieldNote_encodeN (op : BitVec 4) (note velocity : BitVec 7) (accent slide : Bool) (off : BitVec 32) :
    fieldNote (encodeN op note velocity accent slide off) = note := by
  refine BitVec.eq_of_getLsbD_eq fun i hi => ?_
  simp only [fieldNote, encodeN, BitVec.getLsbD_extractLsb', BitVec.getLsbD_append]
  interval_cases i <;> simp

@[simp] theorem fieldOffset_encodeN (op : BitVec 4) (note velocity : BitVec 7) (accent slide : Bool) (off : BitVec 32) :
    fieldOffset (encodeN op note velocity accent slide off) = off := by
  refine BitVec.eq_of_getLsbD_eq fun i hi => ?_
  simp only [fieldOffset, encodeN, BitVec.getLsbD_extractLsb', BitVec.getLsbD_append]
  interval_cases i <;> simp

@[simp] theorem fieldSlide_encodeN (op : BitVec 4) (note velocity : BitVec 7) (accent slide : Bool) (off : BitVec 32) :
    fieldSlide (encodeN op note velocity accent slide off) = slide := by
  simp only [fieldSlide, encodeN, BitVec.getLsbD_append]
  simp

@[simp] theorem fieldAccent_encodeN (op : BitVec 4) (note velocity : BitVec 7) (accent slide : Bool) (off : BitVec 32) :
    fieldAccent (encodeN op note velocity accent slide off) = accent := by
  simp only [fieldAccent, encodeN, BitVec.getLsbD_append]
  simp

@[simp] theorem fieldOp_encodeR (evCount : BitVec 24) (n : BitVec 32) :
    fieldOp (encodeR evCount n) = 3#4 := by
  refine BitVec.eq_of_getLsbD_eq fun i hi => ?_
  simp only [fieldOp, encodeR, BitVec.getLsbD_extractLsb', BitVec.getLsbD_append]
  interval_cases i <;> simp

@[simp] theorem fieldEvCount_encodeR (evCount : BitVec 24) (n : BitVec 32) :
    fieldEvCount (encodeR evCount n) = evCount := by
  refine BitVec.eq_of_getLsbD_eq fun i hi => ?_
  simp only [fieldEvCount, encodeR, BitVec.getLsbD_extractLsb', BitVec.getLsbD_append]
  interval_cases i <;> simp

@[simp] theorem fieldNumSamples_encodeR (evCount : BitVec 24) (n : BitVec 32) :
    fieldNumSamples (encodeR evCount n) = n := by
  refine BitVec.eq_of_getLsbD_eq fun i hi => ?_
  simp only [fieldNumSamples, encodeR, BitVec.getLsbD_extractLsb', BitVec.getLsbD_append]
  interval_cases i <;> simp

@[simp] theorem fieldOp_encodeP (index : BitVec 8) (value : F32) :
    fieldOp (encodeP index value) = 4#4 := by
  refine BitVec.eq_of_getLsbD_eq fun i hi => ?_
  simp only [fieldOp, encodeP, BitVec.getLsbD_extractLsb', BitVec.getLsbD_append]
  interval_cases i <;> simp

@[simp] theorem fieldIndex_encodeP (index : BitVec 8) (value : F32) :
    fieldIndex (encodeP index value) = index := by
  refine BitVec.eq_of_getLsbD_eq fun i hi => ?_
  simp only [fieldIndex, encodeP, BitVec.getLsbD_extractLsb', BitVec.getLsbD_append]
  interval_cases i <;> simp

@[simp] theorem fieldValue_encodeP (index : BitVec 8) (value : F32) :
    fieldValue (encodeP index value) = value := by
  refine BitVec.eq_of_getLsbD_eq fun i hi => ?_
  simp only [fieldValue, encodeP, BitVec.getLsbD_extractLsb', BitVec.getLsbD_append]
  interval_cases i <;> simp

@[simp] theorem fieldClr_encodeZ (op : BitVec 4) (clr : Bool) : fieldClr (encodeZ op clr) = clr := by
  simp only [fieldClr, encodeZ, BitVec.getLsbD_append]
  simp

@[simp] theorem fieldOp_encodeZ (op : BitVec 4) (clr : Bool) :
    fieldOp (encodeZ op clr) = op := by
  refine BitVec.eq_of_getLsbD_eq fun i hi => ?_
  simp only [fieldOp, encodeZ, BitVec.getLsbD_extractLsb', BitVec.getLsbD_append]
  interval_cases i <;> simp

end Sys2Proof.Laws
end

