-- ==== Sys2Proof/Laws/Params.lean ====
section
/-! SUPPORT. What is known of the OPEN constants, and no more: their limits. And the operations of `ARITH` on finite
operands, one equation each. -/

namespace Sys2Proof.Laws

open Sys2Proof Sys2Proof.Machine

/-! ### The operations on finite operands -/

theorem fadd_of_finite {x y : F64} (hx : isFinite x = true) (hy : isFinite y = true) :
    fadd x y = roundInt (fsign x && fsign y) (units x + units y) := by
  unfold fadd
  simp [isNaN_of_isFinite hx, isNaN_of_isFinite hy, isInf_of_isFinite hx, isInf_of_isFinite hy]

theorem fmul_of_finite {x y : F64} (hx : isFinite x = true) (hy : isFinite y = true) :
    fmul x y = roundUnits (fsign x != fsign y) ((units x).natAbs * (units y).natAbs) scale64 := by
  unfold fmul
  simp [isNaN_of_isFinite hx, isNaN_of_isFinite hy, isInf_of_isFinite hx, isInf_of_isFinite hy]

theorem fdiv_of_finite {x y : F64} (hx : isFinite x = true) (hy : isFinite y = true) (h0 : fmag y ≠ 0) :
    fdiv x y = roundUnits (fsign x != fsign y) (scale64 * (units x).natAbs) (units y).natAbs := by
  unfold fdiv
  simp [isNaN_of_isFinite hx, isNaN_of_isFinite hy, isInf_of_isFinite hx, isInf_of_isFinite hy, h0]

/-! ### Limits of the OPEN constants -/

theorem positiveBelow_pos (limit raw : Nat) : 0 < positiveBelow limit raw := by
  unfold positiveBelow; split <;> omega

theorem positiveBelow_lt {limit : Nat} (h : 1 < limit) (raw : Nat) : positiveBelow limit raw < limit := by
  unfold positiveBelow
  split
  · exact h
  · exact Nat.mod_lt _ (by omega)

/-- `EVQ_DEPTH` is 1 to 2^24 − 1 (`92_eei_decisions.md` D24). -/
theorem evqDepth_limits : 0 < voicing.evqDepth ∧ voicing.evqDepth < 2 ^ 24 :=
  ⟨positiveBelow_pos _ _, positiveBelow_lt (by decide) _⟩

/-- `SAMPLE_RATE` is positive (`92_eei_decisions.md` D37) and a finite number of `ARITH`. -/
theorem sampleRate_limits : 0 < voicing.sampleRate ∧ voicing.sampleRate < rateLimit :=
  ⟨positiveBelow_pos _ _, positiveBelow_lt (by decide +kernel) _⟩

/-- The magnitude pattern of 2^1023. -/
def magTop : Nat := 2046 * 2 ^ 52

/-- `SAMPLE_RATE` as a number of `ARITH` is finite, not negative and not 0. -/
theorem rateF_spec : isFinite (rateF voicing) = true ∧ fsign (rateF voicing) = false ∧ fmag (rateF voicing) ≠ 0 := by
  obtain ⟨h1, h2⟩ := sampleRate_limits
  have hm : fmag (rateF voicing) = roundMag fracBits64 infMag64 (scale64 * voicing.sampleRate) 1 := by
    unfold rateF fnat fratio; exact fmag_roundUnits _ _ _
  have htop : magUnits fracBits64 magTop = scale64 * rateLimit := by decide +kernel
  have hle : roundMag fracBits64 infMag64 (scale64 * voicing.sampleRate) 1 ≤ magTop := by
    refine roundMag_le (by decide +kernel) Nat.one_pos ?_
    rw [htop, Nat.mul_one]
    exact Nat.mul_le_mul_left _ (Nat.le_of_lt h2)
  have hge : 1 ≤ roundMag fracBits64 infMag64 (scale64 * voicing.sampleRate) 1 := by
    refine le_roundMag (by decide +kernel) Nat.one_pos ?_
    have : magUnits fracBits64 1 = 1 := by decide +kernel
    rw [this]
    have := Nat.mul_pos scale64_pos h1
    omega
  have hlt : magTop < infMag64 := by decide +kernel
  refine ⟨?_, ?_, ?_⟩
  · simp only [isFinite, hm, decide_eq_true_eq]; omega
  · unfold rateF fnat fratio; exact fsign_roundUnits _ _ _
  · rw [hm]; omega

/-- `fabs` clears the sign and keeps the magnitude. -/
theorem fabs_spec (x : F64) : fsign (fabs x) = false ∧ fmag (fabs x) = fmag x := by
  constructor
  · simp [fsign, fabs]
  · unfold fmag fabs
    rw [BitVec.toNat_and]
    have : (0x7FFFFFFFFFFFFFFF#64).toNat = 2 ^ 63 - 1 := by decide
    rw [this, Nat.and_two_pow_sub_one_eq_mod, Nat.mod_mod]

/-- What `ACCENT_VCA_GAIN`, `NORM1` and `NORM2` are kept to (`92_eei_decisions.md` D10, D19). -/
theorem finiteNonneg_spec (x : F64) : isFinite (finiteNonneg x) = true ∧ fsign (finiteNonneg x) = false := by
  unfold finiteNonneg
  split
  · next h => exact ⟨by simpa [isFinite, (fabs_spec x).2] using h, (fabs_spec x).1⟩
  · exact ⟨by decide +kernel, by decide +kernel⟩

end Sys2Proof.Laws
end

