-- ==== Sys2Proof/Laws/State.lean ====
section
/-! SUPPORT. One lemma for each field of the state after each update, so that no proof unfolds a record update. -/

namespace Sys2Proof.Laws

open Sys2Proof Sys2Proof.Machine

/-! ### Named registers -/

/-- Reading a data register after writing one. -/
@[simp] theorem get_set (v : Voice) (r q : DReg) (x : F64) :
    (v.set r x).get q = if q = r then x else v.get q := by
  cases r <;> cases q <;> rfl

@[simp] theorem set_accentActive (v : Voice) (r : DReg) (x : F64) : (v.set r x).accentActive = v.accentActive := by
  cases r <;> rfl

@[simp] theorem set_slideActive (v : Voice) (r : DReg) (x : F64) : (v.set r x).slideActive = v.slideActive := by
  cases r <;> rfl

@[simp] theorem set_currentNote (v : Voice) (r : DReg) (x : F64) : (v.set r x).currentNote = v.currentNote := by
  cases r <;> rfl

@[simp] theorem set_gate (v : Voice) (r : DReg) (x : F64) : (v.set r x).gate = v.gate := by
  cases r <;> rfl

theorem voice_phase (v : Voice) : v.phase = v.get .phase := rfl

theorem voice_y0 (v : Voice) : v.y0 = v.get .y0 := rfl

theorem voice_y1 (v : Voice) : v.y1 = v.get .y1 := rfl

theorem voice_y2 (v : Voice) : v.y2 = v.get .y2 := rfl

theorem voice_y3 (v : Voice) : v.y3 = v.get .y3 := rfl

theorem voice_y4 (v : Voice) : v.y4 = v.get .y4 := rfl

theorem voice_hpz (v : Voice) : v.hpz = v.get .hpz := rfl

theorem voice_mainEnv (v : Voice) : v.mainEnv = v.get .mainEnv := rfl

theorem voice_ampEnv (v : Voice) : v.ampEnv = v.get .ampEnv := rfl

theorem voice_rc1 (v : Voice) : v.rc1 = v.get .rc1 := rfl

theorem voice_rc2 (v : Voice) : v.rc2 = v.get .rc2 := rfl

theorem voice_pitchCurrent (v : Voice) : v.pitchCurrent = v.get .pitchCurrent := rfl

theorem voice_pitchTarget (v : Voice) : v.pitchTarget = v.get .pitchTarget := rfl

/-- Reading a parameter of a bank after writing one. -/
@[simp] theorem bank_get_set {α : Type} (b : Bank α) (p q : Param) (x : α) :
    (b.set p x).get q = if q = p then x else b.get q := by
  cases p <;> cases q <;> rfl

/-- Reading a parameter of a bank made from a function. -/
@[simp] theorem bankOf_get {α : Type} (f : Param → α) (p : Param) : (bankOf f).get p = f p := by
  cases p <;> rfl

/-- A bank is what its registers are. -/
theorem bank_ext {α : Type} {a b : Bank α} (h : ∀ p, a.get p = b.get p) : a = b := by
  cases a; cases b
  simp only [Bank.mk.injEq]
  exact ⟨h .cutoffHz, h .resonance, h .envModDepth, h .decay, h .accentLevel, h .waveformBlend, h .volume,
    h .tauAttackMs, h .tauAccAttackMs, h .tauAccDecayMs, h .tauVegMs, h .tauSlideMs⟩

@[simp] theorem paramAt_index (p : Param) : paramAt p.index = some p := by cases p <;> rfl

/-- The index of a parameter, and nothing else, names it. -/
theorem paramAt_eq_some {k : Nat} {p : Param} : paramAt k = some p ↔ k = p.index := by
  constructor
  · intro h
    unfold paramAt at h
    split at h <;> first | (cases h; rfl) | (cases h)
  · rintro rfl; exact paramAt_index p

/-- Exactly the indices below 12 name a parameter. -/
theorem paramAt_isSome {k : Nat} : (paramAt k).isSome = true ↔ k < 12 := by
  unfold paramAt
  split <;> simp_all
  omega

/-! ### Fields after an update -/

@[simp] theorem writeD_voice (s : State) (r : DReg) (x : F64) : (writeD s r x).voice = s.voice.set r x := rfl

@[simp] theorem writeD_params (s : State) (r : DReg) (x : F64) : (writeD s r x).params = s.params := rfl

@[simp] theorem writeD_staging (s : State) (r : DReg) (x : F64) : (writeD s r x).staging = s.staging := rfl

@[simp] theorem writeD_diag (s : State) (r : DReg) (x : F64) : (writeD s r x).diag = s.diag := rfl

@[simp] theorem writeD_nfcnt (s : State) (r : DReg) (x : F64) : (writeD s r x).nfcnt = s.nfcnt := rfl

@[simp] theorem writeD_sched (s : State) (r : DReg) (x : F64) : (writeD s r x).sched = s.sched := rfl

@[simp] theorem writeD_n (s : State) (r : DReg) (x : F64) : (writeD s r x).n = s.n := rfl

@[simp] theorem writeD_pos (s : State) (r : DReg) (x : F64) : (writeD s r x).pos = s.pos := rfl

@[simp] theorem writeD_evi (s : State) (r : DReg) (x : F64) : (writeD s r x).evi = s.evi := rfl

@[simp] theorem writeD_evq (s : State) (r : DReg) (x : F64) : (writeD s r x).evq = s.evq := rfl

@[simp] theorem writeD_wires (s : State) (r : DReg) (x : F64) : (writeD s r x).wires = s.wires := rfl

@[simp] theorem writeD_out (s : State) (r : DReg) (x : F64) : (writeD s r x).out = s.out := rfl

@[simp] theorem writeD_resp (s : State) (r : DReg) (x : F64) : (writeD s r x).resp = s.resp := rfl

@[simp] theorem writeD_port (s : State) (r : DReg) (x : F64) : (writeD s r x).port = s.port := rfl

@[simp] theorem raiseCond_voice (k : Condition) (s : State) : (raiseCond k s).voice = s.voice := rfl

@[simp] theorem raiseCond_params (k : Condition) (s : State) : (raiseCond k s).params = s.params := rfl

@[simp] theorem raiseCond_staging (k : Condition) (s : State) : (raiseCond k s).staging = s.staging := rfl

@[simp] theorem raiseCond_diag (k : Condition) (s : State) : (raiseCond k s).diag = s.diag ||| diagMask k := rfl

@[simp] theorem raiseCond_nfcnt (k : Condition) (s : State) : (raiseCond k s).nfcnt = countAfter k s.nfcnt := rfl

@[simp] theorem raiseCond_sched (k : Condition) (s : State) : (raiseCond k s).sched = s.sched := rfl

@[simp] theorem raiseCond_n (k : Condition) (s : State) : (raiseCond k s).n = s.n := rfl

@[simp] theorem raiseCond_pos (k : Condition) (s : State) : (raiseCond k s).pos = s.pos := rfl

@[simp] theorem raiseCond_evi (k : Condition) (s : State) : (raiseCond k s).evi = s.evi := rfl

@[simp] theorem raiseCond_evq (k : Condition) (s : State) : (raiseCond k s).evq = s.evq := rfl

@[simp] theorem raiseCond_wires (k : Condition) (s : State) : (raiseCond k s).wires = s.wires := rfl

@[simp] theorem raiseCond_out (k : Condition) (s : State) : (raiseCond k s).out = s.out := rfl

@[simp] theorem raiseCond_resp (k : Condition) (s : State) : (raiseCond k s).resp = s.resp := rfl

@[simp] theorem raiseCond_port (k : Condition) (s : State) : (raiseCond k s).port = s.port := rfl

@[simp] theorem latch_voice (s : State) : (latch s).voice = s.voice := rfl

@[simp] theorem latch_params (s : State) : (latch s).params = bankOf fun p => latched p (s.staging.get p) := rfl

@[simp] theorem latch_staging (s : State) : (latch s).staging = s.staging := rfl

@[simp] theorem latch_diag (s : State) : (latch s).diag = s.diag := rfl

@[simp] theorem latch_nfcnt (s : State) : (latch s).nfcnt = s.nfcnt := rfl

@[simp] theorem latch_sched (s : State) : (latch s).sched = s.sched := rfl

@[simp] theorem latch_n (s : State) : (latch s).n = s.n := rfl

@[simp] theorem latch_pos (s : State) : (latch s).pos = s.pos := rfl

@[simp] theorem latch_evi (s : State) : (latch s).evi = s.evi := rfl

@[simp] theorem latch_evq (s : State) : (latch s).evq = s.evq := rfl

@[simp] theorem latch_wires (s : State) : (latch s).wires = s.wires := rfl

@[simp] theorem latch_out (s : State) : (latch s).out = s.out := rfl

@[simp] theorem latch_resp (s : State) : (latch s).resp = s.resp := rfl

@[simp] theorem latch_port (s : State) : (latch s).port = s.port := rfl

@[simp] theorem clearDiag_voice (s : State) : (clearDiag s).voice = s.voice := rfl

@[simp] theorem clearDiag_params (s : State) : (clearDiag s).params = s.params := rfl

@[simp] theorem clearDiag_staging (s : State) : (clearDiag s).staging = s.staging := rfl

@[simp] theorem clearDiag_diag (s : State) : (clearDiag s).diag = 0#4 := rfl

@[simp] theorem clearDiag_nfcnt (s : State) : (clearDiag s).nfcnt = 0#8 := rfl

@[simp] theorem clearDiag_sched (s : State) : (clearDiag s).sched = s.sched := rfl

@[simp] theorem clearDiag_n (s : State) : (clearDiag s).n = s.n := rfl

@[simp] theorem clearDiag_pos (s : State) : (clearDiag s).pos = s.pos := rfl

@[simp] theorem clearDiag_evi (s : State) : (clearDiag s).evi = s.evi := rfl

@[simp] theorem clearDiag_evq (s : State) : (clearDiag s).evq = s.evq := rfl

@[simp] theorem clearDiag_wires (s : State) : (clearDiag s).wires = s.wires := rfl

@[simp] theorem clearDiag_out (s : State) : (clearDiag s).out = s.out := rfl

@[simp] theorem clearDiag_resp (s : State) : (clearDiag s).resp = s.resp := rfl

@[simp] theorem clearDiag_port (s : State) : (clearDiag s).port = s.port := rfl

@[simp] theorem respond_voice (st : BitVec 32) (s : State) : (respond st s).voice = s.voice := rfl

@[simp] theorem respond_params (st : BitVec 32) (s : State) : (respond st s).params = s.params := rfl

@[simp] theorem respond_staging (st : BitVec 32) (s : State) : (respond st s).staging = s.staging := rfl

@[simp] theorem respond_diag (st : BitVec 32) (s : State) : (respond st s).diag = s.diag := rfl

@[simp] theorem respond_nfcnt (st : BitVec 32) (s : State) : (respond st s).nfcnt = s.nfcnt := rfl

@[simp] theorem respond_sched (st : BitVec 32) (s : State) : (respond st s).sched = s.sched := rfl

@[simp] theorem respond_n (st : BitVec 32) (s : State) : (respond st s).n = s.n := rfl

@[simp] theorem respond_pos (st : BitVec 32) (s : State) : (respond st s).pos = s.pos := rfl

@[simp] theorem respond_evi (st : BitVec 32) (s : State) : (respond st s).evi = s.evi := rfl

@[simp] theorem respond_evq (st : BitVec 32) (s : State) : (respond st s).evq = s.evq := rfl

@[simp] theorem respond_wires (st : BitVec 32) (s : State) : (respond st s).wires = s.wires := rfl

@[simp] theorem respond_out (st : BitVec 32) (s : State) : (respond st s).out = s.out := rfl

@[simp] theorem respond_resp (st : BitVec 32) (s : State) : (respond st s).resp = s.resp ++ [st] := rfl

@[simp] theorem respond_port (st : BitVec 32) (s : State) : (respond st s).port = s.port := rfl

@[simp] theorem startRender_voice (e : BitVec 24) (k : BitVec 32) (s : State) :
    (startRender e k s).voice = s.voice := rfl

@[simp] theorem startRender_params (e : BitVec 24) (k : BitVec 32) (s : State) :
    (startRender e k s).params = bankOf fun p => latched p (s.staging.get p) := rfl

@[simp] theorem startRender_staging (e : BitVec 24) (k : BitVec 32) (s : State) :
    (startRender e k s).staging = s.staging := rfl

@[simp] theorem startRender_diag (e : BitVec 24) (k : BitVec 32) (s : State) : (startRender e k s).diag = s.diag := rfl

@[simp] theorem startRender_nfcnt (e : BitVec 24) (k : BitVec 32) (s : State) :
    (startRender e k s).nfcnt = s.nfcnt := rfl

@[simp] theorem startRender_sched (e : BitVec 24) (k : BitVec 32) (s : State) :
    (startRender e k s).sched = .capture e := rfl

@[simp] theorem startRender_n (e : BitVec 24) (k : BitVec 32) (s : State) : (startRender e k s).n = k := rfl

@[simp] theorem startRender_pos (e : BitVec 24) (k : BitVec 32) (s : State) : (startRender e k s).pos = 0#32 := rfl

@[simp] theorem startRender_evi (e : BitVec 24) (k : BitVec 32) (s : State) : (startRender e k s).evi = 0#32 := rfl

@[simp] theorem startRender_evq (e : BitVec 24) (k : BitVec 32) (s : State) : (startRender e k s).evq = [] := rfl

@[simp] theorem startRender_wires (e : BitVec 24) (k : BitVec 32) (s : State) :
    (startRender e k s).wires = s.wires := rfl

@[simp] theorem startRender_out (e : BitVec 24) (k : BitVec 32) (s : State) : (startRender e k s).out = [] := rfl

@[simp] theorem startRender_resp (e : BitVec 24) (k : BitVec 32) (s : State) : (startRender e k s).resp = s.resp := rfl

@[simp] theorem startRender_port (e : BitVec 24) (k : BitVec 32) (s : State) : (startRender e k s).port = s.port := rfl

@[simp] theorem setEnvWires_voice (c : Config.Voicing) (s : State) : (setEnvWires c s).voice = s.voice := rfl

@[simp] theorem setEnvWires_params (c : Config.Voicing) (s : State) : (setEnvWires c s).params = s.params := rfl

@[simp] theorem setEnvWires_staging (c : Config.Voicing) (s : State) : (setEnvWires c s).staging = s.staging := rfl

@[simp] theorem setEnvWires_diag (c : Config.Voicing) (s : State) : (setEnvWires c s).diag = s.diag := rfl

@[simp] theorem setEnvWires_nfcnt (c : Config.Voicing) (s : State) : (setEnvWires c s).nfcnt = s.nfcnt := rfl

@[simp] theorem setEnvWires_sched (c : Config.Voicing) (s : State) : (setEnvWires c s).sched = s.sched := rfl

@[simp] theorem setEnvWires_n (c : Config.Voicing) (s : State) : (setEnvWires c s).n = s.n := rfl

@[simp] theorem setEnvWires_pos (c : Config.Voicing) (s : State) : (setEnvWires c s).pos = s.pos := rfl

@[simp] theorem setEnvWires_evi (c : Config.Voicing) (s : State) : (setEnvWires c s).evi = s.evi := rfl

@[simp] theorem setEnvWires_evq (c : Config.Voicing) (s : State) : (setEnvWires c s).evq = s.evq := rfl

@[simp] theorem setEnvWires_wires (c : Config.Voicing) (s : State) :
    (setEnvWires c s).wires = { s.wires with instCutoff := cutoffOf c s, vcaEnv := readD s .ampEnv } := rfl

@[simp] theorem setEnvWires_out (c : Config.Voicing) (s : State) : (setEnvWires c s).out = s.out := rfl

@[simp] theorem setEnvWires_resp (c : Config.Voicing) (s : State) : (setEnvWires c s).resp = s.resp := rfl

@[simp] theorem setEnvWires_port (c : Config.Voicing) (s : State) : (setEnvWires c s).port = s.port := rfl

@[simp] theorem afterStage_voice (st : Stage) (s : State) : (afterStage st s).voice = s.voice := rfl

@[simp] theorem afterStage_params (st : Stage) (s : State) : (afterStage st s).params = s.params := rfl

@[simp] theorem afterStage_staging (st : Stage) (s : State) : (afterStage st s).staging = s.staging := rfl

@[simp] theorem afterStage_diag (st : Stage) (s : State) : (afterStage st s).diag = s.diag := rfl

@[simp] theorem afterStage_nfcnt (st : Stage) (s : State) : (afterStage st s).nfcnt = s.nfcnt := rfl

@[simp] theorem afterStage_sched (st : Stage) (s : State) : (afterStage st s).sched = .loop st.next := rfl

@[simp] theorem afterStage_n (st : Stage) (s : State) : (afterStage st s).n = s.n := rfl

@[simp] theorem afterStage_pos (st : Stage) (s : State) : (afterStage st s).pos = st.posAfter s.pos := rfl

@[simp] theorem afterStage_evi (st : Stage) (s : State) : (afterStage st s).evi = s.evi := rfl

@[simp] theorem afterStage_evq (st : Stage) (s : State) : (afterStage st s).evq = s.evq := rfl

@[simp] theorem afterStage_wires (st : Stage) (s : State) : (afterStage st s).wires = s.wires := rfl

@[simp] theorem afterStage_out (st : Stage) (s : State) : (afterStage st s).out = s.out := rfl

@[simp] theorem afterStage_resp (st : Stage) (s : State) : (afterStage st s).resp = s.resp := rfl

@[simp] theorem afterStage_port (st : Stage) (s : State) : (afterStage st s).port = s.port := rfl

@[simp] theorem nextEvent_voice (s : State) : (nextEvent s).voice = s.voice := rfl

@[simp] theorem nextEvent_params (s : State) : (nextEvent s).params = s.params := rfl

@[simp] theorem nextEvent_staging (s : State) : (nextEvent s).staging = s.staging := rfl

@[simp] theorem nextEvent_diag (s : State) : (nextEvent s).diag = s.diag := rfl

@[simp] theorem nextEvent_nfcnt (s : State) : (nextEvent s).nfcnt = s.nfcnt := rfl

@[simp] theorem nextEvent_sched (s : State) : (nextEvent s).sched = s.sched := rfl

@[simp] theorem nextEvent_n (s : State) : (nextEvent s).n = s.n := rfl

@[simp] theorem nextEvent_pos (s : State) : (nextEvent s).pos = s.pos := rfl

@[simp] theorem nextEvent_evi (s : State) : (nextEvent s).evi = s.evi + 1#32 := rfl

@[simp] theorem nextEvent_evq (s : State) : (nextEvent s).evq = s.evq := rfl

@[simp] theorem nextEvent_wires (s : State) : (nextEvent s).wires = s.wires := rfl

@[simp] theorem nextEvent_out (s : State) : (nextEvent s).out = s.out := rfl

@[simp] theorem nextEvent_resp (s : State) : (nextEvent s).resp = s.resp := rfl

@[simp] theorem nextEvent_port (s : State) : (nextEvent s).port = s.port := rfl

@[simp] theorem startLoop_voice (s : State) : (startLoop s).voice = s.voice := rfl

@[simp] theorem startLoop_params (s : State) : (startLoop s).params = s.params := rfl

@[simp] theorem startLoop_staging (s : State) : (startLoop s).staging = s.staging := rfl

@[simp] theorem startLoop_diag (s : State) : (startLoop s).diag = s.diag := rfl

@[simp] theorem startLoop_nfcnt (s : State) : (startLoop s).nfcnt = s.nfcnt := rfl

@[simp] theorem startLoop_sched (s : State) : (startLoop s).sched = .loop .pslew := rfl

@[simp] theorem startLoop_n (s : State) : (startLoop s).n = s.n := rfl

@[simp] theorem startLoop_pos (s : State) : (startLoop s).pos = 0#32 := rfl

@[simp] theorem startLoop_evi (s : State) : (startLoop s).evi = 0#32 := rfl

@[simp] theorem startLoop_evq (s : State) : (startLoop s).evq = sortEvents s.evq := rfl

@[simp] theorem startLoop_wires (s : State) : (startLoop s).wires = s.wires := rfl

@[simp] theorem startLoop_out (s : State) : (startLoop s).out = s.out := rfl

@[simp] theorem startLoop_resp (s : State) : (startLoop s).resp = s.resp := rfl

@[simp] theorem startLoop_port (s : State) : (startLoop s).port = s.port := rfl

@[simp] theorem endCall_voice (s : State) : (endCall s).voice = s.voice := rfl

@[simp] theorem endCall_params (s : State) : (endCall s).params = s.params := rfl

@[simp] theorem endCall_staging (s : State) : (endCall s).staging = s.staging := rfl

@[simp] theorem endCall_diag (s : State) : (endCall s).diag = s.diag := rfl

@[simp] theorem endCall_nfcnt (s : State) : (endCall s).nfcnt = s.nfcnt := rfl

@[simp] theorem endCall_sched (s : State) : (endCall s).sched = .idle := rfl

@[simp] theorem endCall_n (s : State) : (endCall s).n = s.n := rfl

@[simp] theorem endCall_pos (s : State) : (endCall s).pos = s.pos := rfl

@[simp] theorem endCall_evi (s : State) : (endCall s).evi = s.evi := rfl

@[simp] theorem endCall_evq (s : State) : (endCall s).evq = [] := rfl

@[simp] theorem endCall_wires (s : State) : (endCall s).wires = s.wires := rfl

@[simp] theorem endCall_out (s : State) : (endCall s).out = s.out := rfl

@[simp] theorem endCall_resp (s : State) : (endCall s).resp = s.resp := rfl

@[simp] theorem endCall_port (s : State) : (endCall s).port = s.port := rfl

end Sys2Proof.Laws
end

