-- ==== Sys2Proof/Laws/Ops.lean ====
section
/-! SUPPORT. What each shared operation can do, said once: the cells of `OUT`, the writes with a repair, the staging write,
the capture of a payload word, and the state a stage leaves alone. -/

namespace Sys2Proof.Laws

open Sys2Proof Sys2Proof.Machine

/-! ### The cells of `OUT` -/

/-- A sample written is read back. -/
@[simp] theorem memRead_memWrite_same (m : Memory) (a : Nat) (v : F32) : memRead (memWrite m a v) a = some v := by
  induction m with
  | nil => simp [memWrite, memRead]
  | cons c m ih =>
    obtain ⟨b, w⟩ := c
    simp only [memWrite]
    split
    · simp [memRead]
    · split
      · simp [memRead]
      · next h => simp [memRead, h, ih]

/-- A write leaves every other index alone. -/
theorem memRead_memWrite_ne (m : Memory) {a b : Nat} (v : F32) (h : b ≠ a) :
    memRead (memWrite m a v) b = memRead m b := by
  induction m with
  | nil => simp [memWrite, memRead, h]
  | cons c m ih =>
    obtain ⟨k, w⟩ := c
    simp only [memWrite]
    split
    · simp [memRead, h]
    · split
      · next hk => subst hk; simp [memRead, h]
      · simp [memRead, ih]

/-- The first index of a list of cells, if any, is above a bound. -/
def startsAbove (k : Nat) : Memory → Prop
  | [] => True
  | (b, _) :: _ => k < b

theorem wf_cons (a : Nat) (v : F32) (m : Memory) :
    Memory.wf ((a, v) :: m) = true ↔ startsAbove a m ∧ Memory.wf m = true := by
  cases m with
  | nil => simp [Memory.wf, startsAbove]
  | cons c m => obtain ⟨b, w⟩ := c; simp [Memory.wf, startsAbove]

theorem startsAbove_memWrite {k a : Nat} (v : F32) {m : Memory} (h : startsAbove k m) (ha : k < a) :
    startsAbove k (memWrite m a v) := by
  cases m with
  | nil => exact ha
  | cons c m =>
    obtain ⟨b, w⟩ := c
    simp only [memWrite]
    split
    · exact ha
    · split
      · exact ha
      · exact h

/-- Every write keeps the canonical form. -/
theorem wf_memWrite (m : Memory) (a : Nat) (v : F32) (h : Memory.wf m = true) :
    Memory.wf (memWrite m a v) = true := by
  induction m with
  | nil => rfl
  | cons c m ih =>
    obtain ⟨b, w⟩ := c
    have hc := (wf_cons b w m).1 h
    simp only [memWrite]
    split
    · next hlt => exact (wf_cons _ _ _).2 ⟨hlt, h⟩
    · split
      · next heq => subst heq; exact (wf_cons _ _ _).2 hc
      · next h1 h2 => exact (wf_cons _ _ _).2 ⟨startsAbove_memWrite v hc.1 (by omega), ih hc.2⟩

/-- The state after reset has its memory in the canonical form. -/
theorem wf_reset : Memory.wf State.reset.out = true := rfl

/-- A write past every stored index puts its cell at the end. -/
theorem memWrite_append {m : Memory} {a : Nat} (v : F32) (h : ∀ k ∈ m.map Prod.fst, k < a) :
    memWrite m a v = m ++ [(a, v)] := by
  induction m with
  | nil => rfl
  | cons c m ih =>
    obtain ⟨b, w⟩ := c
    have hb : b < a := h b (by simp)
    have hm : ∀ k ∈ m.map Prod.fst, k < a := fun k hk => h k (by simp at hk ⊢; exact .inr hk)
    simp only [memWrite]
    rw [if_neg (by omega), if_neg (by omega), ih hm]
    rfl

/-- What holds of every cell and of the cell written holds of every cell after. -/
theorem all_memWrite {p : Nat × F32 → Bool} {m : Memory} {a : Nat} {v : F32} (h : m.all p = true)
    (hv : p (a, v) = true) : (memWrite m a v).all p = true := by
  induction m with
  | nil => simp [memWrite, hv]
  | cons c m ih =>
    obtain ⟨b, w⟩ := c
    simp only [List.all_cons, Bool.and_eq_true] at h
    simp only [memWrite]
    split
    · simp [hv, h.1, h.2]
    · split
      · simp [hv, h.2]
      · simp [h.1, ih h.2]

/-! ### Writes with a repair -/

/-- What `envreg` makes of a value (`43_envelopes.md` R119). -/
def envreg (x : F64) : F64 := if isFinite x then fclamp01 x else f0

/-- `DIAG` after a write that is repaired when `ok` fails. -/
def diagUnless (ok : Bool) (d : BitVec 4) : BitVec 4 := if ok then d else d ||| 0b0001#4

/-- `NFCNT` after a write that is repaired when `ok` fails. -/
def countUnless (ok : Bool) (k : BitVec 8) : BitVec 8 := if ok then k else sat8Succ k

/-- Everything a write to an envelope register does. -/
theorem writeEnv_eq (r : DReg) (x : F64) (s : State) :
    writeEnv r x s =
      { s with
        voice := s.voice.set r (envreg x)
        diag := diagUnless (isFinite x) s.diag
        nfcnt := countUnless (isFinite x) s.nfcnt } := by
  unfold writeEnv envreg diagUnless countUnless
  cases isFinite x <;> rfl

/-- Everything one turn of `SAN` does. -/
theorem sanitizeReg_eq (s : State) (r : DReg) :
    sanitizeReg s r =
      { s with
        voice := s.voice.set r (if isFinite (s.voice.get r) then s.voice.get r else f0)
        diag := diagUnless (isFinite (s.voice.get r)) s.diag
        nfcnt := countUnless (isFinite (s.voice.get r)) s.nfcnt } := by
  have hid : s.voice.set r (s.voice.get r) = s.voice := by cases r <;> rfl
  unfold sanitizeReg diagUnless countUnless readD
  cases isFinite (s.voice.get r)
  · rfl
  · simp [hid]

/-- Everything the sample store does. -/
theorem storeSample_eq (x : F32) (s : State) :
    storeSample x s =
      { s with
        out := memWrite s.out s.pos.toNat (if isFinite32 x then x else 0#32)
        diag := diagUnless (isFinite32 x) s.diag
        nfcnt := countUnless (isFinite32 x) s.nfcnt } := by
  unfold storeSample diagUnless countUnless
  cases isFinite32 x <;> rfl

/-- A staging write to an index that names a parameter. -/
theorem writeStaging_some {k : Nat} {p : Param} (h : paramAt k = some p) (v : F32) (s : State) :
    writeStaging k v s = { s with staging := s.staging.set p v } := by
  simp [writeStaging, h]

/-- A staging write to a reserved index. -/
theorem writeStaging_none {k : Nat} (h : 12 ≤ k) (v : F32) (s : State) :
    writeStaging k v s = raiseCond .illegalWord s := by
  have : paramAt k = none := by
    cases hp : paramAt k with
    | none => rfl
    | some p => exact absurd (paramAt_isSome.1 (by rw [hp]; rfl)) (by omega)
  simp [writeStaging, this]

/-- Clearing the sign of a value not below 0 moves it nowhere in the order. -/
theorem forder_fabs {lo x : F64} (hs : fsign lo = false) (h : fle lo x = true) : forder (fabs x) = forder x := by
  simp only [fle, Bool.and_eq_true, decide_eq_true_eq] at h
  have h2 := h.2
  simp only [forder, hs, fabs_spec] at h2 ⊢
  revert h2
  cases fsign x
  · simp
  · simp; omega

/-- The bounds of a parameter are finite, in order, and not negative. -/
theorem paramBounds_spec (p : Param) :
    isFinite (paramLo p) = true ∧ isFinite (paramHi p) = true ∧ fle (paramLo p) (paramHi p) = true ∧
      fsign (paramLo p) = false := by
  cases p <;> decide +kernel

/-- Everything a latched value is: finite, inside its range, of the value the clamp gives, and never −0. -/
theorem latched_spec (p : Param) (w : F32) :
    isFinite (latched p w) = true ∧ fle (paramLo p) (latched p w) = true ∧ fle (latched p w) (paramHi p) = true ∧
      fsign (latched p w) = false ∧ forder (latched p w) = forder (fclamp (f32bits w) (paramLo p) (paramHi p)) := by
  obtain ⟨hlo, hhi, hle, hs⟩ := paramBounds_spec p
  obtain ⟨h1, h2, h3⟩ := fclamp_spec (v := f32bits w) hlo hhi hle
  have ho := forder_fabs hs h2
  have hf : isFinite (latched p w) = true := by simpa [latched, isFinite, (fabs_spec _).2] using h1
  refine ⟨hf, ?_, ?_, (fabs_spec _).1, ho⟩
  · simp only [fle, isNaN_of_isFinite hf, isNaN_of_isFinite hlo, isNaN_of_isFinite h1] at h2 ⊢
    rw [show forder (latched p w) = _ from ho]; exact h2
  · simp only [fle, isNaN_of_isFinite hf, isNaN_of_isFinite hhi, isNaN_of_isFinite h1] at h3 ⊢
    rw [show forder (latched p w) = _ from ho]; exact h3

/-- The latch, one register at a time. -/
theorem latch_get (s : State) (p : Param) : (latch s).params.get p = latched p (s.staging.get p) := by cases p <;> rfl

/-- Everything the capture of a payload word can do. -/
theorem captureWord_cases (depth : Nat) (w : Word64) (s : State) :
    (legalEventWord w = false ∧ captureWord depth w s = raiseCond .illegalWord s) ∨
    (legalEventWord w = true ∧ s.evq.length = depth ∧ captureWord depth w s = raiseCond .eventDrop s) ∨
    (legalEventWord w = true ∧ s.evq.length ≠ depth ∧ captureWord depth w s = { s with evq := s.evq ++ [w] }) := by
  unfold captureWord
  cases legalEventWord w
  · simp
  · by_cases h : s.evq.length = depth <;> simp [h]

/-- The saturating count never falls. -/
theorem le_sat8Succ (x : BitVec 8) : x.toNat ≤ (sat8Succ x).toNat := by
  have := x.isLt
  unfold sat8Succ
  rw [BitVec.toNat_ofNat]
  omega

/-- A queue with one more word put in place is the same words. -/
theorem insertEvent_perm (w : Word64) (q : List Word64) : (insertEvent w q).Perm (w :: q) := by
  induction q with
  | nil => exact .refl _
  | cons v q ih =>
    simp only [insertEvent]
    split
    · exact .refl _
    · exact (ih.cons v).trans (.swap w v q)

/-! ### The statements of `FILT`, one equation each (a chain of them is opened by rewriting, never by unfolding) -/

theorem filterInput_eq (c : Config.Voicing) (s : State) :
    filterInput c s =
      let fb := fmul s.wires.k s.voice.y4
      let lp := fbLowpass (fbhpCoeff c) fb s.voice.hpz
      { s with voice := { s.voice with hpz := lp, y0 := fsub s.wires.osc (fsub fb lp) } } := by
  simp only [filterInput, writeD, Voice.set, readD, Voice.get]

theorem filterY1_eq (s : State) :
    filterY1 s =
      { s with voice := { s.voice with y1 := ladder1 s.wires.b0 s.voice.y0 s.voice.y1 s.voice.y2 } } := by
  simp only [filterY1, writeD, Voice.set, readD, Voice.get]

theorem filterY2_eq (s : State) :
    filterY2 s =
      { s with voice := { s.voice with y2 := ladderMid s.wires.b0 s.voice.y1 s.voice.y2 s.voice.y3 } } := by
  simp only [filterY2, writeD, Voice.set, readD, Voice.get]

theorem filterY3_eq (s : State) :
    filterY3 s =
      { s with voice := { s.voice with y3 := ladderMid s.wires.b0 s.voice.y2 s.voice.y3 s.voice.y4 } } := by
  simp only [filterY3, writeD, Voice.set, readD, Voice.get]

theorem filterY4_eq (s : State) :
    filterY4 s = { s with voice := { s.voice with y4 := ladder4 s.wires.b0 s.voice.y3 s.voice.y4 } } := by
  simp only [filterY4, writeD, Voice.set, readD, Voice.get]

/-! ### The statements of `ENV`, one equation each -/

theorem stepRc1_eq (c : Config.Voicing) (s : State) :
    stepRc1 c s =
      let x := leaky s.voice.rc1 s.voice.mainEnv (rc1Coeff c s)
      { s with
        voice := { s.voice with rc1 := envreg x }
        diag := diagUnless (isFinite x) s.diag
        nfcnt := countUnless (isFinite x) s.nfcnt } := by
  simp only [stepRc1, writeEnv_eq, Voice.set, readD, Voice.get]

theorem stepRc2_eq (c : Config.Voicing) (s : State) :
    stepRc2 c s =
      let x := leaky s.voice.rc2 (fmul s.params.accentLevel s.voice.mainEnv) (rc2Coeff c s)
      { s with
        voice := { s.voice with rc2 := envreg x }
        diag := diagUnless (isFinite x) s.diag
        nfcnt := countUnless (isFinite x) s.nfcnt } := by
  simp only [stepRc2, writeEnv_eq, Voice.set, readD, Voice.get, readP, Bank.get]

theorem decayMain_eq (c : Config.Voicing) (s : State) :
    decayMain c s =
      let x := fmul s.voice.mainEnv (decayCoeff c s)
      { s with
        voice := { s.voice with mainEnv := envreg x }
        diag := diagUnless (isFinite x) s.diag
        nfcnt := countUnless (isFinite x) s.nfcnt } := by
  simp only [decayMain, writeEnv_eq, Voice.set, readD, Voice.get]

theorem decayAmp_eq (c : Config.Voicing) (s : State) :
    decayAmp c s =
      let x := fmul s.voice.ampEnv (vegCoeff c s)
      { s with
        voice := { s.voice with ampEnv := envreg x }
        diag := diagUnless (isFinite x) s.diag
        nfcnt := countUnless (isFinite x) s.nfcnt } := by
  simp only [decayAmp, writeEnv_eq, Voice.set, readD, Voice.get]

/-! ### What each operation and each stage leaves alone -/

@[simp] theorem writeEnv_params (r : DReg) (x : F64) (s : State) :
    (writeEnv r x s).params = s.params := by rw [writeEnv_eq]

@[simp] theorem writeEnv_staging (r : DReg) (x : F64) (s : State) :
    (writeEnv r x s).staging = s.staging := by rw [writeEnv_eq]

@[simp] theorem writeEnv_sched (r : DReg) (x : F64) (s : State) :
    (writeEnv r x s).sched = s.sched := by rw [writeEnv_eq]

@[simp] theorem writeEnv_n (r : DReg) (x : F64) (s : State) : (writeEnv r x s).n = s.n := by rw [writeEnv_eq]

@[simp] theorem writeEnv_pos (r : DReg) (x : F64) (s : State) : (writeEnv r x s).pos = s.pos := by rw [writeEnv_eq]

@[simp] theorem writeEnv_evi (r : DReg) (x : F64) (s : State) : (writeEnv r x s).evi = s.evi := by rw [writeEnv_eq]

@[simp] theorem writeEnv_evq (r : DReg) (x : F64) (s : State) : (writeEnv r x s).evq = s.evq := by rw [writeEnv_eq]

@[simp] theorem writeEnv_wires (r : DReg) (x : F64) (s : State) :
    (writeEnv r x s).wires = s.wires := by rw [writeEnv_eq]

@[simp] theorem writeEnv_out (r : DReg) (x : F64) (s : State) : (writeEnv r x s).out = s.out := by rw [writeEnv_eq]

@[simp] theorem writeEnv_resp (r : DReg) (x : F64) (s : State) : (writeEnv r x s).resp = s.resp := by rw [writeEnv_eq]

@[simp] theorem writeEnv_port (r : DReg) (x : F64) (s : State) : (writeEnv r x s).port = s.port := by rw [writeEnv_eq]

@[simp] theorem sanitizeReg_params (s : State) (r : DReg) :
    (sanitizeReg s r).params = s.params := by rw [sanitizeReg_eq]

@[simp] theorem sanitizeReg_staging (s : State) (r : DReg) :
    (sanitizeReg s r).staging = s.staging := by rw [sanitizeReg_eq]

@[simp] theorem sanitizeReg_sched (s : State) (r : DReg) : (sanitizeReg s r).sched = s.sched := by rw [sanitizeReg_eq]

@[simp] theorem sanitizeReg_n (s : State) (r : DReg) : (sanitizeReg s r).n = s.n := by rw [sanitizeReg_eq]

@[simp] theorem sanitizeReg_pos (s : State) (r : DReg) : (sanitizeReg s r).pos = s.pos := by rw [sanitizeReg_eq]

@[simp] theorem sanitizeReg_evi (s : State) (r : DReg) : (sanitizeReg s r).evi = s.evi := by rw [sanitizeReg_eq]

@[simp] theorem sanitizeReg_evq (s : State) (r : DReg) : (sanitizeReg s r).evq = s.evq := by rw [sanitizeReg_eq]

@[simp] theorem sanitizeReg_wires (s : State) (r : DReg) : (sanitizeReg s r).wires = s.wires := by rw [sanitizeReg_eq]

@[simp] theorem sanitizeReg_out (s : State) (r : DReg) : (sanitizeReg s r).out = s.out := by rw [sanitizeReg_eq]

@[simp] theorem sanitizeReg_resp (s : State) (r : DReg) : (sanitizeReg s r).resp = s.resp := by rw [sanitizeReg_eq]

@[simp] theorem sanitizeReg_port (s : State) (r : DReg) : (sanitizeReg s r).port = s.port := by rw [sanitizeReg_eq]

@[simp] theorem storeSample_voice (x : F32) (s : State) : (storeSample x s).voice = s.voice := by rw [storeSample_eq]

@[simp] theorem storeSample_params (x : F32) (s : State) : (storeSample x s).params = s.params := by rw [storeSample_eq]

@[simp] theorem storeSample_staging (x : F32) (s : State) :
    (storeSample x s).staging = s.staging := by rw [storeSample_eq]

@[simp] theorem storeSample_sched (x : F32) (s : State) : (storeSample x s).sched = s.sched := by rw [storeSample_eq]

@[simp] theorem storeSample_n (x : F32) (s : State) : (storeSample x s).n = s.n := by rw [storeSample_eq]

@[simp] theorem storeSample_pos (x : F32) (s : State) : (storeSample x s).pos = s.pos := by rw [storeSample_eq]

@[simp] theorem storeSample_evi (x : F32) (s : State) : (storeSample x s).evi = s.evi := by rw [storeSample_eq]

@[simp] theorem storeSample_evq (x : F32) (s : State) : (storeSample x s).evq = s.evq := by rw [storeSample_eq]

@[simp] theorem storeSample_wires (x : F32) (s : State) : (storeSample x s).wires = s.wires := by rw [storeSample_eq]

@[simp] theorem storeSample_resp (x : F32) (s : State) : (storeSample x s).resp = s.resp := by rw [storeSample_eq]

@[simp] theorem storeSample_port (x : F32) (s : State) : (storeSample x s).port = s.port := by rw [storeSample_eq]

@[simp] theorem pitchSlew_params (c : Config.Voicing) (s : State) : (pitchSlew c s).params = s.params := by simp [pitchSlew]

@[simp] theorem pitchSlew_staging (c : Config.Voicing) (s : State) : (pitchSlew c s).staging = s.staging := by simp [pitchSlew]

@[simp] theorem pitchSlew_diag (c : Config.Voicing) (s : State) : (pitchSlew c s).diag = s.diag := by simp [pitchSlew]

@[simp] theorem pitchSlew_nfcnt (c : Config.Voicing) (s : State) : (pitchSlew c s).nfcnt = s.nfcnt := by simp [pitchSlew]

@[simp] theorem pitchSlew_sched (c : Config.Voicing) (s : State) : (pitchSlew c s).sched = s.sched := by simp [pitchSlew]

@[simp] theorem pitchSlew_n (c : Config.Voicing) (s : State) : (pitchSlew c s).n = s.n := by simp [pitchSlew]

@[simp] theorem pitchSlew_pos (c : Config.Voicing) (s : State) : (pitchSlew c s).pos = s.pos := by simp [pitchSlew]

@[simp] theorem pitchSlew_evi (c : Config.Voicing) (s : State) : (pitchSlew c s).evi = s.evi := by simp [pitchSlew]

@[simp] theorem pitchSlew_evq (c : Config.Voicing) (s : State) : (pitchSlew c s).evq = s.evq := by simp [pitchSlew]

@[simp] theorem pitchSlew_wires (c : Config.Voicing) (s : State) : (pitchSlew c s).wires = s.wires := by simp [pitchSlew]

@[simp] theorem pitchSlew_out (c : Config.Voicing) (s : State) : (pitchSlew c s).out = s.out := by simp [pitchSlew]

@[simp] theorem pitchSlew_resp (c : Config.Voicing) (s : State) : (pitchSlew c s).resp = s.resp := by simp [pitchSlew]

@[simp] theorem pitchSlew_port (c : Config.Voicing) (s : State) : (pitchSlew c s).port = s.port := by simp [pitchSlew]

@[simp] theorem oscillator_params (c : Config.Voicing) (s : State) : (oscillator c s).params = s.params := by simp [oscillator]

@[simp] theorem oscillator_staging (c : Config.Voicing) (s : State) : (oscillator c s).staging = s.staging := by simp [oscillator]

@[simp] theorem oscillator_diag (c : Config.Voicing) (s : State) : (oscillator c s).diag = s.diag := by simp [oscillator]

@[simp] theorem oscillator_nfcnt (c : Config.Voicing) (s : State) : (oscillator c s).nfcnt = s.nfcnt := by simp [oscillator]

@[simp] theorem oscillator_sched (c : Config.Voicing) (s : State) : (oscillator c s).sched = s.sched := by simp [oscillator]

@[simp] theorem oscillator_n (c : Config.Voicing) (s : State) : (oscillator c s).n = s.n := by simp [oscillator]

@[simp] theorem oscillator_pos (c : Config.Voicing) (s : State) : (oscillator c s).pos = s.pos := by simp [oscillator]

@[simp] theorem oscillator_evi (c : Config.Voicing) (s : State) : (oscillator c s).evi = s.evi := by simp [oscillator]

@[simp] theorem oscillator_evq (c : Config.Voicing) (s : State) : (oscillator c s).evq = s.evq := by simp [oscillator]

@[simp] theorem oscillator_out (c : Config.Voicing) (s : State) : (oscillator c s).out = s.out := by simp [oscillator]

@[simp] theorem oscillator_resp (c : Config.Voicing) (s : State) : (oscillator c s).resp = s.resp := by simp [oscillator]

@[simp] theorem oscillator_port (c : Config.Voicing) (s : State) : (oscillator c s).port = s.port := by simp [oscillator]

@[simp] theorem envelopes_params (c : Config.Voicing) (s : State) :
    (envelopes c s).params = s.params := by
  simp [envelopes, decayAmp, decayMain, stepRc1, stepRc2]

@[simp] theorem envelopes_staging (c : Config.Voicing) (s : State) :
    (envelopes c s).staging = s.staging := by
  simp [envelopes, decayAmp, decayMain, stepRc1, stepRc2]

@[simp] theorem envelopes_sched (c : Config.Voicing) (s : State) :
    (envelopes c s).sched = s.sched := by
  simp [envelopes, decayAmp, decayMain, stepRc1, stepRc2]

@[simp] theorem envelopes_n (c : Config.Voicing) (s : State) :
    (envelopes c s).n = s.n := by
  simp [envelopes, decayAmp, decayMain, stepRc1, stepRc2]

@[simp] theorem envelopes_pos (c : Config.Voicing) (s : State) :
    (envelopes c s).pos = s.pos := by
  simp [envelopes, decayAmp, decayMain, stepRc1, stepRc2]

@[simp] theorem envelopes_evi (c : Config.Voicing) (s : State) :
    (envelopes c s).evi = s.evi := by
  simp [envelopes, decayAmp, decayMain, stepRc1, stepRc2]

@[simp] theorem envelopes_evq (c : Config.Voicing) (s : State) :
    (envelopes c s).evq = s.evq := by
  simp [envelopes, decayAmp, decayMain, stepRc1, stepRc2]

@[simp] theorem envelopes_out (c : Config.Voicing) (s : State) :
    (envelopes c s).out = s.out := by
  simp [envelopes, decayAmp, decayMain, stepRc1, stepRc2]

@[simp] theorem envelopes_resp (c : Config.Voicing) (s : State) :
    (envelopes c s).resp = s.resp := by
  simp [envelopes, decayAmp, decayMain, stepRc1, stepRc2]

@[simp] theorem envelopes_port (c : Config.Voicing) (s : State) :
    (envelopes c s).port = s.port := by
  simp [envelopes, decayAmp, decayMain, stepRc1, stepRc2]

@[simp] theorem coefficients_voice (c : Config.Voicing) (s : State) : (coefficients c s).voice = s.voice := by simp [coefficients]

@[simp] theorem coefficients_params (c : Config.Voicing) (s : State) : (coefficients c s).params = s.params := by simp [coefficients]

@[simp] theorem coefficients_staging (c : Config.Voicing) (s : State) : (coefficients c s).staging = s.staging := by simp [coefficients]

@[simp] theorem coefficients_diag (c : Config.Voicing) (s : State) : (coefficients c s).diag = s.diag := by simp [coefficients]

@[simp] theorem coefficients_nfcnt (c : Config.Voicing) (s : State) : (coefficients c s).nfcnt = s.nfcnt := by simp [coefficients]

@[simp] theorem coefficients_sched (c : Config.Voicing) (s : State) : (coefficients c s).sched = s.sched := by simp [coefficients]

@[simp] theorem coefficients_n (c : Config.Voicing) (s : State) : (coefficients c s).n = s.n := by simp [coefficients]

@[simp] theorem coefficients_pos (c : Config.Voicing) (s : State) : (coefficients c s).pos = s.pos := by simp [coefficients]

@[simp] theorem coefficients_evi (c : Config.Voicing) (s : State) : (coefficients c s).evi = s.evi := by simp [coefficients]

@[simp] theorem coefficients_evq (c : Config.Voicing) (s : State) : (coefficients c s).evq = s.evq := by simp [coefficients]

@[simp] theorem coefficients_out (c : Config.Voicing) (s : State) : (coefficients c s).out = s.out := by simp [coefficients]

@[simp] theorem coefficients_resp (c : Config.Voicing) (s : State) : (coefficients c s).resp = s.resp := by simp [coefficients]

@[simp] theorem coefficients_port (c : Config.Voicing) (s : State) : (coefficients c s).port = s.port := by simp [coefficients]

@[simp] theorem ladderFilter_params (c : Config.Voicing) (s : State) : (ladderFilter c s).params = s.params := by
  simp [ladderFilter, filterInput, filterY1, filterY2, filterY3, filterY4]

@[simp] theorem ladderFilter_staging (c : Config.Voicing) (s : State) : (ladderFilter c s).staging = s.staging := by
  simp [ladderFilter, filterInput, filterY1, filterY2, filterY3, filterY4]

@[simp] theorem ladderFilter_diag (c : Config.Voicing) (s : State) : (ladderFilter c s).diag = s.diag := by
  simp [ladderFilter, filterInput, filterY1, filterY2, filterY3, filterY4]

@[simp] theorem ladderFilter_nfcnt (c : Config.Voicing) (s : State) : (ladderFilter c s).nfcnt = s.nfcnt := by
  simp [ladderFilter, filterInput, filterY1, filterY2, filterY3, filterY4]

@[simp] theorem ladderFilter_sched (c : Config.Voicing) (s : State) : (ladderFilter c s).sched = s.sched := by
  simp [ladderFilter, filterInput, filterY1, filterY2, filterY3, filterY4]

@[simp] theorem ladderFilter_n (c : Config.Voicing) (s : State) : (ladderFilter c s).n = s.n := by
  simp [ladderFilter, filterInput, filterY1, filterY2, filterY3, filterY4]

@[simp] theorem ladderFilter_pos (c : Config.Voicing) (s : State) : (ladderFilter c s).pos = s.pos := by
  simp [ladderFilter, filterInput, filterY1, filterY2, filterY3, filterY4]

@[simp] theorem ladderFilter_evi (c : Config.Voicing) (s : State) : (ladderFilter c s).evi = s.evi := by
  simp [ladderFilter, filterInput, filterY1, filterY2, filterY3, filterY4]

@[simp] theorem ladderFilter_evq (c : Config.Voicing) (s : State) : (ladderFilter c s).evq = s.evq := by
  simp [ladderFilter, filterInput, filterY1, filterY2, filterY3, filterY4]

@[simp] theorem ladderFilter_wires (c : Config.Voicing) (s : State) : (ladderFilter c s).wires = s.wires := by
  simp [ladderFilter, filterInput, filterY1, filterY2, filterY3, filterY4]

@[simp] theorem ladderFilter_out (c : Config.Voicing) (s : State) : (ladderFilter c s).out = s.out := by
  simp [ladderFilter, filterInput, filterY1, filterY2, filterY3, filterY4]

@[simp] theorem ladderFilter_resp (c : Config.Voicing) (s : State) : (ladderFilter c s).resp = s.resp := by
  simp [ladderFilter, filterInput, filterY1, filterY2, filterY3, filterY4]

@[simp] theorem ladderFilter_port (c : Config.Voicing) (s : State) : (ladderFilter c s).port = s.port := by
  simp [ladderFilter, filterInput, filterY1, filterY2, filterY3, filterY4]

@[simp] theorem sanitize_params (s : State) : (sanitize s).params = s.params := by simp [sanitize, filterRegs]

@[simp] theorem sanitize_staging (s : State) : (sanitize s).staging = s.staging := by simp [sanitize, filterRegs]

@[simp] theorem sanitize_sched (s : State) : (sanitize s).sched = s.sched := by simp [sanitize, filterRegs]

@[simp] theorem sanitize_n (s : State) : (sanitize s).n = s.n := by simp [sanitize, filterRegs]

@[simp] theorem sanitize_pos (s : State) : (sanitize s).pos = s.pos := by simp [sanitize, filterRegs]

@[simp] theorem sanitize_evi (s : State) : (sanitize s).evi = s.evi := by simp [sanitize, filterRegs]

@[simp] theorem sanitize_evq (s : State) : (sanitize s).evq = s.evq := by simp [sanitize, filterRegs]

@[simp] theorem sanitize_wires (s : State) : (sanitize s).wires = s.wires := by simp [sanitize, filterRegs]

@[simp] theorem sanitize_out (s : State) : (sanitize s).out = s.out := by simp [sanitize, filterRegs]

@[simp] theorem sanitize_resp (s : State) : (sanitize s).resp = s.resp := by simp [sanitize, filterRegs]

@[simp] theorem sanitize_port (s : State) : (sanitize s).port = s.port := by simp [sanitize, filterRegs]

@[simp] theorem amplifier_voice (c : Config.Voicing) (s : State) :
    (amplifier c s).voice = s.voice := by simp [amplifier]

@[simp] theorem amplifier_params (c : Config.Voicing) (s : State) :
    (amplifier c s).params = s.params := by simp [amplifier]

@[simp] theorem amplifier_staging (c : Config.Voicing) (s : State) :
    (amplifier c s).staging = s.staging := by simp [amplifier]

@[simp] theorem amplifier_sched (c : Config.Voicing) (s : State) :
    (amplifier c s).sched = s.sched := by simp [amplifier]

@[simp] theorem amplifier_n (c : Config.Voicing) (s : State) : (amplifier c s).n = s.n := by simp [amplifier]

@[simp] theorem amplifier_pos (c : Config.Voicing) (s : State) : (amplifier c s).pos = s.pos := by simp [amplifier]

@[simp] theorem amplifier_evi (c : Config.Voicing) (s : State) : (amplifier c s).evi = s.evi := by simp [amplifier]

@[simp] theorem amplifier_evq (c : Config.Voicing) (s : State) : (amplifier c s).evq = s.evq := by simp [amplifier]

@[simp] theorem amplifier_wires (c : Config.Voicing) (s : State) :
    (amplifier c s).wires = s.wires := by simp [amplifier]

@[simp] theorem amplifier_resp (c : Config.Voicing) (s : State) : (amplifier c s).resp = s.resp := by simp [amplifier]

@[simp] theorem amplifier_port (c : Config.Voicing) (s : State) : (amplifier c s).port = s.port := by simp [amplifier]

@[simp] theorem noteOn_params (c : Config.Voicing) (note : BitVec 7) (accent slide : Bool) (s : State) :
    (noteOn c note accent slide s).params = s.params := by
  unfold noteOn; split <;> rfl

@[simp] theorem noteOn_staging (c : Config.Voicing) (note : BitVec 7) (accent slide : Bool) (s : State) :
    (noteOn c note accent slide s).staging = s.staging := by
  unfold noteOn; split <;> rfl

@[simp] theorem noteOn_diag (c : Config.Voicing) (note : BitVec 7) (accent slide : Bool) (s : State) :
    (noteOn c note accent slide s).diag = s.diag := by
  unfold noteOn; split <;> rfl

@[simp] theorem noteOn_nfcnt (c : Config.Voicing) (note : BitVec 7) (accent slide : Bool) (s : State) :
    (noteOn c note accent slide s).nfcnt = s.nfcnt := by
  unfold noteOn; split <;> rfl

@[simp] theorem noteOn_sched (c : Config.Voicing) (note : BitVec 7) (accent slide : Bool) (s : State) :
    (noteOn c note accent slide s).sched = s.sched := by
  unfold noteOn; split <;> rfl

@[simp] theorem noteOn_n (c : Config.Voicing) (note : BitVec 7) (accent slide : Bool) (s : State) :
    (noteOn c note accent slide s).n = s.n := by
  unfold noteOn; split <;> rfl

@[simp] theorem noteOn_pos (c : Config.Voicing) (note : BitVec 7) (accent slide : Bool) (s : State) :
    (noteOn c note accent slide s).pos = s.pos := by
  unfold noteOn; split <;> rfl

@[simp] theorem noteOn_evi (c : Config.Voicing) (note : BitVec 7) (accent slide : Bool) (s : State) :
    (noteOn c note accent slide s).evi = s.evi := by
  unfold noteOn; split <;> rfl

@[simp] theorem noteOn_evq (c : Config.Voicing) (note : BitVec 7) (accent slide : Bool) (s : State) :
    (noteOn c note accent slide s).evq = s.evq := by
  unfold noteOn; split <;> rfl

@[simp] theorem noteOn_wires (c : Config.Voicing) (note : BitVec 7) (accent slide : Bool) (s : State) :
    (noteOn c note accent slide s).wires = s.wires := by
  unfold noteOn; split <;> rfl

@[simp] theorem noteOn_out (c : Config.Voicing) (note : BitVec 7) (accent slide : Bool) (s : State) :
    (noteOn c note accent slide s).out = s.out := by
  unfold noteOn; split <;> rfl

@[simp] theorem noteOn_resp (c : Config.Voicing) (note : BitVec 7) (accent slide : Bool) (s : State) :
    (noteOn c note accent slide s).resp = s.resp := by
  unfold noteOn; split <;> rfl

@[simp] theorem noteOn_port (c : Config.Voicing) (note : BitVec 7) (accent slide : Bool) (s : State) :
    (noteOn c note accent slide s).port = s.port := by
  unfold noteOn; split <;> rfl

/-! ### The data registers and flags each stage leaves alone -/

theorem filterInput_get (c : Config.Voicing) (s : State) {q : DReg} (h0 : q ≠ .hpz) (h1 : q ≠ .y0) :
    (filterInput c s).voice.get q = s.voice.get q := by
  rw [filterInput_eq]; cases q <;> first | rfl | contradiction

@[simp] theorem filterInput_accentActive (c : Config.Voicing) (s : State) :
    (filterInput c s).voice.accentActive = s.voice.accentActive := by rw [filterInput_eq]

@[simp] theorem filterInput_slideActive (c : Config.Voicing) (s : State) :
    (filterInput c s).voice.slideActive = s.voice.slideActive := by rw [filterInput_eq]

@[simp] theorem filterInput_currentNote (c : Config.Voicing) (s : State) :
    (filterInput c s).voice.currentNote = s.voice.currentNote := by rw [filterInput_eq]

@[simp] theorem filterInput_gate (c : Config.Voicing) (s : State) :
    (filterInput c s).voice.gate = s.voice.gate := by rw [filterInput_eq]

theorem filterY1_get (s : State) {q : DReg} (h0 : q ≠ .y1) :
    (filterY1 s).voice.get q = s.voice.get q := by
  rw [filterY1_eq]; cases q <;> first | rfl | contradiction

@[simp] theorem filterY1_accentActive (s : State) :
    (filterY1 s).voice.accentActive = s.voice.accentActive := by rw [filterY1_eq]

@[simp] theorem filterY1_slideActive (s : State) :
    (filterY1 s).voice.slideActive = s.voice.slideActive := by rw [filterY1_eq]

@[simp] theorem filterY1_currentNote (s : State) :
    (filterY1 s).voice.currentNote = s.voice.currentNote := by rw [filterY1_eq]

@[simp] theorem filterY1_gate (s : State) :
    (filterY1 s).voice.gate = s.voice.gate := by rw [filterY1_eq]

theorem filterY2_get (s : State) {q : DReg} (h0 : q ≠ .y2) :
    (filterY2 s).voice.get q = s.voice.get q := by
  rw [filterY2_eq]; cases q <;> first | rfl | contradiction

@[simp] theorem filterY2_accentActive (s : State) :
    (filterY2 s).voice.accentActive = s.voice.accentActive := by rw [filterY2_eq]

@[simp] theorem filterY2_slideActive (s : State) :
    (filterY2 s).voice.slideActive = s.voice.slideActive := by rw [filterY2_eq]

@[simp] theorem filterY2_currentNote (s : State) :
    (filterY2 s).voice.currentNote = s.voice.currentNote := by rw [filterY2_eq]

@[simp] theorem filterY2_gate (s : State) :
    (filterY2 s).voice.gate = s.voice.gate := by rw [filterY2_eq]

theorem filterY3_get (s : State) {q : DReg} (h0 : q ≠ .y3) :
    (filterY3 s).voice.get q = s.voice.get q := by
  rw [filterY3_eq]; cases q <;> first | rfl | contradiction

@[simp] theorem filterY3_accentActive (s : State) :
    (filterY3 s).voice.accentActive = s.voice.accentActive := by rw [filterY3_eq]

@[simp] theorem filterY3_slideActive (s : State) :
    (filterY3 s).voice.slideActive = s.voice.slideActive := by rw [filterY3_eq]

@[simp] theorem filterY3_currentNote (s : State) :
    (filterY3 s).voice.currentNote = s.voice.currentNote := by rw [filterY3_eq]

@[simp] theorem filterY3_gate (s : State) :
    (filterY3 s).voice.gate = s.voice.gate := by rw [filterY3_eq]

theorem filterY4_get (s : State) {q : DReg} (h0 : q ≠ .y4) :
    (filterY4 s).voice.get q = s.voice.get q := by
  rw [filterY4_eq]; cases q <;> first | rfl | contradiction

@[simp] theorem filterY4_accentActive (s : State) :
    (filterY4 s).voice.accentActive = s.voice.accentActive := by rw [filterY4_eq]

@[simp] theorem filterY4_slideActive (s : State) :
    (filterY4 s).voice.slideActive = s.voice.slideActive := by rw [filterY4_eq]

@[simp] theorem filterY4_currentNote (s : State) :
    (filterY4 s).voice.currentNote = s.voice.currentNote := by rw [filterY4_eq]

@[simp] theorem filterY4_gate (s : State) :
    (filterY4 s).voice.gate = s.voice.gate := by rw [filterY4_eq]

theorem stepRc1_get (c : Config.Voicing) (s : State) {q : DReg} (h0 : q ≠ .rc1) :
    (stepRc1 c s).voice.get q = s.voice.get q := by
  rw [stepRc1_eq]; cases q <;> first | rfl | contradiction

@[simp] theorem stepRc1_accentActive (c : Config.Voicing) (s : State) :
    (stepRc1 c s).voice.accentActive = s.voice.accentActive := by rw [stepRc1_eq]

@[simp] theorem stepRc1_slideActive (c : Config.Voicing) (s : State) :
    (stepRc1 c s).voice.slideActive = s.voice.slideActive := by rw [stepRc1_eq]

@[simp] theorem stepRc1_currentNote (c : Config.Voicing) (s : State) :
    (stepRc1 c s).voice.currentNote = s.voice.currentNote := by rw [stepRc1_eq]

@[simp] theorem stepRc1_gate (c : Config.Voicing) (s : State) :
    (stepRc1 c s).voice.gate = s.voice.gate := by rw [stepRc1_eq]

theorem stepRc2_get (c : Config.Voicing) (s : State) {q : DReg} (h0 : q ≠ .rc2) :
    (stepRc2 c s).voice.get q = s.voice.get q := by
  rw [stepRc2_eq]; cases q <;> first | rfl | contradiction

@[simp] theorem stepRc2_accentActive (c : Config.Voicing) (s : State) :
    (stepRc2 c s).voice.accentActive = s.voice.accentActive := by rw [stepRc2_eq]

@[simp] theorem stepRc2_slideActive (c : Config.Voicing) (s : State) :
    (stepRc2 c s).voice.slideActive = s.voice.slideActive := by rw [stepRc2_eq]

@[simp] theorem stepRc2_currentNote (c : Config.Voicing) (s : State) :
    (stepRc2 c s).voice.currentNote = s.voice.currentNote := by rw [stepRc2_eq]

@[simp] theorem stepRc2_gate (c : Config.Voicing) (s : State) :
    (stepRc2 c s).voice.gate = s.voice.gate := by rw [stepRc2_eq]

theorem decayMain_get (c : Config.Voicing) (s : State) {q : DReg} (h0 : q ≠ .mainEnv) :
    (decayMain c s).voice.get q = s.voice.get q := by
  rw [decayMain_eq]; cases q <;> first | rfl | contradiction

@[simp] theorem decayMain_accentActive (c : Config.Voicing) (s : State) :
    (decayMain c s).voice.accentActive = s.voice.accentActive := by rw [decayMain_eq]

@[simp] theorem decayMain_slideActive (c : Config.Voicing) (s : State) :
    (decayMain c s).voice.slideActive = s.voice.slideActive := by rw [decayMain_eq]

@[simp] theorem decayMain_currentNote (c : Config.Voicing) (s : State) :
    (decayMain c s).voice.currentNote = s.voice.currentNote := by rw [decayMain_eq]

@[simp] theorem decayMain_gate (c : Config.Voicing) (s : State) :
    (decayMain c s).voice.gate = s.voice.gate := by rw [decayMain_eq]

theorem decayAmp_get (c : Config.Voicing) (s : State) {q : DReg} (h0 : q ≠ .ampEnv) :
    (decayAmp c s).voice.get q = s.voice.get q := by
  rw [decayAmp_eq]; cases q <;> first | rfl | contradiction

@[simp] theorem decayAmp_accentActive (c : Config.Voicing) (s : State) :
    (decayAmp c s).voice.accentActive = s.voice.accentActive := by rw [decayAmp_eq]

@[simp] theorem decayAmp_slideActive (c : Config.Voicing) (s : State) :
    (decayAmp c s).voice.slideActive = s.voice.slideActive := by rw [decayAmp_eq]

@[simp] theorem decayAmp_currentNote (c : Config.Voicing) (s : State) :
    (decayAmp c s).voice.currentNote = s.voice.currentNote := by rw [decayAmp_eq]

@[simp] theorem decayAmp_gate (c : Config.Voicing) (s : State) :
    (decayAmp c s).voice.gate = s.voice.gate := by rw [decayAmp_eq]

theorem writeD_get (s : State) (r q : DReg) (x : F64) :
    (writeD s r x).voice.get q = if q = r then x else s.voice.get q := get_set s.voice r q x

/-- `FILT` writes the filter registers only. -/
theorem ladderFilter_get (c : Config.Voicing) (s : State) {q : DReg} (h : q ∉ filterRegs) :
    (ladderFilter c s).voice.get q = s.voice.get q := by
  simp only [filterRegs, List.mem_cons, List.not_mem_nil, or_false, not_or] at h
  obtain ⟨h0, h1, h2, h3, h4, h5⟩ := h
  rw [ladderFilter, filterY4_get _ h4, filterY3_get _ h3, filterY2_get _ h2, filterY1_get _ h1,
    filterInput_get _ _ h5 h0]

/-- `ENV` writes the envelope registers only. -/
theorem envelopes_get (c : Config.Voicing) (s : State) {q : DReg} (h1 : q ≠ .rc1) (h2 : q ≠ .rc2)
    (h3 : q ≠ .mainEnv) (h4 : q ≠ .ampEnv) : (envelopes c s).voice.get q = s.voice.get q := by
  rw [envelopes, decayAmp_get _ _ h4, decayMain_get _ _ h3, setEnvWires_voice, stepRc2_get _ _ h2,
    stepRc1_get _ _ h1]

/-- `SAN` on each filter register: a finite value is kept, another becomes 0. -/
theorem sanitize_get (s : State) (q : DReg) :
    (sanitize s).voice.get q =
      if q ∈ filterRegs ∧ isFinite (s.voice.get q) = false then f0 else s.voice.get q := by
  simp only [sanitize, filterRegs, List.foldl_cons, List.foldl_nil, sanitizeReg_eq, get_set]
  cases q <;> simp <;> split <;> simp_all

@[simp] theorem ladderFilter_accentActive (c : Config.Voicing) (s : State) :
    (ladderFilter c s).voice.accentActive = s.voice.accentActive := by
  simp [ladderFilter]

@[simp] theorem ladderFilter_slideActive (c : Config.Voicing) (s : State) :
    (ladderFilter c s).voice.slideActive = s.voice.slideActive := by
  simp [ladderFilter]

@[simp] theorem ladderFilter_currentNote (c : Config.Voicing) (s : State) :
    (ladderFilter c s).voice.currentNote = s.voice.currentNote := by
  simp [ladderFilter]

@[simp] theorem ladderFilter_gate (c : Config.Voicing) (s : State) :
    (ladderFilter c s).voice.gate = s.voice.gate := by
  simp [ladderFilter]

@[simp] theorem envelopes_accentActive (c : Config.Voicing) (s : State) :
    (envelopes c s).voice.accentActive = s.voice.accentActive := by
  simp [envelopes]

@[simp] theorem envelopes_slideActive (c : Config.Voicing) (s : State) :
    (envelopes c s).voice.slideActive = s.voice.slideActive := by
  simp [envelopes]

@[simp] theorem envelopes_currentNote (c : Config.Voicing) (s : State) :
    (envelopes c s).voice.currentNote = s.voice.currentNote := by
  simp [envelopes]

@[simp] theorem envelopes_gate (c : Config.Voicing) (s : State) :
    (envelopes c s).voice.gate = s.voice.gate := by
  simp [envelopes]

@[simp] theorem sanitize_accentActive (s : State) : (sanitize s).voice.accentActive = s.voice.accentActive := by
  simp [sanitize, filterRegs, sanitizeReg_eq]

@[simp] theorem sanitize_slideActive (s : State) : (sanitize s).voice.slideActive = s.voice.slideActive := by
  simp [sanitize, filterRegs, sanitizeReg_eq]

@[simp] theorem sanitize_currentNote (s : State) : (sanitize s).voice.currentNote = s.voice.currentNote := by
  simp [sanitize, filterRegs, sanitizeReg_eq]

@[simp] theorem sanitize_gate (s : State) : (sanitize s).voice.gate = s.voice.gate := by
  simp [sanitize, filterRegs, sanitizeReg_eq]

end Sys2Proof.Laws
end

