-- ==== Sys2Proof/Laws/PerInstr.lean ====
section
/-! SUPPORT. Facts about every instruction as syntax, one lemma for each constructor. -/

namespace Sys2Proof.Laws

/-- A row of the opcode map: match and mask of a word, or the code of a stage (`30_encoding.md` R66, R70). -/
inductive Row where
  | word (pattern mask : Word64)
  | stage (code : BitVec 4)

/-- The row of an instruction. -/
def rowOf : Instr → Row
  | .noteon _ _ _ _ _ => .word 0x1000000000000000#64 0xFC8080FF00000000#64
  | .noteoff _ _ _ _ _ => .word 0x2000000000000000#64 0xFC8080FF00000000#64
  | .render _ _ => .word 0x3000000000000000#64 0xFF00000000000000#64
  | .ldparam _ _ => .word 0x4000000000000000#64 0xFFFFFF0000000000#64
  | .reset => .word 0x5000000000000000#64 0xFFFFFFFFFFFFFFFF#64
  | .rdstat _ => .word 0x6000000000000000#64 0xFFFFFFFFFFFFFFFE#64
  | .pslew => .stage 0b0001#4
  | .osc => .stage 0b0010#4
  | .env => .stage 0b0011#4
  | .coef => .stage 0b0100#4
  | .filt => .stage 0b0101#4
  | .san => .stage 0b0110#4
  | .vca => .stage 0b0111#4

/-- An encoding is of a row's kind and agrees with it. -/
def Row.agrees : Row → Code → Prop
  | .word pattern mask, .word w => w &&& mask = pattern
  | .stage code, .stage c => c = code
  | .word _ _, .stage _ => False
  | .stage _, .word _ => False

/-- The encoding of a well-formed instruction agrees with its row of the opcode map. -/
def MatchRow.Statement (i : Instr) : Prop := i.wellFormed = true → (rowOf i).agrees (encode i)

theorem MatchRow.noteon (note velocity : BitVec 7) (accent slide : Bool) (sampleOffset : BitVec 32) :
    MatchRow.Statement (.noteon note velocity accent slide sampleOffset) := by
  intro _
  simp only [rowOf, encode, Row.agrees, encodeN]
  refine BitVec.eq_of_getLsbD_eq fun i hi => ?_
  rw [BitVec.getLsbD_and]
  simp only [BitVec.getLsbD_append]
  interval_cases i <;> simp

theorem MatchRow.noteoff (note velocity : BitVec 7) (accent slide : Bool) (sampleOffset : BitVec 32) :
    MatchRow.Statement (.noteoff note velocity accent slide sampleOffset) := by
  intro _
  simp only [rowOf, encode, Row.agrees, encodeN]
  refine BitVec.eq_of_getLsbD_eq fun i hi => ?_
  rw [BitVec.getLsbD_and]
  simp only [BitVec.getLsbD_append]
  interval_cases i <;> simp

theorem MatchRow.render (evCount : BitVec 24) (numSamples : BitVec 32) :
    MatchRow.Statement (.render evCount numSamples) := by
  intro _
  simp only [rowOf, encode, Row.agrees, encodeR]
  refine BitVec.eq_of_getLsbD_eq fun i hi => ?_
  rw [BitVec.getLsbD_and]
  simp only [BitVec.getLsbD_append]
  interval_cases i <;> simp

theorem MatchRow.ldparam (index : BitVec 8) (value : F32) : MatchRow.Statement (.ldparam index value) := by
  intro _
  simp only [rowOf, encode, Row.agrees, encodeP]
  refine BitVec.eq_of_getLsbD_eq fun i hi => ?_
  rw [BitVec.getLsbD_and]
  simp only [BitVec.getLsbD_append]
  interval_cases i <;> simp

theorem MatchRow.reset : MatchRow.Statement .reset :=
  fun _ => show encodeZ 5#4 false &&& 0xFFFFFFFFFFFFFFFF#64 = 0x5000000000000000#64 by decide

theorem MatchRow.rdstat (clr : Bool) : MatchRow.Statement (.rdstat clr) := by
  intro _
  show encodeZ 6#4 clr &&& 0xFFFFFFFFFFFFFFFE#64 = 0x6000000000000000#64
  cases clr <;> decide

theorem MatchRow.pslew : MatchRow.Statement .pslew := fun _ => rfl

theorem MatchRow.osc : MatchRow.Statement .osc := fun _ => rfl

theorem MatchRow.env : MatchRow.Statement .env := fun _ => rfl

theorem MatchRow.coef : MatchRow.Statement .coef := fun _ => rfl

theorem MatchRow.filt : MatchRow.Statement .filt := fun _ => rfl

theorem MatchRow.san : MatchRow.Statement .san := fun _ => rfl

theorem MatchRow.vca : MatchRow.Statement .vca := fun _ => rfl

end Sys2Proof.Laws
end

