-- ==== Sys2Proof/Laws/Step.lean ====
section
/-! SUPPORT. Everything one step can do, said once (`step_cases`), so that an invariant is a case analysis of ten short
cases and never opens the scheduler. -/

namespace Sys2Proof.Laws

open Sys2Proof Sys2Proof.Machine

/-- Every instruction completes. -/
theorem exec_next (i : Instr) (s : State) : ∃ t, exec i s = .next t := by
  cases i <;> exact ⟨_, rfl⟩

@[simp] theorem thenNext_next (t : State) (f : State → State) : thenNext (.next t) f = .next (f t) := rfl

/-- Running a stage is its instruction and the scheduler's move after it. -/
theorem runStage_eq {st : Stage} {s u : State} (h : exec st.instr s = .next u) :
    runStage st s = .next (afterStage st u) := by
  unfold runStage; rw [h]; rfl

/-- A sample begins at a boundary where no event is due and a sample is still to come before the next one. -/
def sampleDue (s : State) : Prop :=
  (∃ w, s.evq[s.evi.toNat]? = some w ∧ (fieldOffset w).toNat < s.n.toNat ∧ s.pos.toNat < (fieldOffset w).toNat) ∨
  (s.evq[s.evi.toNat]? = none ∧ s.pos.toNat < s.n.toNat)

/-- The ways a step goes from one state to the next. -/
inductive StepCase (s : State) : State → Prop where
  /-- Nothing presented where a word is wanted: the state is held. -/
  | hold (h : s.port = []) (hs : s.sched = .idle ∨ ∃ left, s.sched = .capture left) : StepCase s s
  /-- An illegal word at the top level. -/
  | discard (w : Word64) (rest : List Word64) (r : Reject) (hs : s.sched = .idle) (hp : s.port = w :: rest)
      (hd : decodeTop w = .error r) : StepCase s (raiseCond .illegalWord { s with port := rest })
  /-- A command. -/
  | command (w : Word64) (rest : List Word64) (i : Instr) (t : State) (hs : s.sched = .idle) (hp : s.port = w :: rest)
      (hd : decodeTop w = .ok i) (he : exec i { s with port := rest } = .next t) : StepCase s t
  /-- The payload is complete. -/
  | begin (hs : s.sched = .capture 0#24) : StepCase s (startLoop s)
  /-- A payload word. -/
  | payload (left : BitVec 24) (w : Word64) (rest : List Word64) (hs : s.sched = .capture left) (hl : left ≠ 0#24)
      (hp : s.port = w :: rest) :
      StepCase s (captureWord voicing.evqDepth w { s with port := rest, sched := .capture (left - 1#24) })
  /-- A late event. -/
  | late (w : Word64) (hs : s.sched = .loop .pslew) (hw : s.evq[s.evi.toNat]? = some w)
      (hl : s.n.toNat ≤ (fieldOffset w).toNat) : StepCase s (nextEvent (raiseCond .lateEvent s))
  /-- An event that is due. -/
  | event (w : Word64) (i : Instr) (t : State) (hs : s.sched = .loop .pslew) (hw : s.evq[s.evi.toNat]? = some w)
      (hn : (fieldOffset w).toNat < s.n.toNat) (hp : (fieldOffset w).toNat ≤ s.pos.toNat)
      (hd : decodePayload w = .ok i) (he : exec i s = .next t) : StepCase s (nextEvent t)
  /-- A queue word that is no event word; in no run. -/
  | notEvent (w : Word64) (r : Reject) (hs : s.sched = .loop .pslew) (hw : s.evq[s.evi.toNat]? = some w)
      (hn : (fieldOffset w).toNat < s.n.toNat) (hp : (fieldOffset w).toNat ≤ s.pos.toNat)
      (hd : decodePayload w = .error r) : StepCase s (nextEvent (raiseCond .illegalWord s))
  /-- A stage. -/
  | stage (st : Stage) (t : State) (hs : s.sched = .loop st) (hd : st = .pslew → sampleDue s)
      (he : exec st.instr s = .next t) : StepCase s (afterStage st t)
  /-- The end of the call. -/
  | finish (hs : s.sched = .loop .pslew) (hw : s.evq[s.evi.toNat]? = none) (hn : s.n.toNat ≤ s.pos.toNat) :
      StepCase s (endCall s)

theorem runStage_cases {st : Stage} {s t : State} (hs : s.sched = .loop st) (hd : st = .pslew → sampleDue s)
    (h : runStage st s = .next t) : StepCase s t := by
  obtain ⟨u, hu⟩ := exec_next st.instr s
  rw [runStage_eq hu] at h
  cases h
  exact .stage st u hs hd hu

theorem boundary_cases {s t : State} (hs : s.sched = .loop .pslew) (h : boundary s = .next t) : StepCase s t := by
  unfold boundary at h
  split at h
  · next w hw =>
    split at h
    · next hl => cases h; exact .late w hs hw hl
    · next hl =>
      split at h
      · next hp => exact runStage_cases hs (fun _ => .inl ⟨w, hw, by omega, hp⟩) h
      · next hp =>
        unfold applyEvent at h
        split at h
        · next i hd =>
          obtain ⟨u, hu⟩ := exec_next i s
          rw [hu] at h
          cases h
          exact .event w i u hs hw (by omega) (by omega) hd hu
        · next r hd => cases h; exact .notEvent w r hs hw (by omega) (by omega) hd
  · next hw =>
    split at h
    · next hp => exact runStage_cases hs (fun _ => .inr ⟨hw, hp⟩) h
    · next hp => cases h; exact .finish hs hw (by omega)

/-- Everything a step can do. -/
theorem step_cases {s t : State} (h : step s = .next t) : StepCase s t := by
  unfold step advance at h
  split at h
  · next hs =>
    unfold idleStep at h
    split at h
    · next hp => cases h; exact .hold hp (.inl hs)
    · next w rest hp =>
      unfold acceptWord at h
      split at h
      · next i hd => exact .command w rest i t hs hp hd h
      · next r hd => cases h; exact .discard w rest r hs hp hd
  · next left hs =>
    unfold captureStep at h
    split at h
    · next hl => subst hl; cases h; exact .begin hs
    · next hl =>
      split at h
      · next hp => cases h; exact .hold hp (.inr ⟨left, hs⟩)
      · next w rest hp => cases h; exact .payload left w rest hs hl hp
  · next st hs =>
    unfold loopStep at h
    split at h
    · exact boundary_cases hs h
    all_goals exact runStage_cases hs (fun hh => by cases hh) h

/-! ### What decodes where -/

/-- A word of a payload decodes to an event. -/
theorem decodePayload_event {w : Word64} {i : Instr} (h : decodePayload w = .ok i) :
    (∃ n v a l o, i = .noteon n v a l o) ∨ (∃ n v a l o, i = .noteoff n v a l o) := by
  unfold decodePayload at h
  split at h
  · cases h
  · next j hj =>
    split at h
    · next hp =>
      cases h
      cases i <;> simp_all [Instr.place]
    · cases h

/-- A word at the top level decodes to a command. -/
theorem decodeTop_command {w : Word64} {i : Instr} (h : decodeTop w = .ok i) :
    (∃ e n, i = .render e n) ∨ (∃ x v, i = .ldparam x v) ∨ i = .reset ∨ ∃ c, i = .rdstat c := by
  unfold decodeTop at h
  split at h
  · cases h
  · next j hj =>
    split at h
    · next hp =>
      cases h
      cases i <;> simp_all [Instr.place]
    · cases h

end Sys2Proof.Laws
end

