-- ==== Sys2Proof/Laws/WholeCall.lean ====
section
/-! SUPPORT. What each part of the whole-call function does to the scheduler's registers, said once: a sample, a row of
samples, an event, and the capture of a payload that fits. -/

namespace Sys2Proof.Laws

open Sys2Proof Sys2Proof.Machine

/-- The state `u` differs from `s` in no register of the scheduler but `pos`, and in no parameter, port or answer. -/
structure KeepsCall (s u : State) : Prop where
  n : u.n = s.n
  evi : u.evi = s.evi
  evq : u.evq = s.evq
  sched : u.sched = s.sched
  params : u.params = s.params
  staging : u.staging = s.staging
  port : u.port = s.port
  resp : u.resp = s.resp

theorem KeepsCall.trans {s u v : State} (h : KeepsCall s u) (k : KeepsCall u v) : KeepsCall s v where
  n := k.n.trans h.n
  evi := k.evi.trans h.evi
  evq := k.evq.trans h.evq
  sched := k.sched.trans h.sched
  params := k.params.trans h.params
  staging := k.staging.trans h.staging
  port := k.port.trans h.port
  resp := k.resp.trans h.resp

/-- A sample step leaves the call alone. -/
theorem sampleStep_keeps (c : Config.Voicing) (s : State) : KeepsCall s (sampleStep c s) := by
  constructor <;> simp [sampleStep]

/-- Only the scheduler moves `pos`. -/
@[simp] theorem sampleStep_pos (c : Config.Voicing) (s : State) : (sampleStep c s).pos = s.pos := by simp [sampleStep]

/-- A row of samples leaves the call alone. -/
theorem sampleSteps_keeps (c : Config.Voicing) (k : Nat) (s : State) : KeepsCall s (sampleSteps c k s) := by
  induction k generalizing s with
  | zero => exact ⟨rfl, rfl, rfl, rfl, rfl, rfl, rfl, rfl⟩
  | succ k ih =>
    have h := sampleStep_keeps c s
    have h1 : KeepsCall s { sampleStep c s with pos := (sampleStep c s).pos + 1#32 } :=
      ⟨h.n, h.evi, h.evq, h.sched, h.params, h.staging, h.port, h.resp⟩
    exact h1.trans (ih _)

/-- `pos` advances by the number of samples. -/
theorem sampleSteps_pos (c : Config.Voicing) (k : Nat) (s : State) (h : s.pos.toNat + k < 2 ^ 32) :
    (sampleSteps c k s).pos.toNat = s.pos.toNat + k := by
  induction k generalizing s with
  | zero => rfl
  | succ k ih =>
    have hp : (s.pos + 1#32).toNat = s.pos.toNat + 1 := by rw [BitVec.toNat_add]; simp; omega
    simp only [sampleSteps]
    rw [ih] <;> simp only [sampleStep_pos, hp] <;> omega

/-- A row of samples may be cut anywhere. -/
theorem sampleSteps_add (c : Config.Voicing) (a b : Nat) (s : State) :
    sampleSteps c (a + b) s = sampleSteps c b (sampleSteps c a s) := by
  induction a generalizing s with
  | zero => rw [Nat.zero_add]; rfl
  | succ a ih => rw [Nat.succ_add]; exact ih _

/-- An event leaves the call alone, and `pos` and the samples with it. -/
theorem eventEffect_keeps (c : Config.Voicing) (w : Word64) (s : State) :
    KeepsCall s (eventEffect c w s) ∧ (eventEffect c w s).pos = s.pos ∧ (eventEffect c w s).out = s.out := by
  unfold eventEffect
  split
  · exact ⟨by constructor <;> simp, by simp, by simp⟩
  · exact ⟨⟨rfl, rfl, rfl, rfl, rfl, rfl, rfl, rfl⟩, rfl, rfl⟩
  · exact ⟨⟨rfl, rfl, rfl, rfl, rfl, rfl, rfl, rfl⟩, rfl, rfl⟩

/-- A payload of event words that fits the queue is queued in its order, and does nothing else. -/
theorem capturePayload_fits (depth : Nat) (ws : List Word64) (s : State) (hw : ∀ w ∈ ws, legalEventWord w = true)
    (hl : s.evq.length + ws.length ≤ depth) : capturePayload depth ws s = { s with evq := s.evq ++ ws } := by
  induction ws generalizing s with
  | nil => simp [capturePayload]
  | cons w ws ih =>
    rw [List.length_cons] at hl
    have h1 : captureWord depth w s = { s with evq := s.evq ++ [w] } := by
      unfold captureWord
      rw [hw w (by simp), if_neg (by simp), if_neg (by omega)]
    have h2 := ih { s with evq := s.evq ++ [w] } (fun v hv => hw v (by simp [hv])) (by simp; omega)
    simp only [capturePayload, List.foldl_cons, h1] at h2 ⊢
    rw [h2]
    simp

end Sys2Proof.Laws
end

