-- ==== Sys2Proof/Tests/Slice0.lean ====
section
/-! SUPPORT. Tests of one step or one operation each, with expected values from spec/ (named in each comment), and for each
statement with hypotheses a state that meets them. -/

namespace Sys2Proof.Tests

open Sys2Proof Sys2Proof.Machine Sys2Proof.Safety

-- Many theorems here are closed by the kernel; one after another they need no thread each.
set_option Elab.async false

/-! ### Well-formedness -/

/-- Smoke test: an `LDPARAM` with index 12 is ill formed, and the check refuses it; 11 is well formed. -/
theorem test_wellformed_refuses_index_12 :
    (Instr.ldparam 12 0).wellFormed = false ∧ (Instr.ldparam 255 0).wellFormed = false ∧
      (Instr.ldparam 11 0).wellFormed = true := by decide

/-! ### Decoding: words written out from the formats of `30_encoding.md` R61 to R65, op | reserved | fields -/

/-- Format N, from bit 63: 0001 00 s a 0 vvvvvvv 0 nnnnnnn 00000000, then the offset. -/
theorem test_decode_noteon :
    decodeWord 0b0001_00_1_0_0_1100100_0_0111110_00000000_00000000000000000000100010011101#64
      = .ok (.noteon 62 100 false true 2205) := by decide

/-- An event with `ACC` set and `SLD` clear. -/
theorem test_decode_noteoff :
    decodeWord 0b0010_00_0_1_0_0000001_0_0111100_00000000_00000000000000000000000001100100#64
      = .ok (.noteoff 60 1 true false 100) := by decide

theorem test_decode_render :
    decodeWord 0b0011_0000_000000000000000000000010_00000000000000000001000100111010#64
      = .ok (.render 2 4410) := by decide

theorem test_decode_ldparam :
    decodeWord 0b0100_00000000000000000000_00001011_01000010011100000000000000000000#64
      = .ok (.ldparam 11 0x42700000#32) := by decide

theorem test_decode_reset_rdstat :
    decodeWord 0x5000000000000000#64 = .ok .reset ∧ decodeWord 0x6000000000000001#64 = .ok (.rdstat true) ∧
      decodeWord 0x6000000000000000#64 = .ok (.rdstat false) := by decide

/-- The stage codes of R70. -/
theorem test_decode_stages :
    [1#4, 2#4, 3#4, 4#4, 5#4, 6#4, 7#4].map decodeStage =
      [.ok .pslew, .ok .osc, .ok .env, .ok .coef, .ok .filt, .ok .san, .ok .vca] ∧
    decodeStage 0#4 = .error .reservedStage ∧ decodeStage 8#4 = .error .reservedStage := by decide

/-- R67 (a) to (e), one word each. -/
theorem test_decode_refusals :
    decodeWord 0x0000000000000000#64 = .error .reservedOp ∧ decodeWord 0xF000000000000000#64 = .error .reservedOp ∧
    decodeWord 0x3100000000000000#64 = .error .reservedBits ∧ decodeWord 0x5000000000000001#64 = .error .reservedBits ∧
    decodeWord 0x6000000000000002#64 = .error .reservedBits ∧
    decodeWord 0x4000000C3F800000#64 = .error .reservedIndex ∧
    decodeTop 0x10643C0000000000#64 = .error .eventAtTopLevel ∧
    decodePayload 0x5000000000000000#64 = .error .commandInPayload := by decide

/-- The eight bytes of a word, least significant first (`20_memory.md` R45), and a short image. -/
theorem test_decode_bytes :
    decodeBytes [0x9D, 0x08, 0, 0, 0, 0x3E, 0x64, 0x12, 0xAA] = .ok (.noteon 62 100 false true 2205, [0xAA]) ∧
    decodeBytes [1, 2, 3] = .error .truncated := by decide +kernel

/-- The encoder against the worked words of `30_encoding.md` R72. -/
theorem test_encode :
    encode (.noteon 62 100 false true 2205) = .word 0x12643E000000089D#64 ∧
    encode (.noteoff 60 0 false false 100) = .word 0x20003C0000000064#64 ∧
    encode (.render 2 4410) = .word 0x300000020000113A#64 ∧
    encode (.ldparam 11 0x42700000#32) = .word 0x4000000B42700000#64 ∧
    encode (.rdstat true) = .word 0x6000000000000001#64 := by decide

/-- Each row of the opcode table, its match with every other bit 0, is read as its instruction. -/
theorem test_table_words :
    decodeTableWord 64 0x1000000000000000 = some (.noteon 0 0 false false 0) ∧
    decodeTableWord 64 0x2000000000000000 = some (.noteoff 0 0 false false 0) ∧
    decodeTableWord 64 0x3000000000000000 = some (.render 0 0) ∧
    decodeTableWord 64 0x4000000000000000 = some (.ldparam 0 0) ∧
    decodeTableWord 64 0x5000000000000000 = some .reset ∧
    decodeTableWord 64 0x6000000000000000 = some (.rdstat false) ∧
    [1, 2, 3, 4, 5, 6, 7].map (decodeTableWord 8) =
      [some .pslew, some .osc, some .env, some .coef, some .filt, some .san, some .vca] := by decide +kernel

/-- A command placed where the next step fetches is executed. -/
theorem test_fetch_command :
    step (State.reset.withFetchWord 64 0x4000000043FA0000)
      = exec (.ldparam 0 0x43FA0000#32) (State.reset.withFetchWord 64 0x4000000043FA0000 |> fun s => { s with port := [] }) :=
  rfl

/-- An event placed where the next step fetches is applied, and the loop moves on. -/
theorem test_fetch_event :
    step (State.reset.withFetchWord 64 0x20003C0000000064)
      = thenNext (exec (.noteoff 60 0 false false 100) (State.reset.withFetchWord 64 0x20003C0000000064)) nextEvent := rfl

/-- A stage placed where the next step fetches is run, and the next one follows. -/
theorem test_fetch_stage :
    step (State.reset.withFetchWord 8 6)
      = thenNext (exec .san (State.reset.withFetchWord 8 6)) (afterStage .san) := rfl

/-! ### Instructions, with a voicing of the test: the values of `e^x` and `2^x` that the vectors of spec/ were made with -/

/-- `e^x` at the arguments the worked examples need: 3 ms, decay 0.5, 3000 ms, −1.5 and −3; 1/2 elsewhere. -/
def testExp (x : F64) : F64 :=
  if x = 0xBF7EF5BE98DD5D12#64 then 0x3FEFC25044862FD7#64
  else if x = 0xBEF59D9C581BF2C8#64 then 0x3FEFFFD4C4E48386#64
  else if x = 0xBEDFB3F65F17EC9E#64 then 0x3FEFFFF02608BD88#64
  else if x = 0xBFF8000000000000#64 then 0x3FCC8F87724B5C1D#64
  else if x = 0xC008000000000000#64 then 0x3FA97DB0CCCEB0AF#64
  else 0x3FE0000000000000#64

/-- `2^x` at −0.75 and at the modulation of the worked example of `43_envelopes.md` R110; 1 elsewhere. -/
def testPow2 (x : F64) : F64 :=
  if x = 0xBFE8000000000000#64 then 0x3FE306FE0A31B715#64
  else if x = 0x3F8346EA96110CD0#64 then 0x3FF01ACF9CD181D0#64
  else f1

/-- 44100 Hz, a queue of two, normalizers 1, as the vectors of spec/ have them; accent gain 0. -/
def testVoicing : Config.Voicing where
  sampleRate := 44100
  evqDepth := 2
  accentVcaGain := f0
  norm1 _ := f1
  norm2 _ := f1
  exp := testExp
  pow2 := testPow2

/-- A state after reset with data registers written. -/
def withD (l : List (DReg × F64)) : State := l.foldl (fun s c => writeD s c.1 c.2) State.reset

/-- A state after reset with active parameters written. -/
def withP (l : List (Param × F64)) (s : State) : State :=
  { s with params := l.foldl (fun b c => b.set c.1 c.2) s.params }

/-- R133: 100 glides to 150 on its way to 200 when `slewCoeff` is 0.5. -/
theorem test_pslew_halfway :
    (pitchSlew testVoicing (withD [(.pitchCurrent, fnat 100), (.pitchTarget, fnat 200)])).voice.pitchCurrent
      = fnat 150 := by decide +kernel

/-- R133: no glide time, no glide. -/
theorem test_pslew_no_glide :
    (pitchSlew testVoicing (withP [(.tauSlideMs, f0)]
      (withD [(.pitchCurrent, fnat 100), (.pitchTarget, fnat 200)]))).voice.pitchCurrent = fnat 200 := by decide +kernel

/-- R80: phase 0.25, pitch 441, blend 0.5: `osc` is 0 and the phase 0.26. -/
theorem test_osc_blend :
    let t := oscillator testVoicing (withP [(.waveformBlend, 0x3FE0000000000000#64)]
      (withD [(.phase, 0x3FD0000000000000#64), (.pitchCurrent, fnat 441)]))
    t.wires.osc = f0 ∧ t.voice.phase = 0x3FD0A3D70A3D70A4#64 := by decide +kernel

/-- `95_test_vectors.md` S2.1, phase 0.995, inc 0.01, blend 1: −0.37500000000000022, and the phase wraps. -/
theorem test_osc_wrap :
    let t := oscillator testVoicing (withP [(.waveformBlend, f1)]
      (withD [(.phase, 0x3FEFD70A3D70A3D7#64), (.pitchCurrent, fnat 441)]))
    t.wires.osc = 0xBFD8000000000004#64 ∧ t.voice.phase = 0x3F747AE147AE1400#64 := by decide +kernel

/-- The start of the worked example of `43_envelopes.md` R110: the first sample after an accented retrigger. -/
def envStart : State :=
  let s := withP [(.cutoffHz, fnat 500), (.envModDepth, f1), (.decay, 0x3FE0000000000000#64),
    (.accentLevel, 0x3FE0000000000000#64)] (withD [(.mainEnv, f1), (.ampEnv, f1)])
  { s with voice := { s.voice with accentActive := true } }

/-- R110, worked example: the registers. -/
theorem test_env_registers :
    let t := envelopes testVoicing envStart
    t.voice.rc1 = 0x3F7ED7DDBCE81480#64 ∧ t.voice.rc2 = 0x3F6ED7DDBCE81480#64 ∧
    t.voice.mainEnv = 0x3FEFFFD4C4E48386#64 ∧ t.voice.ampEnv = 0x3FEFFFF02608BD88#64 := by decide +kernel

/-- R110, worked example: the wires. -/
theorem test_env_wires :
    let t := envelopes testVoicing envStart
    t.wires.instCutoff = 0x407F745D7E49318A#64 ∧ t.wires.vcaEnv = f1 := by decide +kernel

/-- R90, worked example: `compute(500, 0.5)`. -/
theorem test_coef_500 :
    let s := withP [(.resonance, 0x3FE0000000000000#64)] State.reset
    let t := coefficients testVoicing { s with wires := { s.wires with instCutoff := fnat 500 } }
    t.wires.b0 = 0x3FA7550D40BD4CFE#64 ∧ t.wires.k = 0x402EA9D559FA2A0A#64 ∧ t.wires.g = 0x3FFF884F6D9C8D07#64 := by
  decide +kernel

/-- R100, worked example: `b0 = 0.5`, `k = 0`, `osc = 1`, from all state 0. -/
theorem test_filt_first :
    let s := State.reset
    let t := ladderFilter testVoicing
      { s with wires := { s.wires with b0 := 0x3FE0000000000000#64, osc := f1 } }
    [t.voice.y0, t.voice.y1, t.voice.y2, t.voice.y3, t.voice.y4] =
      [f1, f1, 0x3FE0000000000000#64, 0x3FD0000000000000#64, 0x3FC0000000000000#64] := by decide +kernel

/-- R100, worked example, the second step. -/
theorem test_filt_second :
    let s := withD [(.y1, f1), (.y2, 0x3FE0000000000000#64), (.y3, 0x3FD0000000000000#64),
      (.y4, 0x3FC0000000000000#64)]
    let t := ladderFilter testVoicing
      { s with wires := { s.wires with b0 := 0x3FE0000000000000#64, osc := f1 } }
    [t.voice.y0, t.voice.y1, t.voice.y2, t.voice.y3, t.voice.y4] =
      [f1, 0x3FF8000000000000#64, 0x3FEC000000000000#64, 0x3FE0000000000000#64, 0x3FD0000000000000#64] := by
  decide +kernel

/-- R201, worked example: two non-finite registers are zeroed and counted, a finite one is kept. -/
theorem test_san_repairs :
    let t := sanitize (withD [(.y1, finf false), (.y2, fnan), (.y4, f1)])
    t.voice.y1 = f0 ∧ t.voice.y2 = f0 ∧ t.voice.y4 = f1 ∧ t.diag = 1#4 ∧ t.nfcnt = 2#8 := by decide +kernel

/-- R160, worked example: 0.0625 is stored as 0x3D800000. -/
theorem test_vca_stores :
    let s := withP [(.volume, 0x3FE0000000000000#64)] (withD [(.y4, 0x3FC0000000000000#64)])
    memRead (amplifier testVoicing
      { s with wires := { s.wires with g := f1, vcaEnv := 0x3FE0000000000000#64 }, pos := 2#32 }).out 2
      = some 0x3D800000#32 := by decide +kernel

/-- R204: a sample that is not finite is stored as +0, raised and counted. -/
theorem test_vca_repairs :
    let s := withP [(.volume, f1)] (withD [(.y4, finf true)])
    let t := amplifier testVoicing { s with wires := { s.wires with g := f1, vcaEnv := f1 } }
    memRead t.out 0 = some 0#32 ∧ t.diag = 1#4 ∧ t.nfcnt = 1#8 := by decide +kernel

/-- R141, worked example: `NOTEON 60, 100` from `Silent`. -/
theorem test_noteon_retrigger :
    let t := noteOn testVoicing 60 false false State.reset
    t.voice.pitchTarget = 0x40705A0250C2B956#64 ∧ t.voice.pitchCurrent = 0x40705A0250C2B956#64 ∧
    t.voice.currentNote = 60#7 ∧ t.voice.mainEnv = f1 ∧ t.voice.ampEnv = f1 ∧ t.voice.gate = .sounding := by
  decide +kernel

/-- R144: a slide on a `Sounding` gate keeps the envelopes and the current pitch; its accent is ignored. -/
theorem test_noteon_slide :
    let t := noteOn testVoicing 60 true true (noteOn testVoicing 69 false false State.reset)
    t.voice.pitchCurrent = fnat 440 ∧ t.voice.pitchTarget = 0x40705A0250C2B956#64 ∧
    t.voice.accentActive = false ∧ t.voice.slideActive = true := by decide +kernel

/-- R145: nothing. -/
theorem test_noteoff : exec (.noteoff 60 0 false false 100) State.reset = .next State.reset := rfl

/-- R187, worked example: 25000, NaN and −1 are latched as 20000, 0 and 0, and, its corner case, −0 as 0; R188: the staging
registers keep them. -/
theorem test_render_latches :
    let s := { State.reset with
      staging := { resetStaging with
        cutoffHz := 0x46C35000#32, resonance := 0x7FC00000#32, volume := 0xBF800000#32, tauAttackMs := 0x80000000#32 } }
    let t := startRender 0 3 s
    t.params.cutoffHz = fnat 20000 ∧ t.params.resonance = f0 ∧ t.params.volume = f0 ∧ t.params.tauAttackMs = f0 ∧
      t.staging = s.staging ∧ t.params.tauVegMs = fnat 3000 := by decide +kernel

/-- R171: equal offsets keep their payload order, and a smaller offset comes first. -/
theorem test_render_sorts :
    sortEvents [0x10003C0000000005#64, 0x10003D0000000002#64, 0x10003E0000000005#64]
      = [0x10003D0000000002#64, 0x10003C0000000005#64, 0x10003E0000000005#64] := by decide

/-- R186, worked examples: `LDPARAM 0, 500`, and the reserved index 12. -/
theorem test_ldparam :
    (writeStaging 0 0x43FA0000#32 State.reset).staging.cutoffHz = 0x43FA0000#32 ∧
    (writeStaging 12 0x3F800000#32 State.reset) = { State.reset with diag := 2#4 } := by decide +kernel

/-- R190: VoiceState is zeroed; `DIAG` is kept. -/
theorem test_reset :
    exec .reset { withD [(.phase, f1), (.ampEnv, f1)] with diag := 4#4 } = .next { State.reset with diag := 4#4 } := rfl

/-- R192, worked example: gate, `slideActive`, note 62, `LATEEVT`: 0x00043E05. -/
theorem test_rdstat :
    statusWord { State.reset with
      diag := 4#4, voice := { Voice.zero with gate := .sounding, slideActive := true, currentNote := 62#7 } }
      = 0x00043E05#32 := by decide

/-! ### The arithmetic, against known binary64 patterns -/

/-- 0.1 + 0.2, 1/3, √2, π and the least subnormal halved. -/
theorem test_arith :
    fadd (flit 1 1) (flit 2 1) = 0x3FD3333333333334#64 ∧ fdiv f1 (fnat 3) = 0x3FD5555555555555#64 ∧
    fsqrt (fnat 2) = 0x3FF6A09E667F3BCD#64 ∧ fpi = 0x400921FB54442D18#64 ∧
    fmul 1#64 (fratio false 1 2) = 0#64 := by decide +kernel

/-- A tie goes to the even binary32 value, and an overflow to infinity. -/
theorem test_f32 :
    f32 (fadd f1 (fratio false 1 (2 ^ 24))) = 0x3F800000#32 ∧
    f32 (fadd f1 (fratio false 3 (2 ^ 24))) = 0x3F800002#32 ∧ f32 (fnat (2 ^ 128)) = 0x7F800000#32 := by decide +kernel

/-! ### Witnesses: for each statement with hypotheses, a state that meets them -/

/-- The active parameters after reset are in range. -/
theorem witness_paramsInRange_reset : paramsInRange State.reset.params := by
  intro p; cases p <;> decide +kernel

theorem witness_DecodeOfEncode :
    (Instr.ldparam 11 0x42700000#32).wellFormed = true ∧ (Instr.noteon 127 127 true true 0xFFFFFFFF).wellFormed = true := by
  decide

theorem witness_EncodeOfDecode :
    decode (.word 0x4000000B42700000#64) = .ok (.ldparam 11 0x42700000#32) ∧ decode (.stage 7#4) = .ok .vca := by decide

theorem witness_StepRunsCommand :
    (withCommand State.reset 0x6000000000000001#64).sched = .idle ∧
    (withCommand State.reset 0x6000000000000001#64).port = 0x6000000000000001#64 :: [] ∧
    decodeTop 0x6000000000000001#64 = .ok (.rdstat true) := by decide

/-- An event word with offset 3. -/
def event3 : Word64 := 0x10643C0000000003#64

/-- An event due exactly at its offset, in the last sample but none. -/
theorem witness_StepRunsDueEvent :
    (withEvent State.reset event3).sched = .loop .pslew ∧
    (withEvent State.reset event3).evq[(withEvent State.reset event3).evi.toNat]? = some event3 ∧
    (fieldOffset event3).toNat < (withEvent State.reset event3).n.toNat ∧
    (fieldOffset event3).toNat ≤ (withEvent State.reset event3).pos.toNat ∧
    decodePayload event3 = .ok (.noteon 60 100 false false 3) ∧
    ∃ t, exec (.noteon 60 100 false false 3) (withEvent State.reset event3) = .next t :=
  ⟨rfl, rfl, by decide, by decide, by decide, _, rfl⟩

/-- Each clause: no event and `pos` at `n`, a boundary, an event ahead of `pos` by one sample, no event and one sample to
come, and each later stage. -/
theorem witness_StepRunsStages :
    (∃ s : State, s.sched = .loop .pslew ∧ s.evq[s.evi.toNat]? = none ∧ s.n.toNat ≤ s.pos.toNat ∧
      s.pos.toNat ≤ s.n.toNat) ∧
    (∃ s t : State, s.sched = .loop .pslew ∧ step s = .next t) ∧
    (∃ (s t : State) (w : Word64), s.sched = .loop .pslew ∧ s.evq[s.evi.toNat]? = some w ∧
      (fieldOffset w).toNat < s.n.toNat ∧ s.pos.toNat < (fieldOffset w).toNat ∧ exec .pslew s = .next t) ∧
    (∃ s t : State, s.sched = .loop .pslew ∧ s.evq[s.evi.toNat]? = none ∧ s.pos.toNat < s.n.toNat ∧
      exec .pslew s = .next t) ∧
    (∃ s t : State, s.sched = .loop .osc ∧ exec .osc s = .next t) ∧
    (∃ s t : State, s.sched = .loop .env ∧ exec .env s = .next t) ∧
    (∃ s t : State, s.sched = .loop .coef ∧ exec .coef s = .next t) ∧
    (∃ s t : State, s.sched = .loop .filt ∧ exec .filt s = .next t) ∧
    (∃ s t : State, s.sched = .loop .san ∧ exec .san s = .next t) ∧
    (∃ s t : State, s.sched = .loop .vca ∧ exec .vca s = .next t) :=
  ⟨⟨{ withStage State.reset .pslew with pos := 1#32 }, rfl, rfl, by decide, by decide⟩,
    ⟨withStage State.reset .pslew, _, rfl, rfl⟩,
    ⟨{ withEvent State.reset event3 with pos := 2#32 }, _, event3, rfl, rfl, by decide, by decide, rfl⟩,
    ⟨withStage State.reset .pslew, _, rfl, rfl, by decide, rfl⟩,
    ⟨withStage State.reset .osc, _, rfl, rfl⟩, ⟨withStage State.reset .env, _, rfl, rfl⟩,
    ⟨withStage State.reset .coef, _, rfl, rfl⟩, ⟨withStage State.reset .filt, _, rfl, rfl⟩,
    ⟨withStage State.reset .san, _, rfl, rfl⟩, ⟨withStage State.reset .vca, _, rfl, rfl⟩⟩

theorem witness_IdleHoldsState : State.reset.sched = .idle ∧ State.reset.port = [] := by decide

/-- The word of `RESET` as the last word of a payload. -/
def payloadOfReset : State := { State.reset with port := [0x5000000000000000#64], sched := .capture 1#24 }

/-- Each clause: a word illegal at the top level, and one illegal as the last word of a payload. -/
theorem witness_IllegalWordIsDiscarded :
    ((withCommand State.reset event3).port = event3 :: [] ∧ (withCommand State.reset event3).sched = .idle ∧
      decodeTop event3 = .error .eventAtTopLevel) ∧
    (payloadOfReset.port = 0x5000000000000000#64 :: [] ∧ payloadOfReset.sched = .capture 1#24 ∧ 1#24 ≠ 0#24 ∧
      decodePayload 0x5000000000000000#64 = .error .commandInPayload) := by decide

/-- The room clause at an empty queue, and the full clause at a queue of exactly `EVQ_DEPTH` words. -/
theorem witness_PayloadWordIsQueuedOrDropped :
    (∃ s : State, s.sched = .capture 1#24 ∧ 1#24 ≠ 0#24 ∧ s.port = event3 :: [] ∧
      decodePayload event3 = .ok (.noteon 60 100 false false 3) ∧ s.evq.length < voicing.evqDepth) ∧
    (∃ s : State, s.sched = .capture 1#24 ∧ 1#24 ≠ 0#24 ∧ s.port = event3 :: [] ∧
      decodePayload event3 = .ok (.noteon 60 100 false false 3) ∧ s.evq.length = voicing.evqDepth) :=
  ⟨⟨{ State.reset with port := [event3], sched := .capture 1#24 }, rfl, by decide, rfl, by decide,
      Laws.evqDepth_limits.1⟩,
    ⟨{ State.reset with
        port := [event3], sched := .capture 1#24, evq := List.replicate voicing.evqDepth event3 },
      rfl, by decide, rfl, by decide, List.length_replicate⟩⟩

/-- The boundary: an offset equal to `n`. -/
theorem witness_LateEventIsDiscarded :
    let s := { withEvent State.reset event3 with n := 3#32 }
    s.sched = .loop .pslew ∧ s.evq[s.evi.toNat]? = some event3 ∧ s.n.toNat ≤ (fieldOffset event3).toNat := by decide

/-- Both ways to retrigger: `Silent` with a slide, and `Sounding` without one. -/
theorem witness_NoteOnRetriggers :
    (State.reset.voice.gate = .silent ∨ true = false) ∧
    ((noteOn testVoicing 60 false false State.reset).voice.gate = .silent ∨ false = false) := by decide +kernel

theorem witness_NoteOnGlides : (noteOn testVoicing 60 false false State.reset).voice.gate = .sounding := by
  decide +kernel

/-- The index clauses where they meet and at their ends. -/
theorem witness_LdparamWritesStaging :
    (12 ≤ (12 : BitVec 8).toNat ∧ 12 ≤ (255 : BitVec 8).toNat) ∧
    ((11 : BitVec 8).toNat < 12 ∧ (0 : BitVec 8).toNat < 12) := by decide

/-- The two clauses: the least value above 0, and 0 itself, −0 and NaN. -/
theorem witness_TimeConstantFormula :
    flt f0 1#64 = true ∧ flt f0 f0 = false ∧ flt f0 (fzero true) = false ∧ flt f0 fnan = false := by decide +kernel

/-- The three pieces, with `t = dt` in the third or the second and `t = 1 − dt` in the third. -/
theorem witness_BlepPieces :
    let d := fratio false 1 4
    flt f0 d = true ∧ (flt d d = false ∧ flt (fsub f1 d) d = false) ∧
    (flt (fratio false 7 8) d = false ∧ flt (fsub f1 d) (fratio false 7 8) = true) ∧
    (flt (fratio false 3 4) d = false ∧ flt (fsub f1 d) (fratio false 3 4) = false) := by decide +kernel

theorem witness_OscZeroAtPhaseZero :
    State.reset.voice.phase = f0 ∧ within f0 f1 State.reset.params.waveformBlend = true ∧
    within f0 f1 f1 = true ∧ ∃ t, exec .osc State.reset = .next t :=
  ⟨rfl, by decide +kernel, by decide +kernel, _, rfl⟩

theorem witness_EnvSilentCorner :
    paramsInRange State.reset.params ∧ State.reset.voice.mainEnv = f0 ∧ State.reset.voice.ampEnv = f0 ∧
    State.reset.voice.rc1 = f0 ∧ State.reset.voice.rc2 = f0 ∧ ∃ t, exec .env State.reset = .next t :=
  ⟨witness_paramsInRange_reset, rfl, rfl, rfl, rfl, _, rfl⟩

/-- Right after a retrigger, both envelopes at 1. -/
theorem witness_EnvelopesNeverRise :
    paramsInRange (withD [(.mainEnv, f1), (.ampEnv, f1)]).params ∧
    envelopesInUnit (withD [(.mainEnv, f1), (.ampEnv, f1)]).voice = true ∧
    ∃ t, exec .env (withD [(.mainEnv, f1), (.ampEnv, f1)]) = .next t :=
  ⟨witness_paramsInRange_reset, by decide +kernel, _, rfl⟩

/-- With `instCutoff` 0 the polynomial is its constant term, whatever the sample rate. -/
theorem witness_NoResonanceNoFeedback :
    State.reset.params.resonance = f0 ∧ isFinite (k0Of (fxOf voicing State.reset.wires.instCutoff)) = true ∧
    ∃ t, exec .coef State.reset = .next t := by
  refine ⟨rfl, ?_, _, rfl⟩
  have hfx : fxOf voicing State.reset.wires.instCutoff = f0 := by
    obtain ⟨h1, h2, h3⟩ := Laws.rateF_spec
    have h0 : fmul twoPi State.reset.wires.instCutoff = f0 := by decide +kernel
    have hd : fdiv f0 (rateF voicing) = f0 := by
      rw [Laws.fdiv_of_finite (by decide +kernel) h1 h3, h2]
      have hu : (units f0).natAbs = 0 := by decide +kernel
      rw [hu, Nat.mul_zero]
      unfold roundUnits roundMag nearestEven
      simp [excess, fpack, f0, fsign]
    unfold fxOf
    rw [h0, hd]
    decide +kernel
  rw [hfx]
  decide +kernel

/-- Without an accent the boost is 0, whatever `ACCENT_VCA_GAIN` is. -/
theorem noBoost : fmul f0 voicing.accentVcaGain = f0 := by
  obtain ⟨h1, h2⟩ := Laws.finiteNonneg_spec Config.accentVcaGainRaw
  show fmul f0 (finiteNonneg Config.accentVcaGainRaw) = f0
  rw [Laws.fmul_of_finite (by decide +kernel) h1, h2]
  have hu : (units f0).natAbs = 0 := by decide +kernel
  rw [hu, Nat.zero_mul]
  decide +kernel

/-- A voice without an accent at full volume, with a given `y4`. -/
def vcaState (y4 : F64) : State :=
  let s := withP [(.volume, f1)] (withD [(.y4, y4)])
  { s with wires := { s.wires with g := f1, vcaEnv := f1 } }

/-- Both clauses: a sample that is finite, and one that is not. -/
theorem witness_VcaStep :
    isFinite32 (f32 (fmul (filtOut (vcaState f1)) (vcaGain voicing (vcaState f1)))) = true ∧
    isFinite32 (f32 (fmul (filtOut (vcaState (finf false))) (vcaGain voicing (vcaState (finf false))))) = false := by
  have h : ∀ y, vcaGain voicing (vcaState y) = fmul (fmul f1 f1) (fadd f1 (fmul (fmul f0 f0) voicing.accentVcaGain)) :=
    fun _ => rfl
  have h0 : fmul f0 f0 = f0 := by decide +kernel
  rw [h, h, h0, noBoost]
  decide +kernel

theorem witness_SilentVcaStoresZero :
    paramsInRange State.reset.params ∧ fmag State.reset.wires.vcaEnv = 0 ∧
    isFinite (fmul (fmul (fnat 2) State.reset.wires.g) State.reset.voice.y4) = true ∧
    ∃ t, exec .vca State.reset = .next t :=
  ⟨witness_paramsInRange_reset, by decide +kernel, by decide +kernel, _, rfl⟩

/-- Two states that differ in the gate, the note, `DIAG` and `NFCNT`. -/
def otherBookkeeping : State :=
  { State.reset with
    diag := 15#4, nfcnt := 7#8
    voice := { Voice.zero with gate := .sounding, slideActive := true, currentNote := 60#7 } }

theorem witness_StagesIgnoreBookkeeping :
    Instr.place .vca = .stage ∧ withoutBookkeeping State.reset = withoutBookkeeping otherBookkeeping ∧
    State.reset ≠ otherBookkeeping ∧
    ∃ t1 t2, exec .vca State.reset = .next t1 ∧ exec .vca otherBookkeeping = .next t2 :=
  ⟨rfl, rfl, by decide, _, _, rfl, rfl⟩

/-- Each clause of the matrix has an instruction it speaks of. -/
theorem witness_AccessMatrix :
    (∃ t, exec .osc State.reset = .next t) ∧ mayWrite .osc .y1 = false ∧ mayWriteFlags .osc = false ∧
    mayWriteDiag .osc = false := ⟨⟨_, rfl⟩, rfl, rfl, rfl⟩

/-- A sounding voice and the command `RESET`. -/
theorem witness_GateFallsOnlyByReset :
    ∃ s t : State, step s = .next t ∧ s.voice.gate = .sounding ∧ t.voice.gate = .silent :=
  ⟨withCommand otherBookkeeping 0x5000000000000000#64, _, rfl, rfl, rfl⟩

/-- A staged volume of 1 and a `RENDER`. -/
theorem witness_ParametersChangeOnlyAtRender :
    ∃ s t : State, step s = .next t ∧ t.params ≠ s.params :=
  ⟨withCommand { State.reset with staging := { resetStaging with volume := 0x3F800000#32 } } 0x3000000000000000#64,
    _, rfl, by decide +kernel⟩

/-- A bit that stays set over a step, and the command that clears it. -/
theorem witness_DiagnosticsAreSticky :
    (∃ t, step otherBookkeeping = .next t ∧ otherBookkeeping.diag &&& t.diag = otherBookkeeping.diag) ∧
    (∃ t, step (withCommand otherBookkeeping 0x6000000000000001#64) = .next t ∧ t.diag = 0#4) :=
  ⟨⟨_, rfl, rfl⟩, ⟨_, rfl, rfl⟩⟩

theorem witness_DiagnosticsNeverReachTheSound :
    ∃ s1 s2 t1 t2 : State, withoutDiagnostics s1 = withoutDiagnostics s2 ∧ s1 ≠ s2 ∧ step s1 = .next t1 ∧
      step s2 = .next t2 :=
  ⟨withStage State.reset .vca, { withStage State.reset .vca with diag := 5#4, nfcnt := 255#8 }, _, _, rfl, by decide,
    rfl, rfl⟩

theorem witness_EnvelopesStayInUnit :
    envelopesInUnit (withStage (withD [(.mainEnv, f1), (.rc1, f1)]) .env).voice = true ∧
    ∃ t, step (withStage (withD [(.mainEnv, f1), (.rc1, f1)]) .env) = .next t :=
  ⟨by decide +kernel, _, rfl⟩

/-- Before `SAN`, where the premise asks nothing, with a register that is not finite. -/
theorem witness_FilterStaysFinite :
    (∃ s t : State, (beforeSanitize s = false → filterFinite s.voice = true) ∧ filterFinite s.voice = false ∧
      step s = .next t) ∧
    (∃ s t : State, beforeSanitize s = false ∧ filterFinite s.voice = true ∧ step s = .next t) :=
  ⟨⟨withStage (withD [(.y1, fnan)]) .san, _, by decide +kernel, by decide +kernel, rfl⟩,
    ⟨withStage State.reset .filt, _, rfl, by decide +kernel, rfl⟩⟩

theorem witness_ParametersStayInRange :
    ∃ s t : State, paramsInRange s.params ∧ (∀ q, fsign (s.params.get q) = false) ∧ step s = .next t :=
  ⟨withCommand State.reset 0x3000000000000003#64, _, witness_paramsInRange_reset,
    fun q => by cases q <;> decide +kernel, rfl⟩

theorem witness_SamplesStayFinite :
    ∃ s t : State, (Memory.wf s.out = true ∧ samplesFinite s.out = true) ∧ s.out ≠ [] ∧ step s = .next t :=
  ⟨{ withStage State.reset .vca with out := [(0, 0x3F800000#32)], pos := 1#32, n := 2#32 }, _, by decide, by decide, rfl⟩

/-- The greatest phase below 1. -/
theorem witness_PhaseStaysInUnit :
    phaseInUnit (withStage (withD [(.phase, 0x3FEFFFFFFFFFFFFF#64)]) .osc).voice = true ∧
    ∃ t, step (withStage (withD [(.phase, 0x3FEFFFFFFFFFFFFF#64)]) .osc) = .next t :=
  ⟨by decide +kernel, _, rfl⟩

/-- A glide from 0 to a note. -/
theorem witness_PitchStaysBounded :
    pitchBounded (withStage (withD [(.pitchTarget, freqOf voicing 60)]) .pslew).voice ∧
    ∃ t, step (withStage (withD [(.pitchTarget, freqOf voicing 60)]) .pslew) = .next t := by
  refine ⟨⟨.inr ⟨60, rfl⟩, ?_⟩, _, rfl⟩
  show within f0 (fnat 16384) f0 = true
  decide +kernel

/-- Inside a call: an event applied, one sample stored, the second about to be. -/
theorem witness_SchedulerStaysSound :
    ∃ s t : State, schedulerSound s ∧ s.sched = .loop .vca ∧ step s = .next t := by
  refine ⟨{ withStage State.reset .vca with
    evq := [event3 - 3#64], evi := 1#32, out := [(0, 0#32)], pos := 1#32, n := 2#32 }, _, ?_, rfl, rfl⟩
  refine ⟨by decide, Laws.evqDepth_limits.1, by decide, by decide, by decide, by decide, by decide⟩

/-- A call of eight samples with one event, and a command behind it. -/
theorem witness_StepsComeToTheWholeCall :
    ∃ s : State, s.sched = .idle ∧
      s.port = 0x3000000100000008#64 :: ([event3] ++ [0x6000000000000000#64]) ∧
      decodeTop 0x3000000100000008#64 = .ok (.render 1 8) ∧ [event3].length = (1#24).toNat :=
  ⟨{ State.reset with port := [0x3000000100000008#64, event3, 0x6000000000000000#64] }, rfl, rfl, by decide, rfl⟩

/-- Both events, and the ends of the range of `t`: the first and the last sample of a call. -/
theorem witness_BlockSplitIsInvisible :
    (1#4 = 1#4 ∨ 1#4 = 2#4) ∧ (2#4 = 1#4 ∨ 2#4 = 2#4) ∧
    (0#32).toNat < (8#32).toNat ∧ (7#32).toNat < (8#32).toNat := by decide

/-- A queue of two: an event at the last sample before the split, and one at the last sample of the call, in the second call's
and in the whole call's words; and the split at the end, with no event behind it. -/
theorem witness_BlockSplitAmongEvents :
    ((4#32).toNat ≤ (8#32).toNat ∧ [event3].length + [event3].length ≤ testVoicing.evqDepth ∧
      (∀ w ∈ [event3], legalEventWord w = true ∧ (fieldOffset w).toNat < (4#32).toNat) ∧
      (∀ w ∈ [event3], legalEventWord w = true ∧ (fieldOffset w).toNat < (8#32 - 4#32).toNat) ∧
      decodePayload (Safety.delayed 4#32 event3) = .ok (.noteon 60 100 false false 7)) ∧
    ((8#32).toNat ≤ (8#32).toNat ∧ [event3].length + ([] : List Word64).length ≤ testVoicing.evqDepth ∧
      (∀ w ∈ ([] : List Word64), legalEventWord w = true ∧ (fieldOffset w).toNat < (8#32 - 8#32).toNat)) :=
  ⟨⟨by decide, by decide, List.forall_mem_singleton.mpr (by decide), List.forall_mem_singleton.mpr (by decide), by decide⟩,
    by decide, by decide, by simp⟩

/-- A tie, 5/2, whose even neighbour is 2. -/
theorem witness_RoundingIsNearestEven :
    0 < 2 ∧ 2 * |((nearestEven 5 2 * 2 : Nat) : Int) - 5| = 2 ∧ nearestEven 5 2 = 2 := by decide +kernel

/-- Infinity, the greatest finite pattern, and a subnormal. -/
theorem witness_Binary32IsHeldExactly :
    mag32 0x7F800000#32 ≤ infMag32 ∧ (mag32 0xFF7FFFFF#32 ≤ infMag32 ∧ isFinite32 0xFF7FFFFF#32 = true) ∧
    isFinite32 1#32 = true := by decide +kernel

end Sys2Proof.Tests
end

section
/-! PROOFS. The arithmetic of `00_scope.md` R7: rounding to a whole number is to nearest even, and binary64 holds every
binary32 pattern. -/

namespace Sys2Proof.Proofs.Arith

open Sys2Proof Sys2Proof.Machine Sys2Proof.Laws

/-! ### Rounding to a whole number is to nearest, ties to even -/

/-- What `nearestEven` can answer: the quotient where the remainder is at most half the divisor, or one more where it is at
least half; at exactly half, whichever is even. -/
theorem nearestEven_cases (n d : Nat) :
    (nearestEven n d = n / d ∧ 2 * (n % d) ≤ d ∧ (2 * (n % d) = d → nearestEven n d % 2 = 0)) ∨
    (nearestEven n d = n / d + 1 ∧ d ≤ 2 * (n % d) ∧ (2 * (n % d) = d → nearestEven n d % 2 = 0)) := by
  simp only [nearestEven]
  split
  · right; omega
  · left; omega

/-- A multiple of `d` is at least as far from `n` as the remainder if it is not above `n / d` times `d`, and at least as
far as the rest of the divisor if it is above. -/
theorem remainder_le_dist_or (n d m : Nat) :
    ((n % d : Nat) : Int) ≤ |((m * d : Nat) : Int) - n| ∨ (d : Int) - (n % d : Nat) ≤ |((m * d : Nat) : Int) - n| := by
  have hn : n / d * d + n % d = n := Nat.div_add_mod' n d
  rw [le_abs, le_abs]
  rcases Nat.lt_or_ge (n / d) m with hm | hm
  · have hmd : (n / d + 1) * d ≤ m * d := Nat.mul_le_mul_right d hm
    rw [Nat.succ_mul] at hmd
    right; left; omega
  · have hmd : m * d ≤ n / d * d := Nat.mul_le_mul_right d hm
    left; right; omega

/-- Settles O57: the multiple answered is the remainder away from `n` or the rest of the divisor, whichever is less. -/
theorem roundingIsNearestEven : Obligations.RoundingIsNearestEven := by
  intro n d m hd
  have hn : n / d * d + n % d = n := Nat.div_add_mod' n d
  have hr : n % d < d := Nat.mod_lt n hd
  have hm := remainder_le_dist_or n d m
  obtain ⟨hq, hhalf, htie⟩ | ⟨hq, hhalf, htie⟩ := nearestEven_cases n d
  · have hdist : |((nearestEven n d * d : Nat) : Int) - n| = (n % d : Nat) := by
      rw [hq, abs_of_nonpos (by omega)]; omega
    rw [hdist]
    exact ⟨by omega, fun h => htie (by omega)⟩
  · have hdist : |((nearestEven n d * d : Nat) : Int) - n| = (d : Int) - (n % d : Nat) := by
      rw [hq, Nat.succ_mul, abs_of_nonneg (by omega)]; omega
    rw [hdist]
    exact ⟨by omega, fun h => htie (by omega)⟩

/-! ### What a format holds -/

/-- A magnitude of a format is a number of `frac + 1` bits times a power of two. -/
theorem magUnits_eq_mul_two_pow (frac mag : Nat) :
    ∃ m e, m < 2 ^ (frac + 1) ∧ magUnits frac mag = m * 2 ^ e := by
  have hlt : mag % 2 ^ frac < 2 ^ frac := Nat.mod_lt _ (Nat.two_pow_pos frac)
  unfold magUnits
  split
  · exact ⟨mag % 2 ^ frac, 0, by rw [pow_succ]; omega, by simp⟩
  · exact ⟨2 ^ frac + mag % 2 ^ frac, mag / 2 ^ frac - 1, by rw [pow_succ]; omega, rfl⟩

/-- Rounding drops no set bit of a number of `frac + 1` bits times a power of two. -/
theorem two_pow_excess_dvd {frac m : Nat} (e : Nat) (hm : m < 2 ^ (frac + 1)) :
    2 ^ excess frac (m * 2 ^ e) ∣ m * 2 ^ e := by
  rcases Nat.eq_zero_or_pos m with rfl | hpos
  · simp
  · have hlog : Nat.log2 (m * 2 ^ e) < frac + 1 + e := by
      rw [Nat.log2_lt (by positivity), pow_add]
      exact Nat.mul_lt_mul_of_pos_right hm (Nat.two_pow_pos e)
    have hle : excess frac (m * 2 ^ e) ≤ e := by unfold excess; omega
    exact (pow_dvd_pow 2 hle).mul_left m

/-- A pattern put together from an exponent `k` and the kept bits `c`, hidden bit included, stands for `c * 2 ^ k` units:
the hidden bit carries into the exponent field, and it may be missing only at exponent 0, in a subnormal. -/
theorem magUnits_add {frac k c : Nat} (hc : c < 2 ^ (frac + 1)) (hidden : 0 < k → 2 ^ frac ≤ c) :
    magUnits frac (2 ^ frac * k + c) = c * 2 ^ k := by
  have hp : 0 < 2 ^ frac := Nat.two_pow_pos frac
  rw [pow_succ] at hc
  unfold magUnits
  rw [Nat.mul_add_mod, Nat.mul_add_div hp]
  rcases Nat.lt_or_ge c (2 ^ frac) with hlt | hge
  · have hk : k = 0 := by omega
    simp [hk, Nat.div_eq_of_lt hlt, Nat.mod_eq_of_lt hlt]
  · have hdiv : c / 2 ^ frac = 1 := Nat.div_eq_of_lt_le (by omega) (by omega)
    have hmod : 2 ^ frac + c % 2 ^ frac = c := by
      have := Nat.div_add_mod c (2 ^ frac)
      rwa [hdiv, Nat.mul_one] at this
    rw [hdiv, if_neg (by omega), hmod, Nat.add_sub_cancel]

/-- A value whose bits fit the fraction is rounded to itself, where it is not rounded to infinity. -/
theorem magUnits_roundMag {frac inf m e : Nat} (hm : m < 2 ^ (frac + 1))
    (hfin : roundMag frac inf (m * 2 ^ e) 1 < inf) :
    magUnits frac (roundMag frac inf (m * 2 ^ e) 1) = m * 2 ^ e := by
  obtain ⟨c, hc⟩ := two_pow_excess_dvd e hm
  have hlt := lt_pow_excess frac (m * 2 ^ e)
  have hhid := @pow_excess_le frac (m * 2 ^ e)
  generalize hk : excess frac (m * 2 ^ e) = k at *
  have hkp : 0 < 2 ^ k := Nat.two_pow_pos k
  have hround : roundMag frac inf (m * 2 ^ e) 1 = min inf (2 ^ frac * k + c) := by
    simp only [roundMag, Nat.div_one, hk, one_mul]
    rw [hc, mul_comm (2 ^ k) c, nearestEven_exact c hkp]
  rw [hround] at hfin ⊢
  rw [min_eq_right (by omega), magUnits_add, hc, mul_comm]
  · refine Nat.lt_of_mul_lt_mul_left (a := 2 ^ k) ?_
    rwa [← hc, ← pow_add, ← Nat.add_assoc]
  · intro h
    refine Nat.le_of_mul_le_mul_left (c := 2 ^ k) ?_ hkp
    rw [← hc, ← pow_add]
    exact hhid h

/-! ### Binary32 patterns in binary64 -/

/-- A pattern is its sign and its magnitude. -/
theorem pack32_sign32_mag32 (w : F32) : pack32 (sign32 w) (mag32 w) = w := by
  have hw : w.toNat < 2 ^ 32 := w.isLt
  have hs : sign32 w = decide (2 ^ 31 ≤ w.toNat) := by
    unfold sign32
    rw [BitVec.getLsbD, Nat.testBit_eq_decide_div_mod_eq, decide_eq_decide]
    omega
  apply BitVec.eq_of_toNat_eq
  unfold pack32 mag32
  rw [BitVec.toNat_ofNat, hs]
  simp only [decide_eq_true_eq]
  split <;> omega

theorem f32bits_of_inf {w : F32} (h : mag32 w = infMag32) : f32bits w = finf (sign32 w) := by
  unfold f32bits; rw [if_neg (by omega), if_pos h]

theorem f32bits_of_finite {w : F32} (h : isFinite32 w = true) :
    f32bits w = roundUnits (sign32 w) (scale3264 * magUnits fracBits32 (mag32 w)) 1 := by
  rw [isFinite32, decide_eq_true_eq] at h
  unfold f32bits; rw [if_neg (by omega), if_neg (by omega)]

theorem f32_finf (neg : Bool) : f32 (finf neg) = pack32 neg infMag32 := by
  have hs : fsign (finf neg) = neg := fsign_fpack infMag64_lt
  have hm : fmag (finf neg) = infMag64 := fmag_fpack infMag64_lt
  unfold f32
  simp [isNaN, isInf, hs, hm]

theorem f32_of_finite {x : F64} (h : isFinite x = true) :
    f32 x = pack32 (fsign x) (roundMag fracBits32 infMag32 (units x).natAbs scale3264) := by
  unfold f32; simp [isNaN_of_isFinite h, isInf_of_isFinite h]

/-- The greatest binary32 magnitude is below the greatest binary64 one: the exponent range of binary64 is wider. -/
theorem scale3264_mul_magUnits_le {mag : Nat} (h : mag ≤ infMag32) :
    scale3264 * magUnits fracBits32 mag ≤ magUnits fracBits64 magTop := by
  have hinf : scale3264 * magUnits fracBits32 infMag32 ≤ magUnits fracBits64 magTop := by decide +kernel
  exact (Nat.mul_le_mul_left _ (magUnits_le_iff.mpr h)).trans hinf

theorem isFinite_f32bits {w : F32} (h : isFinite32 w = true) : isFinite (f32bits w) = true := by
  rw [f32bits_of_finite h, isFinite, fmag_roundUnits, decide_eq_true_eq]
  rw [isFinite32, decide_eq_true_eq] at h
  have htop : magTop < infMag64 := by decide +kernel
  refine lt_of_le_of_lt (roundMag_le htop.le Nat.one_pos ?_) htop
  rw [Nat.mul_one]
  exact scale3264_mul_magUnits_le h.le

theorem fsign_f32bits {w : F32} (h : isFinite32 w = true) : fsign (f32bits w) = sign32 w := by
  rw [f32bits_of_finite h, fsign_roundUnits]

/-- The value of a finite pattern is kept: its 24 bits fit the 53 of binary64. -/
theorem natAbs_units_f32bits {w : F32} (h : isFinite32 w = true) :
    (units (f32bits w)).natAbs = magUnits fracBits32 (mag32 w) * scale3264 := by
  have hfin := isFinite_f32bits h
  obtain ⟨m, e, hm, hmag⟩ := magUnits_eq_mul_two_pow fracBits32 (mag32 w)
  have hm64 : m < 2 ^ (fracBits64 + 1) := hm.trans_le (Nat.pow_le_pow_right (by decide) (by decide))
  have hval : scale3264 * magUnits fracBits32 (mag32 w) = m * 2 ^ (e + (768 + 157)) := by
    rw [hmag, scale3264_eq, pow_add 2 e, mul_comm (2 ^ _), mul_assoc]
  rw [natAbs_units, Nat.mul_comm _ scale3264]
  rw [f32bits_of_finite h, hval] at hfin ⊢
  rw [isFinite, fmag_roundUnits, decide_eq_true_eq] at hfin
  rw [fmag_roundUnits]
  exact magUnits_roundMag hm64 hfin

theorem f32_f32bits_of_finite {w : F32} (h : isFinite32 w = true) : f32 (f32bits w) = w := by
  have hle : mag32 w ≤ infMag32 := by rw [isFinite32, decide_eq_true_eq] at h; exact h.le
  have hscale : 0 < scale3264 := by rw [scale3264_eq]; positivity
  rw [f32_of_finite (isFinite_f32bits h), natAbs_units_f32bits h, fsign_f32bits h, roundMag_exact hle hscale,
    pack32_sign32_mag32]

theorem f32_f32bits_of_inf {w : F32} (h : mag32 w = infMag32) : f32 (f32bits w) = w := by
  rw [f32bits_of_inf h, f32_finf, ← h, pack32_sign32_mag32]

/-- Settles O58: infinity by its pattern, a finite pattern by its value, which both formats hold. -/
theorem binary32IsHeldExactly : Obligations.Binary32IsHeldExactly := by
  intro w hw
  refine ⟨?_, fun h => ⟨isFinite_f32bits h, fsign_f32bits h, ?_⟩⟩
  · rcases Nat.lt_or_eq_of_le hw with hlt | hinf
    · exact f32_f32bits_of_finite (decide_eq_true hlt)
    · exact f32_f32bits_of_inf hinf
  · rw [natAbs_units_f32bits h, scale3264_eq]

end Sys2Proof.Proofs.Arith
end

section
/-! PROOFS. What one instruction writes and what it leaves alone (`10_state.md` R33), in the form the invariants use: every
instruction as the state it answers, then one frame rule for each part of the state. -/

namespace Sys2Proof.Proofs.Access

open Sys2Proof Sys2Proof.Machine Sys2Proof.Safety Sys2Proof.Laws

/-! ### The state each instruction answers -/

theorem next_inj {s t : State} (h : (.next s : Host.Outcome State Fault Refusal) = .next t) : s = t :=
  Host.Outcome.next.inj h

theorem exec_noteon_eq {note velocity : BitVec 7} {accent slide : Bool} {off : BitVec 32} {s t : State}
    (h : exec (.noteon note velocity accent slide off) s = .next t) : t = noteOn voicing note accent slide s :=
  (next_inj h).symm

theorem exec_noteoff_eq {note velocity : BitVec 7} {accent slide : Bool} {off : BitVec 32} {s t : State}
    (h : exec (.noteoff note velocity accent slide off) s = .next t) : t = s := (next_inj h).symm

theorem exec_render_eq {evCount : BitVec 24} {n : BitVec 32} {s t : State}
    (h : exec (.render evCount n) s = .next t) : t = startRender evCount n s := (next_inj h).symm

theorem exec_ldparam_eq {index : BitVec 8} {value : F32} {s t : State}
    (h : exec (.ldparam index value) s = .next t) : t = writeStaging index.toNat value s := (next_inj h).symm

theorem exec_reset_eq {s t : State} (h : exec .reset s = .next t) : t = { s with voice := Voice.zero } :=
  (next_inj h).symm

theorem exec_rdstat_eq {clr : Bool} {s t : State} (h : exec (.rdstat clr) s = .next t) :
    t = if clr then clearDiag (respond (statusWord s) s) else respond (statusWord s) s := (next_inj h).symm

theorem exec_pslew_eq {s t : State} (h : exec .pslew s = .next t) : t = pitchSlew voicing s := (next_inj h).symm

theorem exec_osc_eq {s t : State} (h : exec .osc s = .next t) : t = oscillator voicing s := (next_inj h).symm

theorem exec_env_eq {s t : State} (h : exec .env s = .next t) : t = envelopes voicing s := (next_inj h).symm

theorem exec_coef_eq {s t : State} (h : exec .coef s = .next t) : t = coefficients voicing s := (next_inj h).symm

theorem exec_filt_eq {s t : State} (h : exec .filt s = .next t) : t = ladderFilter voicing s := (next_inj h).symm

theorem exec_san_eq {s t : State} (h : exec .san s = .next t) : t = sanitize s := (next_inj h).symm

theorem exec_vca_eq {s t : State} (h : exec .vca s = .next t) : t = amplifier voicing s := (next_inj h).symm

/-! ### What an event and a staging write leave alone -/

/-- `NOTEON` writes two envelopes and the two pitch registers only. -/
theorem noteOn_get (c : Config.Voicing) (note : BitVec 7) (accent slide : Bool) (s : State) {q : DReg}
    (h1 : q ≠ .mainEnv) (h2 : q ≠ .ampEnv) (h3 : q ≠ .pitchCurrent) (h4 : q ≠ .pitchTarget) :
    (noteOn c note accent slide s).voice.get q = s.voice.get q := by
  unfold noteOn
  split
  all_goals
    cases q with
    | mainEnv => exact absurd rfl h1
    | ampEnv => exact absurd rfl h2
    | pitchCurrent => exact absurd rfl h3
    | pitchTarget => exact absurd rfl h4
    | phase | y0 | y1 | y2 | y3 | y4 | hpz | rc1 | rc2 => rfl

/-- The two things a staging write can do. -/
theorem writeStaging_cases (k : Nat) (v : F32) (s : State) :
    (∃ p, writeStaging k v s = { s with staging := s.staging.set p v }) ∨
      writeStaging k v s = raiseCond .illegalWord s := by
  rcases Nat.lt_or_ge k 12 with hk | hk
  · obtain ⟨p, hp⟩ := Option.isSome_iff_exists.mp (paramAt_isSome.mpr hk)
    exact .inl ⟨p, writeStaging_some hp v s⟩
  · exact .inr (writeStaging_none hk v s)

@[simp] theorem writeStaging_voice (k : Nat) (v : F32) (s : State) : (writeStaging k v s).voice = s.voice := by
  obtain ⟨p, h⟩ | h := writeStaging_cases k v s <;> simp [h]

@[simp] theorem writeStaging_params (k : Nat) (v : F32) (s : State) : (writeStaging k v s).params = s.params := by
  obtain ⟨p, h⟩ | h := writeStaging_cases k v s <;> simp [h]

@[simp] theorem writeStaging_sched (k : Nat) (v : F32) (s : State) : (writeStaging k v s).sched = s.sched := by
  obtain ⟨p, h⟩ | h := writeStaging_cases k v s <;> simp [h]

/-! ### One frame rule for each part of the state -/

/-- A data register outside an instruction's column is unchanged. -/
theorem exec_readD {i : Instr} {r : DReg} {s t : State} (h : exec i s = .next t) (hr : mayWrite i r = false) :
    readD t r = readD s r := by
  cases i with
  | noteon note velocity accent slide off =>
    simp only [mayWrite, decide_eq_false_iff_not, not_or] at hr
    obtain ⟨h1, h2, h3, h4⟩ := hr
    rw [exec_noteon_eq h]
    exact noteOn_get voicing note accent slide s h1 h2 h3 h4
  | noteoff => rw [exec_noteoff_eq h]
  | render => rw [exec_render_eq h]; rfl
  | ldparam => rw [exec_ldparam_eq h, readD, writeStaging_voice]; rfl
  | reset => exact absurd hr (by simp [mayWrite])
  | rdstat clr => rw [exec_rdstat_eq h]; cases clr <;> rfl
  | pslew =>
    rw [exec_pslew_eq h, readD, pitchSlew, writeD_get, if_neg (by simpa [mayWrite] using hr)]; rfl
  | osc =>
    rw [exec_osc_eq h, readD, oscillator, writeD_get, if_neg (by simpa [mayWrite] using hr)]; rfl
  | env =>
    simp only [mayWrite, decide_eq_false_iff_not, not_or] at hr
    obtain ⟨h1, h2, h3, h4⟩ := hr
    rw [exec_env_eq h]
    exact envelopes_get voicing s h3 h4 h1 h2
  | coef => rw [exec_coef_eq h]; rfl
  | filt =>
    rw [exec_filt_eq h]
    exact ladderFilter_get voicing s (by simpa [mayWrite] using hr)
  | san =>
    simp only [mayWrite, decide_eq_false_iff_not] at hr
    rw [exec_san_eq h, readD, sanitize_get, if_neg (fun hc => hr hc.1)]; rfl
  | vca => rw [exec_vca_eq h, readD, amplifier_voice]; rfl

/-- The flags, the note and the gate change by `NOTEON` and `RESET` only. -/
theorem exec_flags {i : Instr} {s t : State} (h : exec i s = .next t) (hi : mayWriteFlags i = false) :
    t.voice.accentActive = s.voice.accentActive ∧ t.voice.slideActive = s.voice.slideActive ∧
      t.voice.currentNote = s.voice.currentNote ∧ t.voice.gate = s.voice.gate := by
  cases i with
  | noteon => exact absurd hi (by simp [mayWriteFlags])
  | reset => exact absurd hi (by simp [mayWriteFlags])
  | noteoff => simp [exec_noteoff_eq h]
  | render => simp [exec_render_eq h]
  | ldparam => simp [exec_ldparam_eq h]
  | rdstat clr => rw [exec_rdstat_eq h]; cases clr <;> simp
  | pslew => simp [exec_pslew_eq h, pitchSlew]
  | osc => simp [exec_osc_eq h, oscillator]
  | env => simp [exec_env_eq h]
  | coef => simp [exec_coef_eq h]
  | filt => simp [exec_filt_eq h]
  | san => simp [exec_san_eq h]
  | vca => simp [exec_vca_eq h]

/-- The active parameters change by `RENDER` only. -/
theorem exec_params {i : Instr} {s t : State} (h : exec i s = .next t) (hi : ∀ e n, i ≠ .render e n) :
    t.params = s.params := by
  cases i with
  | render e n => exact absurd rfl (hi e n)
  | noteon => simp [exec_noteon_eq h]
  | noteoff => simp [exec_noteoff_eq h]
  | ldparam => simp [exec_ldparam_eq h]
  | reset => simp [exec_reset_eq h]
  | rdstat clr => rw [exec_rdstat_eq h]; cases clr <;> simp
  | pslew => simp [exec_pslew_eq h]
  | osc => simp [exec_osc_eq h]
  | env => simp [exec_env_eq h]
  | coef => simp [exec_coef_eq h]
  | filt => simp [exec_filt_eq h]
  | san => simp [exec_san_eq h]
  | vca => simp [exec_vca_eq h]

/-- The staging registers change by `LDPARAM` only. -/
theorem exec_staging {i : Instr} {s t : State} (h : exec i s = .next t) (hi : ∀ x v, i ≠ .ldparam x v) :
    t.staging = s.staging := by
  cases i with
  | ldparam x v => exact absurd rfl (hi x v)
  | noteon => simp [exec_noteon_eq h]
  | noteoff => simp [exec_noteoff_eq h]
  | render => simp [exec_render_eq h]
  | reset => simp [exec_reset_eq h]
  | rdstat clr => rw [exec_rdstat_eq h]; cases clr <;> simp
  | pslew => simp [exec_pslew_eq h]
  | osc => simp [exec_osc_eq h]
  | env => simp [exec_env_eq h]
  | coef => simp [exec_coef_eq h]
  | filt => simp [exec_filt_eq h]
  | san => simp [exec_san_eq h]
  | vca => simp [exec_vca_eq h]

/-- `DIAG` and `NFCNT` change by the instructions that may raise a condition and by `RDSTAT` only. -/
theorem exec_diag {i : Instr} {s t : State} (h : exec i s = .next t) (hi : mayWriteDiag i = false) :
    t.diag = s.diag ∧ t.nfcnt = s.nfcnt := by
  cases i with
  | env => exact absurd hi (by simp [mayWriteDiag])
  | san => exact absurd hi (by simp [mayWriteDiag])
  | vca => exact absurd hi (by simp [mayWriteDiag])
  | ldparam => exact absurd hi (by simp [mayWriteDiag])
  | rdstat => exact absurd hi (by simp [mayWriteDiag])
  | noteon => simp [exec_noteon_eq h]
  | noteoff => simp [exec_noteoff_eq h]
  | render => simp [exec_render_eq h]
  | reset => simp [exec_reset_eq h]
  | pslew => simp [exec_pslew_eq h]
  | osc => simp [exec_osc_eq h]
  | coef => simp [exec_coef_eq h]
  | filt => simp [exec_filt_eq h]

/-- Settles O39: the frame rules together. -/
theorem accessMatrix : Obligations.AccessMatrix := fun _ _ _ h =>
  ⟨fun _ hr => exec_readD h hr, exec_flags h, exec_params h, exec_staging h, exec_diag h⟩

end Sys2Proof.Proofs.Access
end

section
/-! PROOFS. `DIAG` and `NFCNT` (`10_state.md` R21): they are sticky, and nothing else depends on them. -/

namespace Sys2Proof.Proofs.Diagnostics

open Sys2Proof Sys2Proof.Machine Sys2Proof.Safety Sys2Proof.Laws Sys2Proof.Proofs.Access

/-! ### The state without its diagnostics -/

@[simp] theorem withoutDiagnostics_sched (s : State) : (withoutDiagnostics s).sched = s.sched := rfl

@[simp] theorem withoutDiagnostics_n (s : State) : (withoutDiagnostics s).n = s.n := rfl

@[simp] theorem withoutDiagnostics_pos (s : State) : (withoutDiagnostics s).pos = s.pos := rfl

@[simp] theorem withoutDiagnostics_evi (s : State) : (withoutDiagnostics s).evi = s.evi := rfl

@[simp] theorem withoutDiagnostics_evq (s : State) : (withoutDiagnostics s).evq = s.evq := rfl

@[simp] theorem withoutDiagnostics_port (s : State) : (withoutDiagnostics s).port = s.port := rfl

/-! ### Operations that are blind to the diagnostics -/

/-- What `f` does beside the diagnostics, it does from any diagnostics. -/
def Blind (f : State → State) : Prop := ∀ s, withoutDiagnostics (f s) = withoutDiagnostics (f (withoutDiagnostics s))

/-- The same of an operation that may stop. -/
def BlindOutcome (f : State → Host.Outcome State Fault Refusal) : Prop :=
  ∀ s, thenNext (f s) withoutDiagnostics = thenNext (f (withoutDiagnostics s)) withoutDiagnostics

theorem Blind.comp {f g : State → State} (hg : Blind g) (hf : Blind f) : Blind (fun s => g (f s)) := fun s => by
  calc withoutDiagnostics (g (f s))
      = withoutDiagnostics (g (withoutDiagnostics (f s))) := hg _
    _ = withoutDiagnostics (g (withoutDiagnostics (f (withoutDiagnostics s)))) := by rw [hf s]
    _ = withoutDiagnostics (g (f (withoutDiagnostics s))) := (hg _).symm

theorem Blind.next {f : State → State} (hf : Blind f) : BlindOutcome (fun s => .next (f s)) :=
  fun s => congrArg Host.Outcome.next (hf s)

/-- Two outcomes that agree beside the diagnostics still do when a blind operation carries them on. -/
theorem Blind.thenNext_congr {g : State → State} (hg : Blind g) {o o' : Host.Outcome State Fault Refusal}
    (h : thenNext o withoutDiagnostics = thenNext o' withoutDiagnostics) :
    thenNext (thenNext o g) withoutDiagnostics = thenNext (thenNext o' g) withoutDiagnostics := by
  have push (o : Host.Outcome State Fault Refusal) : thenNext (thenNext o g) withoutDiagnostics =
      thenNext (thenNext o withoutDiagnostics) (fun s => withoutDiagnostics (g s)) := by
    cases o with
    | next s => exact congrArg Host.Outcome.next (hg s)
    | fault e => rfl
    | refused r => rfl
  rw [push o, push o', h]

/-! ### The parts of an instruction -/

theorem pitchSlew_blind (c : Config.Voicing) : Blind (pitchSlew c) := fun _ => rfl

theorem oscillator_blind (c : Config.Voicing) : Blind (oscillator c) := fun _ => rfl

theorem coefficients_blind (c : Config.Voicing) : Blind (coefficients c) := fun _ => rfl

theorem stepRc1_blind (c : Config.Voicing) : Blind (stepRc1 c) := fun s => by rw [stepRc1_eq, stepRc1_eq]; rfl

theorem stepRc2_blind (c : Config.Voicing) : Blind (stepRc2 c) := fun s => by rw [stepRc2_eq, stepRc2_eq]; rfl

theorem decayMain_blind (c : Config.Voicing) : Blind (decayMain c) := fun s => by rw [decayMain_eq, decayMain_eq]; rfl

theorem decayAmp_blind (c : Config.Voicing) : Blind (decayAmp c) := fun s => by rw [decayAmp_eq, decayAmp_eq]; rfl

theorem setEnvWires_blind (c : Config.Voicing) : Blind (setEnvWires c) := fun _ => rfl

theorem envelopes_blind (c : Config.Voicing) : Blind (envelopes c) :=
  (decayAmp_blind c).comp ((decayMain_blind c).comp ((setEnvWires_blind c).comp
    ((stepRc2_blind c).comp (stepRc1_blind c))))

theorem filterInput_blind (c : Config.Voicing) : Blind (filterInput c) := fun _ => rfl

theorem filterY1_blind : Blind filterY1 := fun _ => rfl

theorem filterY2_blind : Blind filterY2 := fun _ => rfl

theorem filterY3_blind : Blind filterY3 := fun _ => rfl

theorem filterY4_blind : Blind filterY4 := fun _ => rfl

theorem ladderFilter_blind (c : Config.Voicing) : Blind (ladderFilter c) :=
  filterY4_blind.comp (filterY3_blind.comp (filterY2_blind.comp (filterY1_blind.comp (filterInput_blind c))))

theorem sanitizeReg_blind (r : DReg) : Blind (fun s => sanitizeReg s r) := fun s => by
  beta_reduce
  rw [sanitizeReg_eq, sanitizeReg_eq]; rfl

/-- A loop of blind turns is blind. -/
theorem foldl_blind {α : Type} {f : State → α → State} (h : ∀ a, Blind (fun s => f s a)) (l : List α) :
    Blind (fun s => l.foldl f s) := by
  induction l with
  | nil => exact fun _ => rfl
  | cons a l ih => exact ih.comp (h a)

theorem sanitize_blind : Blind sanitize := foldl_blind sanitizeReg_blind filterRegs

theorem amplifier_blind (c : Config.Voicing) : Blind (amplifier c) := fun s => by
  rw [amplifier, amplifier, storeSample_eq, storeSample_eq]; rfl

theorem noteOn_blind (c : Config.Voicing) (note : BitVec 7) (accent slide : Bool) :
    Blind (noteOn c note accent slide) := fun s => by
  have hr : retriggers (withoutDiagnostics s) slide = retriggers s slide := rfl
  unfold noteOn
  rw [hr]
  split <;> rfl

theorem writeStaging_blind (k : Nat) (v : F32) : Blind (writeStaging k v) := fun s => by
  unfold writeStaging
  split <;> rfl

/-- `RDSTAT` writes the diagnostics and the answers only. -/
theorem withoutDiagnostics_rdstat (clr : Bool) (st : BitVec 32) (s : State) :
    withoutDiagnostics (if clr then clearDiag (respond st s) else respond st s) = withoutDiagnostics s := by
  cases clr <;> rfl

theorem rdstat_blind (clr : Bool) :
    Blind (fun s => if clr then clearDiag (respond (statusWord s) s) else respond (statusWord s) s) := fun s => by
  rw [withoutDiagnostics_rdstat, withoutDiagnostics_rdstat]; rfl

/-! ### Instructions and the scheduler -/

theorem exec_blind (i : Instr) : BlindOutcome (exec i) := by
  cases i with
  | noteon note velocity accent slide off => exact (noteOn_blind voicing note accent slide).next
  | noteoff => exact fun _ => rfl
  | render => exact fun _ => rfl
  | ldparam index value => exact (writeStaging_blind index.toNat value).next
  | reset => exact fun _ => rfl
  | rdstat clr => exact (rdstat_blind clr).next
  | pslew => exact (pitchSlew_blind voicing).next
  | osc => exact (oscillator_blind voicing).next
  | env => exact (envelopes_blind voicing).next
  | coef => exact (coefficients_blind voicing).next
  | filt => exact (ladderFilter_blind voicing).next
  | san => exact sanitize_blind.next
  | vca => exact (amplifier_blind voicing).next

theorem nextEvent_blind : Blind nextEvent := fun _ => rfl

theorem runStage_blind (st : Stage) : BlindOutcome (runStage st) := fun s =>
  Blind.thenNext_congr (fun _ => rfl) (exec_blind st.instr s)

theorem acceptWord_blind (w : Word64) : BlindOutcome (acceptWord w) := fun s => by
  unfold acceptWord
  split
  · exact exec_blind _ s
  · rfl

theorem applyEvent_blind (w : Word64) : BlindOutcome (applyEvent w) := fun s => by
  unfold applyEvent
  split
  · exact nextEvent_blind.thenNext_congr (exec_blind _ s)
  · rfl

theorem boundary_blind : BlindOutcome boundary := fun s => by
  unfold boundary
  rw [withoutDiagnostics_evq, withoutDiagnostics_evi, withoutDiagnostics_n, withoutDiagnostics_pos]
  split
  · next w hw =>
    by_cases hlate : s.n.toNat ≤ (fieldOffset w).toNat
    · rw [if_pos hlate, if_pos hlate]; rfl
    · rw [if_neg hlate, if_neg hlate]
      by_cases hp : s.pos.toNat < (fieldOffset w).toNat
      · rw [if_pos hp, if_pos hp]; exact runStage_blind .pslew s
      · rw [if_neg hp, if_neg hp]; exact applyEvent_blind w s
  · by_cases hp : s.pos.toNat < s.n.toNat
    · rw [if_pos hp, if_pos hp]; exact runStage_blind .pslew s
    · rw [if_neg hp, if_neg hp]; rfl

theorem captureWord_blind (depth : Nat) (w : Word64) : Blind (captureWord depth w) := fun s => by
  unfold captureWord
  rw [withoutDiagnostics_evq]
  split
  · rfl
  · split <;> rfl

theorem captureStep_blind (left : BitVec 24) : BlindOutcome (captureStep left) := fun s => by
  unfold captureStep
  rw [withoutDiagnostics_port]
  split
  · rfl
  · split
    · rfl
    · exact congrArg Host.Outcome.next (captureWord_blind _ _ _)

theorem idleStep_blind : BlindOutcome idleStep := fun s => by
  unfold idleStep
  rw [withoutDiagnostics_port]
  split
  · rfl
  · exact acceptWord_blind _ _

theorem loopStep_blind (st : Stage) : BlindOutcome (loopStep st) := by
  cases st with
  | pslew => exact boundary_blind
  | osc => exact runStage_blind .osc
  | env => exact runStage_blind .env
  | coef => exact runStage_blind .coef
  | filt => exact runStage_blind .filt
  | san => exact runStage_blind .san
  | vca => exact runStage_blind .vca

theorem step_blind : BlindOutcome step := fun s => by
  unfold step advance
  rw [withoutDiagnostics_sched]
  split
  · exact idleStep_blind s
  · exact captureStep_blind _ s
  · exact loopStep_blind _ s

/-- Settles O43: both steps come, beside the diagnostics, to the step from the one state without them. -/
theorem diagnosticsNeverReachTheSound : Obligations.DiagnosticsNeverReachTheSound := by
  intro s1 s2 t1 t2 hs h1 h2
  refine next_inj ?_
  calc thenNext (.next t1) withoutDiagnostics
      = thenNext (step s1) withoutDiagnostics := by rw [h1]
    _ = thenNext (step (withoutDiagnostics s1)) withoutDiagnostics := step_blind s1
    _ = thenNext (step (withoutDiagnostics s2)) withoutDiagnostics := by rw [hs]
    _ = thenNext (step s2) withoutDiagnostics := (step_blind s2).symm
    _ = thenNext (.next t2) withoutDiagnostics := by rw [h2]

/-! ### The diagnostics only grow -/

/-- Every `DIAG` bit of `s` is set in `t`, and `NFCNT` is not less in `t`. -/
def DiagLe (s t : State) : Prop := s.diag &&& t.diag = s.diag ∧ s.nfcnt.toNat ≤ t.nfcnt.toNat

theorem DiagLe.of_eq {s t : State} (hd : t.diag = s.diag) (hn : t.nfcnt = s.nfcnt) : DiagLe s t := by
  simp [DiagLe, hd, hn]

theorem DiagLe.trans {s t u : State} (h : DiagLe s t) (k : DiagLe t u) : DiagLe s u := by
  obtain ⟨hd, hn⟩ := h
  obtain ⟨kd, kn⟩ := k
  refine ⟨?_, hn.trans kn⟩
  calc s.diag &&& u.diag = s.diag &&& t.diag &&& u.diag := by rw [hd]
    _ = s.diag &&& (t.diag &&& u.diag) := BitVec.and_assoc _ _ _
    _ = s.diag := by rw [kd, hd]

theorem and_or_self_left (d m : BitVec 4) : d &&& (d ||| m) = d := by
  ext i
  simp +contextual

theorem diagLe_raiseCond (k : Condition) (s : State) : DiagLe s (raiseCond k s) := by
  refine ⟨and_or_self_left s.diag (diagMask k), ?_⟩
  cases k with
  | numericInstability => exact le_sat8Succ s.nfcnt
  | illegalWord => exact le_rfl
  | lateEvent => exact le_rfl
  | eventDrop => exact le_rfl

/-- A write with a repair either leaves the diagnostics or raises. -/
theorem diagLe_of_repair {s t : State} (ok : Bool) (hd : t.diag = diagUnless ok s.diag)
    (hn : t.nfcnt = countUnless ok s.nfcnt) : DiagLe s t := by
  cases ok with
  | true => exact .of_eq hd hn
  | false => exact ⟨hd ▸ and_or_self_left s.diag _, hn ▸ le_sat8Succ s.nfcnt⟩

theorem diagLe_envelopes (c : Config.Voicing) (s : State) : DiagLe s (envelopes c s) := by
  have h1 : DiagLe s (stepRc1 c s) := by rw [stepRc1_eq]; exact diagLe_of_repair _ rfl rfl
  have h2 (s : State) : DiagLe s (stepRc2 c s) := by rw [stepRc2_eq]; exact diagLe_of_repair _ rfl rfl
  have h3 (s : State) : DiagLe s (setEnvWires c s) := .of_eq rfl rfl
  have h4 (s : State) : DiagLe s (decayMain c s) := by rw [decayMain_eq]; exact diagLe_of_repair _ rfl rfl
  have h5 (s : State) : DiagLe s (decayAmp c s) := by rw [decayAmp_eq]; exact diagLe_of_repair _ rfl rfl
  exact h1.trans ((h2 _).trans ((h3 _).trans ((h4 _).trans (h5 _))))

theorem diagLe_sanitizeRegs (l : List DReg) (s : State) : DiagLe s (l.foldl sanitizeReg s) := by
  induction l generalizing s with
  | nil => exact .of_eq rfl rfl
  | cons r l ih =>
    have hr : DiagLe s (sanitizeReg s r) := by rw [sanitizeReg_eq]; exact diagLe_of_repair _ rfl rfl
    exact hr.trans (ih _)

theorem diagLe_amplifier (c : Config.Voicing) (s : State) : DiagLe s (amplifier c s) := by
  rw [amplifier, storeSample_eq]
  exact diagLe_of_repair _ rfl rfl

/-- No instruction but `RDSTAT` with `clr` takes anything from the diagnostics. -/
theorem diagLe_exec {i : Instr} {s t : State} (h : exec i s = .next t) (hi : i ≠ .rdstat true) : DiagLe s t := by
  have kept (hw : mayWriteDiag i = false) : DiagLe s t :=
    DiagLe.of_eq (exec_diag h hw).1 (exec_diag h hw).2
  cases i with
  | env => rw [exec_env_eq h]; exact diagLe_envelopes voicing s
  | san => rw [exec_san_eq h]; exact diagLe_sanitizeRegs filterRegs s
  | vca => rw [exec_vca_eq h]; exact diagLe_amplifier voicing s
  | ldparam index value =>
    rw [exec_ldparam_eq h]
    obtain ⟨p, hp⟩ | hill := writeStaging_cases index.toNat value s
    · rw [hp]; exact .of_eq rfl rfl
    · rw [hill]; exact diagLe_raiseCond _ s
  | rdstat clr =>
    cases clr with
    | true => exact absurd rfl hi
    | false => rw [exec_rdstat_eq h]; exact .of_eq rfl rfl
  | noteon => exact kept rfl
  | noteoff => exact kept rfl
  | render => exact kept rfl
  | reset => exact kept rfl
  | pslew => exact kept rfl
  | osc => exact kept rfl
  | coef => exact kept rfl
  | filt => exact kept rfl

/-- No event or stage is an `RDSTAT`. -/
theorem ne_rdstat_of_decodePayload {w : Word64} {i : Instr} (h : decodePayload w = .ok i) (clr : Bool) :
    i ≠ .rdstat clr := by
  obtain ⟨_, _, _, _, _, rfl⟩ | ⟨_, _, _, _, _, rfl⟩ := decodePayload_event h <;> exact nofun

theorem ne_rdstat_of_stage (st : Stage) (clr : Bool) : st.instr ≠ .rdstat clr := by
  cases st <;> exact nofun

theorem diagLe_captureWord (depth : Nat) (w : Word64) (s : State) : DiagLe s (captureWord depth w s) := by
  obtain ⟨-, h⟩ | ⟨-, -, h⟩ | ⟨-, -, h⟩ := captureWord_cases depth w s <;> rw [h]
  · exact diagLe_raiseCond _ s
  · exact diagLe_raiseCond _ s
  · exact .of_eq rfl rfl

/-- Settles O42: of the ways a step can go, only a command can be an `RDSTAT` with `clr`. -/
theorem diagnosticsAreSticky : Obligations.DiagnosticsAreSticky := by
  intro s t h
  change DiagLe s t ∨ _
  cases step_cases h with
  | hold => exact .inl (.of_eq rfl rfl)
  | discard => exact .inl (diagLe_raiseCond _ _)
  | command w rest i _ hs hp hd he =>
    by_cases hi : i = .rdstat true
    · exact .inr ⟨hs, w, rest, hp, hi ▸ hd⟩
    · have hle := diagLe_exec he hi
      exact .inl hle
  | begin => exact .inl (.of_eq rfl rfl)
  | payload left w rest =>
    have hle := diagLe_captureWord voicing.evqDepth w { s with port := rest, sched := .capture (left - 1#24) }
    exact .inl hle
  | late => exact .inl (diagLe_raiseCond .lateEvent s)
  | event w i u hs hw hn hp hd he =>
    have hle := diagLe_exec he (ne_rdstat_of_decodePayload hd true)
    exact .inl hle
  | notEvent => exact .inl (diagLe_raiseCond .illegalWord s)
  | stage st u hs hd he =>
    have hle := diagLe_exec he (ne_rdstat_of_stage st true)
    exact .inl hle
  | finish => exact .inl (.of_eq rfl rfl)

end Sys2Proof.Proofs.Diagnostics
end

section
/-! PROOFS. Bounds on the results of `ARITH` (`00_scope.md` R7), stated in units of the format: a result is never rounded past
a value that binary64 holds. And the sign rules of products and quotients. -/

namespace Sys2Proof.Proofs.Bounds

open Sys2Proof Sys2Proof.Machine Sys2Proof.Safety Sys2Proof.Laws Sys2Proof.Proofs.Arith

/-! ### Units, sign and magnitude -/

theorem isFinite_iff {x : F64} : isFinite x = true ↔ fmag x < infMag64 := decide_eq_true_iff

/-- What is no greater than a finite magnitude is finite. -/
theorem isFinite_of_fmag_le {x y : F64} (hy : isFinite y = true) (h : fmag x ≤ fmag y) : isFinite x = true :=
  isFinite_iff.mpr (h.trans_lt (isFinite_iff.mp hy))

theorem fmag_le_iff {x y : F64} : fmag x ≤ fmag y ↔ (units x).natAbs ≤ (units y).natAbs := by
  rw [natAbs_units, natAbs_units, magUnits_le_iff]

theorem units_nonneg {x : F64} (h : fsign x = false) : 0 ≤ units x := by
  simp [units, h]

theorem units_nonpos {x : F64} (h : fsign x = true) : units x ≤ 0 := by
  simp [units, h]

theorem fmag_eq_zero_iff {x : F64} : fmag x = 0 ↔ units x = 0 := by
  have h := @magUnits_le_iff fracBits64 (fmag x) 0
  rw [magUnits_zero] at h
  rw [← Int.natAbs_eq_zero, natAbs_units]
  omega

theorem units_f0 : units f0 = 0 := by decide +kernel

theorem units_f1 : units f1 = scale64 := by decide +kernel

theorem isFinite_f0 : isFinite f0 = true := by decide +kernel

theorem isFinite_f1 : isFinite f1 = true := by decide +kernel

theorem units_fzero (neg : Bool) : units (fzero neg) = 0 := by
  rw [← fmag_eq_zero_iff]
  exact fmag_fpack (Nat.two_pow_pos 63)

theorem fmag_fneg (x : F64) : fmag (fneg x) = fmag x := by
  unfold fmag fneg
  rw [BitVec.toNat_xor, Nat.xor_mod_two_pow]
  simp

theorem fsign_fneg (x : F64) : fsign (fneg x) = !fsign x := by
  unfold fsign fneg
  simp

theorem units_fneg (x : F64) : units (fneg x) = -units x := by
  unfold units
  rw [fsign_fneg, fmag_fneg]
  cases fsign x <;> simp

theorem isFinite_fneg {x : F64} (h : isFinite x = true) : isFinite (fneg x) = true :=
  isFinite_of_fmag_le h (fmag_fneg x).le

/-- A value between finite bounds, in units. -/
theorem within_iff {lo hi x : F64} (hlo : isFinite lo = true) (hhi : isFinite hi = true) :
    within lo hi x = true ↔ isFinite x = true ∧ units lo ≤ units x ∧ units x ≤ units hi := by
  unfold within
  rw [Bool.and_eq_true, Bool.and_eq_true, and_assoc]
  exact and_congr_right fun hx => and_congr (fle_iff hlo hx) (fle_iff hx hhi)

/-! ### A rounded value is not past a value of the format -/

theorem natAbs_units_roundUnits_le {neg : Bool} {n d : Nat} {y : F64} (hy : isFinite y = true) (hd : 0 < d)
    (h : n ≤ (units y).natAbs * d) : (units (roundUnits neg n d)).natAbs ≤ (units y).natAbs := by
  rw [natAbs_units] at h
  rw [← fmag_le_iff, fmag_roundUnits]
  exact roundMag_le (isFinite_iff.mp hy).le hd h

theorem le_natAbs_units_roundUnits {neg : Bool} {n d : Nat} {y : F64} (hy : isFinite y = true) (hd : 0 < d)
    (h : (units y).natAbs * d ≤ n) : (units y).natAbs ≤ (units (roundUnits neg n d)).natAbs := by
  rw [natAbs_units] at h
  rw [← fmag_le_iff, fmag_roundUnits]
  exact le_roundMag (isFinite_iff.mp hy).le hd h

theorem isFinite_roundUnits {neg : Bool} {n d : Nat} {y : F64} (hy : isFinite y = true) (hd : 0 < d)
    (h : n ≤ (units y).natAbs * d) : isFinite (roundUnits neg n d) = true :=
  isFinite_of_fmag_le hy (fmag_le_iff.mpr (natAbs_units_roundUnits_le hy hd h))

theorem isFinite_roundInt {b : Bool} {z : Int} {y : F64} (hy : isFinite y = true) (h : |z| ≤ units y) :
    isFinite (roundInt b z) = true := by
  unfold roundInt
  split
  · exact isFinite_of_fmag_le hy (by rw [fmag_eq_zero_iff.mpr (units_fzero b)]; exact Nat.zero_le _)
  · rw [Int.abs_eq_natAbs] at h
    exact isFinite_roundUnits hy Nat.one_pos (by omega)

theorem units_roundInt_le {b : Bool} {z : Int} {y : F64} (hy : isFinite y = true) (h : z ≤ units y) :
    units (roundInt b z) ≤ units y := by
  unfold roundInt
  split
  · next h0 => rw [units_fzero]; omega
  · next h0 =>
    rcases lt_or_gt_of_ne h0 with hneg | hpos
    · have hs := units_nonpos (fsign_roundUnits true z.natAbs 1)
      rw [decide_eq_true hneg]
      rcases le_or_gt 0 (units y) with hy0 | hy0
      · exact hs.trans hy0
      · have := le_natAbs_units_roundUnits (neg := true) (n := z.natAbs) hy Nat.one_pos (by omega)
        omega
    · have := natAbs_units_roundUnits_le (neg := decide (z < 0)) (n := z.natAbs) hy Nat.one_pos (by omega)
      omega

theorem le_units_roundInt {b : Bool} {z : Int} {y : F64} (hy : isFinite y = true) (h : units y ≤ z) :
    units y ≤ units (roundInt b z) := by
  unfold roundInt
  split
  · next h0 => rw [units_fzero]; omega
  · next h0 =>
    rcases lt_or_gt_of_ne h0 with hneg | hpos
    · have := natAbs_units_roundUnits_le (neg := decide (z < 0)) (n := z.natAbs) hy Nat.one_pos (by omega)
      omega
    · have hs := units_nonneg (fsign_roundUnits false z.natAbs 1)
      rw [decide_eq_false (by omega)]
      rcases le_or_gt (units y) 0 with hy0 | hy0
      · exact hy0.trans hs
      · have := le_natAbs_units_roundUnits (neg := false) (n := z.natAbs) hy Nat.one_pos (by omega)
        omega

/-! ### Sums and products of finite values -/

/-- A sum that lies between two values of the format is finite and still lies between them after rounding. -/
theorem fadd_between {x y lo hi : F64} (hx : isFinite x = true) (hy : isFinite y = true) (hlo : isFinite lo = true)
    (hhi : isFinite hi = true) (h1 : units lo ≤ units x + units y) (h2 : units x + units y ≤ units hi) :
    isFinite (fadd x y) = true ∧ units lo ≤ units (fadd x y) ∧ units (fadd x y) ≤ units hi := by
  rw [fadd_of_finite hx hy]
  refine ⟨?_, le_units_roundInt hlo h1, units_roundInt_le hhi h2⟩
  rcases le_or_gt 0 (units x + units y) with hz | hz
  · exact isFinite_roundInt hhi (by rwa [abs_of_nonneg hz])
  · refine isFinite_roundInt (isFinite_fneg hlo) ?_
    rw [abs_of_neg hz, units_fneg]
    omega

theorem fsub_between {x y lo hi : F64} (hx : isFinite x = true) (hy : isFinite y = true) (hlo : isFinite lo = true)
    (hhi : isFinite hi = true) (h1 : units lo ≤ units x - units y) (h2 : units x - units y ≤ units hi) :
    isFinite (fsub x y) = true ∧ units lo ≤ units (fsub x y) ∧ units (fsub x y) ≤ units hi :=
  fadd_between hx (isFinite_fneg hy) hlo hhi (by rwa [units_fneg, ← sub_eq_add_neg])
    (by rwa [units_fneg, ← sub_eq_add_neg])

/-- A product of finite values has the sign of the exact product, a zero apart. -/
theorem units_fmul_sign {x y : F64} (hx : isFinite x = true) (hy : isFinite y = true) :
    (0 ≤ units x * units y → 0 ≤ units (fmul x y)) ∧ (units x * units y ≤ 0 → units (fmul x y) ≤ 0) := by
  have hzero (h : units x * units y = 0) : units (fmul x y) = 0 := by
    rw [fmul_of_finite hx hy, ← Int.natAbs_mul, h]
    have hle := natAbs_units_roundUnits_le (neg := fsign x != fsign y) (n := 0) isFinite_f0 scale64_pos (Nat.zero_le _)
    rw [units_f0] at hle
    exact Int.natAbs_eq_zero.mp (Nat.le_zero.mp hle)
  have hsign : fsign (fmul x y) = (fsign x != fsign y) := by rw [fmul_of_finite hx hy, fsign_roundUnits]
  by_cases hs : fsign x = fsign y
  · have hres : 0 ≤ units (fmul x y) := units_nonneg (by rw [hsign, hs, bne_self_eq_false])
    have hprod : 0 ≤ units x * units y := by
      cases hsx : fsign x with
      | false => exact mul_nonneg (units_nonneg hsx) (units_nonneg (hs ▸ hsx))
      | true => exact mul_nonneg_of_nonpos_of_nonpos (units_nonpos hsx) (units_nonpos (hs ▸ hsx))
    exact ⟨fun _ => hres, fun h => (hzero (le_antisymm h hprod)).le⟩
  · have hres : units (fmul x y) ≤ 0 := units_nonpos (by rw [hsign]; exact bne_iff_ne.mpr hs)
    have hprod : units x * units y ≤ 0 := by
      cases hsx : fsign x with
      | false =>
        have hsy : fsign y = true := by rw [hsx] at hs; simpa using hs
        exact mul_nonpos_of_nonneg_of_nonpos (units_nonneg hsx) (units_nonpos hsy)
      | true =>
        have hsy : fsign y = false := by rw [hsx] at hs; simpa using hs
        exact mul_nonpos_of_nonpos_of_nonneg (units_nonpos hsx) (units_nonneg hsy)
    exact ⟨fun h => (hzero (le_antisymm hprod h)).ge, fun _ => hres⟩

/-- A product of finite values is at most a value of the format that the exact product is at most. -/
theorem natAbs_units_fmul_le {x y z : F64} (hx : isFinite x = true) (hy : isFinite y = true) (hz : isFinite z = true)
    (h : (units x).natAbs * (units y).natAbs ≤ (units z).natAbs * scale64) :
    isFinite (fmul x y) = true ∧ (units (fmul x y)).natAbs ≤ (units z).natAbs := by
  rw [fmul_of_finite hx hy]
  exact ⟨isFinite_roundUnits hz scale64_pos h, natAbs_units_roundUnits_le hz scale64_pos h⟩

/-- A quotient of finite values is at most a value of the format that the exact quotient is at most. -/
theorem natAbs_units_fdiv_le {x y z : F64} (hx : isFinite x = true) (hy : isFinite y = true) (hz : isFinite z = true)
    (h0 : units y ≠ 0) (h : scale64 * (units x).natAbs ≤ (units z).natAbs * (units y).natAbs) :
    isFinite (fdiv x y) = true ∧ (units (fdiv x y)).natAbs ≤ (units z).natAbs := by
  have hd : 0 < (units y).natAbs := Int.natAbs_pos.mpr h0
  rw [fdiv_of_finite hx hy (fmag_eq_zero_iff.not.mpr h0)]
  exact ⟨isFinite_roundUnits hz hd h, natAbs_units_roundUnits_le hz hd h⟩

/-! ### Whole numbers -/

/-- A whole number below 2^53 is held exactly. -/
theorem fnat_exact {k : Nat} (hk : k < 2 ^ 53) :
    isFinite (fnat k) = true ∧ units (fnat k) = (scale64 : Int) * k := by
  have htop : magTop < infMag64 := by decide +kernel
  have hmax : scale64 * 2 ^ 53 ≤ magUnits fracBits64 magTop := by decide +kernel
  have hlt : roundMag fracBits64 infMag64 (scale64 * k) 1 < infMag64 := by
    refine (roundMag_le htop.le Nat.one_pos ?_).trans_lt htop
    rw [Nat.mul_one]
    exact (Nat.mul_le_mul_left _ hk.le).trans hmax
  have hmag : fmag (fnat k) = roundMag fracBits64 infMag64 (scale64 * k) 1 := fmag_roundUnits _ _ _
  have hs : fsign (fnat k) = false := fsign_roundUnits _ _ _
  refine ⟨isFinite_iff.mpr (hmag ▸ hlt), ?_⟩
  have hexact : magUnits fracBits64 (roundMag fracBits64 infMag64 (scale64 * k) 1) = scale64 * k := by
    rw [mul_comm, scale64_eq] at hlt ⊢
    exact magUnits_roundMag hk hlt
  have habs : (units (fnat k)).natAbs = scale64 * k := by rw [natAbs_units, hmag, hexact]
  rw [← Int.natAbs_of_nonneg (units_nonneg hs), habs]
  exact Nat.cast_mul _ _

/-! ### Sign rules, where no operand is NaN -/

theorem isNaN_fpack_of_le {neg : Bool} {m : Nat} (h : m ≤ infMag64) : isNaN (fpack neg m) = false := by
  rw [isNaN, fmag_fpack (h.trans_lt infMag64_lt)]
  exact decide_eq_false h.not_gt

theorem fsign_fpack_of_le {neg : Bool} {m : Nat} (h : m ≤ infMag64) : fsign (fpack neg m) = neg :=
  fsign_fpack (h.trans_lt infMag64_lt)

/-- `x / y` is no NaN, and has the sign of the quotient, where it is not 0/0 or ∞/∞. -/
theorem fdiv_sign {x y : F64} (hx : isNaN x = false) (hy : isNaN y = false) (h0 : fmag x ≠ 0 ∨ fmag y ≠ 0)
    (hinf : isInf x = false ∨ isInf y = false) :
    isNaN (fdiv x y) = false ∧ fsign (fdiv x y) = (fsign x != fsign y) := by
  unfold fdiv
  rw [hx, hy, Bool.or_self, if_neg Bool.false_ne_true]
  split
  · next hix =>
    rw [if_neg (by simpa [hix] using hinf)]
    exact ⟨isNaN_fpack_of_le le_rfl, fsign_fpack_of_le le_rfl⟩
  · split
    · exact ⟨isNaN_fpack_of_le (Nat.zero_le _), fsign_fpack_of_le (Nat.zero_le _)⟩
    · split
      · next hy0 =>
        rw [if_neg (by simpa [hy0] using h0)]
        exact ⟨isNaN_fpack_of_le le_rfl, fsign_fpack_of_le le_rfl⟩
      · exact ⟨isNaN_roundUnits _ _ _, fsign_roundUnits _ _ _⟩

/-- `x · y` is no NaN, and has the sign of the product, where `y` is finite and not 0. -/
theorem fmul_sign {x y : F64} (hx : isNaN x = false) (hy : isFinite y = true) (h0 : fmag y ≠ 0) :
    isNaN (fmul x y) = false ∧ fsign (fmul x y) = (fsign x != fsign y) := by
  unfold fmul
  rw [hx, isNaN_of_isFinite hy, Bool.or_self, if_neg Bool.false_ne_true, isInf_of_isFinite hy, Bool.or_false]
  split
  · next hix =>
    have hx0 : fmag x ≠ 0 := by
      rw [isInf, decide_eq_true_eq] at hix
      rw [hix]; decide
    rw [if_neg (by simp [hx0, h0])]
    exact ⟨isNaN_fpack_of_le le_rfl, fsign_fpack_of_le le_rfl⟩
  · exact ⟨isNaN_roundUnits _ _ _, fsign_roundUnits _ _ _⟩

end Sys2Proof.Proofs.Bounds
end

section
/-! PROOFS. The invariants of the voice and its parameters (`10_state.md` R28, `60_exceptions.md` R221), but the pitch: what
every instruction keeps, every step keeps. -/

namespace Sys2Proof.Proofs.Invariants

open Sys2Proof Sys2Proof.Machine Sys2Proof.Safety Sys2Proof.Laws Sys2Proof.Proofs.Access Sys2Proof.Proofs.Bounds

/-! ### From instructions to steps -/

@[simp] theorem captureWord_voice (depth : Nat) (w : Word64) (s : State) : (captureWord depth w s).voice = s.voice := by
  obtain ⟨-, h⟩ | ⟨-, -, h⟩ | ⟨-, -, h⟩ := captureWord_cases depth w s <;> simp [h]

@[simp] theorem captureWord_params (depth : Nat) (w : Word64) (s : State) :
    (captureWord depth w s).params = s.params := by
  obtain ⟨-, h⟩ | ⟨-, -, h⟩ | ⟨-, -, h⟩ := captureWord_cases depth w s <;> simp [h]

/-- What every instruction keeps of the voice and the active parameters, every step keeps: a step runs at most one
instruction, and writes neither of them itself. -/
theorem step_keeps {P : Voice → Bank F64 → Prop}
    (hexec : ∀ i s t, exec i s = .next t → P s.voice s.params → P t.voice t.params) {s t : State}
    (h : step s = .next t) (hP : P s.voice s.params) : P t.voice t.params := by
  cases step_cases h with
  | hold => exact hP
  | discard => exact hP
  | command w rest i _ hs hp hd he => exact hexec i { s with port := rest } t he hP
  | begin => exact hP
  | payload left w rest => rw [captureWord_voice, captureWord_params]; exact hP
  | late => exact hP
  | event w i u hs hw hn hp hd he => exact hexec i s u he hP
  | notEvent => exact hP
  | stage st u hs hd he => exact hexec st.instr s u he hP
  | finish => exact hP

/-! ### The envelopes -/

/-- The four envelope registers. -/
def envRegs : List DReg := [.mainEnv, .ampEnv, .rc1, .rc2]

theorem envelopesInUnit_iff (v : Voice) :
    envelopesInUnit v = true ↔ ∀ r ∈ envRegs, within f0 f1 (v.get r) = true := by
  simp [envelopesInUnit, envRegs, Voice.get, and_assoc]

theorem f0_inUnit : within f0 f1 f0 = true := by decide +kernel

theorem f1_inUnit : within f0 f1 f1 = true := by decide +kernel

/-- Whatever is written to an envelope register through `envreg` lies in [0,1]. -/
theorem envreg_inUnit (x : F64) : within f0 f1 (envreg x) = true := by
  unfold envreg
  split
  · obtain ⟨hf, h0, h1⟩ := fclamp_spec (v := x) isFinite_f0 isFinite_f1 (by decide +kernel)
    rw [within, fclamp01, hf, h0, h1]; rfl
  · exact f0_inUnit

/-- `ENV` writes each envelope register through `envreg`. -/
theorem envelopes_envreg (c : Config.Voicing) (s : State) {r : DReg} (hr : r ∈ envRegs) :
    ∃ x, (envelopes c s).voice.get r = envreg x := by
  simp only [envRegs, List.mem_cons, List.not_mem_nil, or_false] at hr
  obtain rfl | rfl | rfl | rfl := hr
  · rw [envelopes, decayAmp_get _ _ (by decide), decayMain_eq]; exact ⟨_, rfl⟩
  · rw [envelopes, decayAmp_eq]; exact ⟨_, rfl⟩
  · rw [envelopes, decayAmp_get _ _ (by decide), decayMain_get _ _ (by decide), setEnvWires_voice,
      stepRc2_get _ _ (by decide), stepRc1_eq]
    exact ⟨_, rfl⟩
  · rw [envelopes, decayAmp_get _ _ (by decide), decayMain_get _ _ (by decide), setEnvWires_voice, stepRc2_eq]
    exact ⟨_, rfl⟩

/-- A NoteOn sets an envelope register to 1 or leaves it. -/
theorem noteOn_env_cases (c : Config.Voicing) (note : BitVec 7) (accent slide : Bool) (s : State) {r : DReg}
    (hr : r ∈ envRegs) :
    (noteOn c note accent slide s).voice.get r = f1 ∨
      (noteOn c note accent slide s).voice.get r = s.voice.get r := by
  simp only [envRegs, List.mem_cons, List.not_mem_nil, or_false] at hr
  unfold noteOn
  split
  · obtain rfl | rfl | rfl | rfl := hr
    · exact .inl rfl
    · exact .inl rfl
    · exact .inr rfl
    · exact .inr rfl
  · obtain rfl | rfl | rfl | rfl := hr <;> exact .inr rfl

theorem zero_get (r : DReg) : Voice.zero.get r = f0 := by cases r <;> rfl

/-- The writers of the envelope registers, by the access matrix. -/
theorem writers_of_envReg {i : Instr} {r : DReg} (hr : r ∈ envRegs) (h : mayWrite i r = true) :
    (∃ note velocity accent slide off, i = .noteon note velocity accent slide off) ∨ i = .reset ∨ i = .env := by
  simp only [envRegs, List.mem_cons, List.not_mem_nil, or_false] at hr
  cases i with
  | noteon => exact .inl ⟨_, _, _, _, _, rfl⟩
  | reset => exact .inr (.inl rfl)
  | env => exact .inr (.inr rfl)
  | noteoff | render | ldparam | rdstat | coef | vca => cases h
  | pslew | osc | filt | san => obtain rfl | rfl | rfl | rfl := hr <;> cases h

theorem exec_env_inUnit {i : Instr} {s t : State} {r : DReg} (h : exec i s = .next t) (hr : r ∈ envRegs)
    (hs : within f0 f1 (s.voice.get r) = true) : within f0 f1 (t.voice.get r) = true := by
  cases hw : mayWrite i r with
  | false => rwa [show t.voice.get r = s.voice.get r from exec_readD h hw]
  | true =>
    obtain ⟨note, velocity, accent, slide, off, rfl⟩ | rfl | rfl := writers_of_envReg hr hw
    · rw [exec_noteon_eq h]
      obtain h1 | hkeep := noteOn_env_cases voicing note accent slide s hr
      · rw [h1]; exact f1_inUnit
      · rwa [hkeep]
    · rw [exec_reset_eq h, zero_get]; exact f0_inUnit
    · obtain ⟨x, hx⟩ := envelopes_envreg voicing s hr
      rw [exec_env_eq h, hx]
      exact envreg_inUnit x

/-- Settles O46: register by register, what each instruction writes there lies in [0,1]. -/
theorem envelopesStayInUnit : Obligations.EnvelopesStayInUnit := by
  intro s t hs h
  rw [envelopesInUnit_iff] at hs ⊢
  exact step_keeps (P := fun v _ => ∀ r ∈ envRegs, within f0 f1 (v.get r) = true)
    (fun _ _ _ he hP r hr => exec_env_inUnit he hr (hP r hr)) h hs

/-! ### The filter state -/

theorem filterFinite_iff (v : Voice) : filterFinite v = true ↔ ∀ r ∈ filterRegs, isFinite (v.get r) = true :=
  List.all_eq_true

theorem beforeSanitize_eq_false {s : State} : beforeSanitize s = false ↔ s.sched ≠ .loop .san := decide_eq_false_iff_not

/-- `SAN` leaves no filter register non-finite. -/
theorem isFinite_sanitize_get (s : State) {r : DReg} (hr : r ∈ filterRegs) :
    isFinite ((sanitize s).voice.get r) = true := by
  rw [sanitize_get]
  split
  · exact isFinite_f0
  · next hc =>
    rw [not_and, Bool.not_eq_false] at hc
    exact hc hr

/-- The writers of the filter registers, by the access matrix. -/
theorem writers_of_filterReg {i : Instr} {r : DReg} (hr : r ∈ filterRegs) (h : mayWrite i r = true) :
    i = .reset ∨ i = .filt ∨ i = .san := by
  simp only [filterRegs, List.mem_cons, List.not_mem_nil, or_false] at hr
  cases i with
  | reset => exact .inl rfl
  | filt => exact .inr (.inl rfl)
  | san => exact .inr (.inr rfl)
  | noteoff | render | ldparam | rdstat | coef | vca => cases h
  | noteon | pslew | osc | env => obtain rfl | rfl | rfl | rfl | rfl | rfl := hr <;> cases h

/-- Every instruction but `FILT` keeps the filter state finite. -/
theorem exec_filterFinite {i : Instr} {s t : State} (h : exec i s = .next t) (hi : i ≠ .filt)
    (hs : i = .san ∨ filterFinite s.voice = true) : filterFinite t.voice = true := by
  rw [filterFinite_iff] at hs ⊢
  intro r hr
  cases hw : mayWrite i r with
  | false =>
    rw [show t.voice.get r = s.voice.get r from exec_readD h hw]
    obtain rfl | hfin := hs
    · exact absurd hw (by simpa [mayWrite] using hr)
    · exact hfin r hr
  | true =>
    obtain rfl | rfl | rfl := writers_of_filterReg hr hw
    · rw [exec_reset_eq h, zero_get]; exact isFinite_f0
    · exact absurd rfl hi
    · rw [exec_san_eq h]; exact isFinite_sanitize_get s hr

/-- Only `FILT` is followed by `SAN`. -/
theorem instr_ne_filt_of_next {st : Stage} (h : st.next ≠ .san) : st.instr ≠ .filt := by
  cases st with
  | filt => exact absurd rfl h
  | pslew | osc | env | coef | san | vca => exact nofun

/-- Settles O47: only `FILT` can write a non-finite filter register, `SAN` is the next stage, and it leaves none. -/
theorem filterStaysFinite : Obligations.FilterStaysFinite := by
  intro s t hs h ht
  rw [beforeSanitize_eq_false] at hs ht
  have elsewhere (hne : s.sched ≠ .loop .san) : filterFinite s.voice = true := hs hne
  cases step_cases h with
  | hold hp hsched => exact hs ht
  | discard w rest r hsched => exact elsewhere (hsched ▸ nofun)
  | command w rest i _ hsched hp hd he =>
    have hi : i ≠ .filt := by
      obtain ⟨_, _, rfl⟩ | ⟨_, _, rfl⟩ | rfl | ⟨_, rfl⟩ := decodeTop_command hd <;> exact nofun
    exact exec_filterFinite he hi (.inr (elsewhere (hsched ▸ nofun)))
  | begin hsched => exact elsewhere (hsched ▸ nofun)
  | payload left w rest hsched => rw [captureWord_voice]; exact elsewhere (hsched ▸ nofun)
  | late w hsched => exact elsewhere (hsched ▸ nofun)
  | event w i u hsched hw hn hp hd he =>
    have hi : i ≠ .filt := by
      obtain ⟨_, _, _, _, _, rfl⟩ | ⟨_, _, _, _, _, rfl⟩ := decodePayload_event hd <;> exact nofun
    have hu := exec_filterFinite he hi (.inr (elsewhere (hsched ▸ nofun)))
    exact hu
  | notEvent w r hsched => exact elsewhere (hsched ▸ nofun)
  | stage st u hsched hd he =>
    rw [afterStage_sched] at ht
    rw [afterStage_voice]
    refine exec_filterFinite he (instr_ne_filt_of_next fun hn => ht (congrArg Sched.loop hn)) ?_
    by_cases hst : st = .san
    · exact .inl (hst ▸ rfl)
    · exact .inr (elsewhere fun hl => hst (Sched.loop.inj (hsched.symm.trans hl)))
  | finish hsched => exact elsewhere (hsched ▸ nofun)

/-! ### The active parameters -/

/-- An instruction keeps the active parameters, or latches all of them. -/
theorem exec_params_cases {i : Instr} {s t : State} (h : exec i s = .next t) :
    t.params = s.params ∨ ∀ p, ∃ w, t.params.get p = latched p w := by
  by_cases hi : ∃ e n, i = .render e n
  · obtain ⟨e, n, rfl⟩ := hi
    rw [exec_render_eq h]
    exact .inr fun p => ⟨s.staging.get p, latch_get s p⟩
  · exact .inl (exec_params h fun e n he => hi ⟨e, n, he⟩)

/-- What every latched value satisfies is kept by every step, whatever was staged. -/
theorem step_keeps_params {Q : Param → F64 → Prop} (hQ : ∀ p w, Q p (latched p w)) {s t : State}
    (h : step s = .next t) (hs : ∀ p, Q p (s.params.get p)) : ∀ p, Q p (t.params.get p) := by
  refine step_keeps (P := fun _ b => ∀ p, Q p (b.get p)) (fun i u v he hP => ?_) h hs
  obtain hkeep | hlatch := exec_params_cases he
  · rwa [hkeep]
  · intro p
    obtain ⟨w, hw⟩ := hlatch p
    rw [hw]; exact hQ p w

/-- Settles O48: a latched value is in range and has no sign bit. -/
theorem parametersStayInRange : Obligations.ParametersStayInRange := by
  intro s t h
  refine ⟨step_keeps_params (Q := fun p x => within (paramLo p) (paramHi p) x = true) (fun p w => ?_) h,
    step_keeps_params (Q := fun _ x => fsign x = false) (fun p w => ?_) h⟩
  · obtain ⟨hf, hlo, hhi, -, -⟩ := latched_spec p w
    rw [within, hf, hlo, hhi]; rfl
  · obtain ⟨-, -, -, hsign, -⟩ := latched_spec p w
    exact hsign

/-! ### Reset -/

theorem resetParams_inRange : paramsInRange resetParams := by
  intro p; cases p <;> decide +kernel

theorem resetParams_fsign (p : Param) : fsign (resetParams.get p) = false := by
  cases p <;> decide +kernel

/-- Settles O45: each invariant evaluated at the reset state; between calls nothing is asked of the scheduler. -/
theorem invariantsAtReset : Obligations.InvariantsAtReset := by
  have henv : envelopesInUnit Voice.zero = true := by decide +kernel
  have hfilt : filterFinite Voice.zero = true := by decide +kernel
  have hphase : phaseInUnit Voice.zero = true := by decide +kernel
  have hpitch : within f0 (fnat 16384) Voice.zero.pitchCurrent = true := by decide +kernel
  exact ⟨henv, hfilt, ⟨resetParams_inRange, resetParams_fsign⟩, ⟨wf_reset, rfl⟩, hphase, ⟨.inl rfl, hpitch⟩, trivial⟩

end Sys2Proof.Proofs.Invariants
end

section
/-! PROOFS. The registers of the event scheduler (`10_state.md` R24, `47_render_scheduler.md` R171 to R176) stay sound. -/

namespace Sys2Proof.Proofs.Scheduler

open Sys2Proof Sys2Proof.Machine Sys2Proof.Safety Sys2Proof.Laws Sys2Proof.Proofs.Access

/-! ### The re-sort -/

theorem sortEvents_perm (q : List Word64) : (sortEvents q).Perm q := by
  induction q with
  | nil => exact .refl _
  | cons w q ih => exact (insertEvent_perm w _).trans (ih.cons w)

theorem offsetLe_iff {a b : Word64} : offsetLe a b = true ↔ (fieldOffset a).toNat ≤ (fieldOffset b).toNat :=
  decide_eq_true_iff

/-- Putting a word in its place keeps a queue sorted. -/
theorem insertEvent_sorted (w : Word64) {q : List Word64} (h : q.Pairwise (fun a b => offsetLe a b = true)) :
    (insertEvent w q).Pairwise (fun a b => offsetLe a b = true) := by
  induction q with
  | nil => exact List.pairwise_singleton _ w
  | cons v q ih =>
    obtain ⟨hv, hq⟩ := List.pairwise_cons.mp h
    simp only [insertEvent]
    split
    · next hwv =>
      refine List.pairwise_cons.mpr ⟨fun a ha => ?_, h⟩
      obtain rfl | ha := List.mem_cons.mp ha
      · exact hwv
      · exact offsetLe_iff.mpr ((offsetLe_iff.mp hwv).trans (offsetLe_iff.mp (hv a ha)))
    · next hwv =>
      refine List.pairwise_cons.mpr ⟨fun a ha => ?_, ih hq⟩
      obtain rfl | ha := List.mem_cons.mp ((insertEvent_perm w q).mem_iff.mp ha)
      · rw [offsetLe_iff] at hwv ⊢; omega
      · exact hv a ha

theorem sortEvents_sorted (q : List Word64) : (sortEvents q).Pairwise (fun a b => offsetLe a b = true) := by
  induction q with
  | nil => exact .nil
  | cons w q ih => exact insertEvent_sorted w ih

/-! ### Soundness, one place of a call at a time -/

/-- Soundness while a payload is captured. -/
structure CaptureSound (s : State) : Prop where
  legal : s.evq.all legalEventWord = true
  depth : s.evq.length ≤ voicing.evqDepth
  out : s.out = []
  pos : s.pos = 0#32
  evi : s.evi = 0#32

/-- Soundness in the slicing loop, `st` the next stage. -/
structure LoopSound (st : Stage) (s : State) : Prop where
  legal : s.evq.all legalEventWord = true
  depth : s.evq.length ≤ voicing.evqDepth
  sorted : s.evq.Pairwise (fun a b => offsetLe a b = true)
  evi : s.evi.toNat ≤ s.evq.length
  pos : s.pos.toNat ≤ s.n.toNat
  inSample : st ≠ .pslew → s.pos.toNat < s.n.toNat
  out : storedIndices s.out = List.range s.pos.toNat

theorem schedulerSound_idle {s : State} (hs : s.sched = .idle) : schedulerSound s := by
  rw [schedulerSound, hs]; trivial

theorem schedulerSound_capture {s : State} {left : BitVec 24} (hs : s.sched = .capture left) :
    schedulerSound s ↔ CaptureSound s := by
  rw [schedulerSound, hs]
  exact ⟨fun ⟨h1, h2, h3, h4, h5⟩ => ⟨h1, h2, h3, h4, h5⟩, fun ⟨h1, h2, h3, h4, h5⟩ => ⟨h1, h2, h3, h4, h5⟩⟩

theorem schedulerSound_loop {s : State} {st : Stage} (hs : s.sched = .loop st) :
    schedulerSound s ↔ LoopSound st s := by
  rw [schedulerSound, hs]
  exact ⟨fun ⟨h1, h2, h3, h4, h5, h6, h7⟩ => ⟨h1, h2, h3, h4, h5, h6, h7⟩,
    fun ⟨h1, h2, h3, h4, h5, h6, h7⟩ => ⟨h1, h2, h3, h4, h5, h6, h7⟩⟩

/-- The two states agree in everything soundness speaks of. -/
structure SameCall (s t : State) : Prop where
  n : t.n = s.n
  pos : t.pos = s.pos
  evi : t.evi = s.evi
  evq : t.evq = s.evq
  out : t.out = s.out

theorem CaptureSound.congr {s t : State} (h : CaptureSound s) (k : SameCall s t) : CaptureSound t where
  legal := k.evq ▸ h.legal
  depth := k.evq ▸ h.depth
  out := k.out.trans h.out
  pos := k.pos.trans h.pos
  evi := k.evi.trans h.evi

/-! ### The steps of a call -/

theorem captureSound_startRender (evCount : BitVec 24) (n : BitVec 32) (s : State) :
    CaptureSound (startRender evCount n s) where
  legal := rfl
  depth := Nat.zero_le _
  out := rfl
  pos := rfl
  evi := rfl

/-- A payload word is queued only while the queue has room and only when it is an event word. -/
theorem captureSound_captureWord {s : State} (h : CaptureSound s) (w : Word64) :
    CaptureSound (captureWord voicing.evqDepth w s) := by
  obtain ⟨-, hc⟩ | ⟨-, -, hc⟩ | ⟨hw, hl, hc⟩ := captureWord_cases voicing.evqDepth w s <;> rw [hc]
  · exact h.congr ⟨rfl, rfl, rfl, rfl, rfl⟩
  · exact h.congr ⟨rfl, rfl, rfl, rfl, rfl⟩
  · have hroom : s.evq.length < voicing.evqDepth := lt_of_le_of_ne h.depth hl
    exact {
      legal := by rw [List.all_append, h.legal]; simp [hw]
      depth := by rw [List.length_append]; exact hroom
      out := h.out
      pos := h.pos
      evi := h.evi }

theorem captureWord_sched (depth : Nat) (w : Word64) (s : State) : (captureWord depth w s).sched = s.sched := by
  obtain ⟨-, h⟩ | ⟨-, -, h⟩ | ⟨-, -, h⟩ := captureWord_cases depth w s <;> simp [h]

theorem loopSound_startLoop {s : State} (h : CaptureSound s) : LoopSound .pslew (startLoop s) where
  legal := by
    rw [List.all_eq_true]
    intro w hw
    exact List.all_eq_true.mp h.legal w ((sortEvents_perm s.evq).mem_iff.mp hw)
  depth := by rw [startLoop_evq, (sortEvents_perm s.evq).length_eq]; exact h.depth
  sorted := sortEvents_sorted s.evq
  evi := Nat.zero_le _
  pos := Nat.zero_le _
  inSample := fun hne => absurd rfl hne
  out := by rw [startLoop_out, h.out]; rfl

/-- At a boundary the loop may go past an event; the counter does not wrap, since the queue is shorter than 2^24. -/
theorem LoopSound.nextEvent {s t : State} (h : LoopSound .pslew s) (k : SameCall s t)
    (hevi : s.evi.toNat < s.evq.length) : LoopSound .pslew (nextEvent t) where
  legal := k.evq ▸ h.legal
  depth := k.evq ▸ h.depth
  sorted := k.evq ▸ h.sorted
  evi := by
    have hdepth := h.depth
    have hlimit := evqDepth_limits
    rw [nextEvent_evi, nextEvent_evq, k.evi, k.evq, BitVec.toNat_add]
    simp only [BitVec.toNat_ofNat]
    omega
  pos := by rw [nextEvent_pos, nextEvent_n, k.pos, k.n]; exact h.pos
  inSample := fun hne => absurd rfl hne
  out := by rw [nextEvent_out, nextEvent_pos, k.out, k.pos]; exact h.out

/-- A queue index that finds a word is below the length. -/
theorem evi_lt_of_getElem? {s : State} {w : Word64} (h : s.evq[s.evi.toNat]? = some w) : s.evi.toNat < s.evq.length :=
  (List.getElem?_eq_some_iff.mp h).1

/-- A stage runs only with a sample to make: inside one, or at a boundary where one is due. -/
theorem LoopSound.pos_lt_n {st : Stage} {s : State} (h : LoopSound st s) (hd : st = .pslew → sampleDue s) :
    s.pos.toNat < s.n.toNat := by
  by_cases hst : st = .pslew
  · obtain ⟨w, -, hoff, hpos⟩ | ⟨-, hpos⟩ := hd hst
    · omega
    · exact hpos
  · exact h.inSample hst

/-- A stage other than `VCA` moves nothing that soundness speaks of. -/
theorem LoopSound.afterStage {st : Stage} {s t : State} (h : LoopSound st s) (k : SameCall s t) (hst : st ≠ .vca)
    (hn : s.pos.toNat < s.n.toNat) : LoopSound st.next (afterStage st t) := by
  have hpos : (Machine.afterStage st t).pos = s.pos := by
    rw [afterStage_pos, k.pos]
    cases st with
    | vca => exact absurd rfl hst
    | pslew | osc | env | coef | filt | san => rfl
  exact {
    legal := k.evq ▸ h.legal
    depth := k.evq ▸ h.depth
    sorted := k.evq ▸ h.sorted
    evi := by rw [afterStage_evi, afterStage_evq, k.evi, k.evq]; exact h.evi
    pos := by rw [hpos, afterStage_n, k.n]; exact hn.le
    inSample := fun _ => by rw [hpos, afterStage_n, k.n]; exact hn
    out := by rw [hpos, afterStage_out, k.out]; exact h.out }

/-- A sample written at the end of the samples 0 to `a` − 1 makes them the samples 0 to `a`. -/
theorem storedIndices_memWrite {m : Memory} {a : Nat} (v : F32) (h : storedIndices m = List.range a) :
    storedIndices (memWrite m a v) = List.range (a + 1) := by
  have hlt : ∀ k ∈ m.map Prod.fst, k < a := fun k hk => List.mem_range.mp (h ▸ hk)
  rw [memWrite_append v hlt, storedIndices, List.map_append, ← storedIndices, h, List.range_succ]
  rfl

/-- `VCA` stores sample `pos`, and `pos` advances to at most `n`. -/
theorem LoopSound.afterVca {s : State} (h : LoopSound .vca s) :
    LoopSound .pslew (Machine.afterStage .vca (amplifier voicing s)) := by
  have hn : s.pos.toNat < s.n.toNat := h.inSample nofun
  have hpos : (Machine.afterStage .vca (amplifier voicing s)).pos.toNat = s.pos.toNat + 1 := by
    have hwrap := s.n.isLt
    rw [afterStage_pos, amplifier_pos]
    simp only [Stage.posAfter, BitVec.toNat_add, BitVec.toNat_ofNat]
    omega
  exact {
    legal := by rw [afterStage_evq, amplifier_evq]; exact h.legal
    depth := by rw [afterStage_evq, amplifier_evq]; exact h.depth
    sorted := by rw [afterStage_evq, amplifier_evq]; exact h.sorted
    evi := by rw [afterStage_evi, afterStage_evq, amplifier_evi, amplifier_evq]; exact h.evi
    pos := by rw [hpos, afterStage_n, amplifier_n]; exact hn
    inSample := fun hne => absurd rfl hne
    out := by
      rw [hpos, afterStage_out, amplifier, storeSample_eq]
      exact storedIndices_memWrite _ h.out }

/-! ### Instructions -/

/-- Only `RENDER` and `VCA` touch what soundness speaks of. -/
theorem exec_sameCall {i : Instr} {s t : State} (h : exec i s = .next t) (hr : ∀ e n, i ≠ .render e n)
    (hv : i ≠ .vca) : SameCall s t := by
  cases i with
  | render e n => exact absurd rfl (hr e n)
  | vca => exact absurd rfl hv
  | noteon => rw [exec_noteon_eq h]; constructor <;> simp
  | noteoff => rw [exec_noteoff_eq h]; constructor <;> rfl
  | ldparam index value =>
    rw [exec_ldparam_eq h]
    obtain ⟨p, hp⟩ | hill := writeStaging_cases index.toNat value s
    · rw [hp]; constructor <;> rfl
    · rw [hill]; constructor <;> rfl
  | reset => rw [exec_reset_eq h]; constructor <;> rfl
  | rdstat clr => rw [exec_rdstat_eq h]; cases clr <;> constructor <;> rfl
  | pslew => rw [exec_pslew_eq h]; constructor <;> simp
  | osc => rw [exec_osc_eq h]; constructor <;> simp
  | env => rw [exec_env_eq h]; constructor <;> simp
  | coef => rw [exec_coef_eq h]; constructor <;> simp
  | filt => rw [exec_filt_eq h]; constructor <;> simp
  | san => rw [exec_san_eq h]; constructor <;> simp

/-- A command begins a capture, or leaves the voice between commands. -/
theorem schedulerSound_command {w : Word64} {i : Instr} {s t : State} (hs : s.sched = .idle)
    (hd : decodeTop w = .ok i) (h : exec i s = .next t) : schedulerSound t := by
  obtain ⟨e, n, rfl⟩ | ⟨x, v, rfl⟩ | rfl | ⟨clr, rfl⟩ := decodeTop_command hd
  · rw [exec_render_eq h, schedulerSound_capture (startRender_sched e n s)]
    exact captureSound_startRender e n s
  · refine schedulerSound_idle ?_
    rw [exec_ldparam_eq h, writeStaging_sched, hs]
  · refine schedulerSound_idle ?_
    rw [exec_reset_eq h, hs]
  · refine schedulerSound_idle ?_
    rw [exec_rdstat_eq h]
    cases clr <;> exact hs

/-- An event leaves the scheduler alone. -/
theorem event_sameCall {w : Word64} {i : Instr} {s t : State} (hd : decodePayload w = .ok i)
    (h : exec i s = .next t) : SameCall s t ∧ t.sched = s.sched := by
  obtain ⟨note, velocity, accent, slide, off, rfl⟩ | ⟨note, velocity, accent, slide, off, rfl⟩ := decodePayload_event hd
  · exact ⟨exec_sameCall h nofun nofun, by rw [exec_noteon_eq h, noteOn_sched]⟩
  · exact ⟨exec_sameCall h nofun nofun, by rw [exec_noteoff_eq h]⟩

/-- A stage keeps the loop sound. -/
theorem LoopSound.stage {st : Stage} {s t : State} (h : LoopSound st s) (hd : st = .pslew → sampleDue s)
    (he : exec st.instr s = .next t) : LoopSound st.next (Machine.afterStage st t) := by
  by_cases hst : st = .vca
  · subst hst
    rw [exec_vca_eq he]
    exact h.afterVca
  · have hr : ∀ e n, st.instr ≠ .render e n := by cases st <;> exact nofun
    have hv : st.instr ≠ .vca := by
      cases st with
      | vca => exact absurd rfl hst
      | pslew | osc | env | coef | filt | san => exact nofun
    exact h.afterStage (exec_sameCall he hr hv) hst (h.pos_lt_n hd)

/-- Settles O52: along the ways a step can go. -/
theorem schedulerStaysSound : Obligations.SchedulerStaysSound := by
  intro s t hs h
  cases step_cases h with
  | hold => exact hs
  | discard w rest r hsched => exact schedulerSound_idle hsched
  | command w rest i _ hsched hp hd he => exact schedulerSound_command (s := { s with port := rest }) hsched hd he
  | begin hsched =>
    rw [schedulerSound_loop (startLoop_sched s)]
    exact loopSound_startLoop ((schedulerSound_capture hsched).mp hs)
  | payload left w rest hsched =>
    rw [schedulerSound_capture (captureWord_sched voicing.evqDepth w _)]
    have hcap : CaptureSound { s with port := rest, sched := .capture (left - 1#24) } :=
      ((schedulerSound_capture hsched).mp hs).congr ⟨rfl, rfl, rfl, rfl, rfl⟩
    exact captureSound_captureWord hcap w
  | late w hsched hw =>
    refine (schedulerSound_loop (s := nextEvent (raiseCond .lateEvent s)) hsched).mpr ?_
    exact ((schedulerSound_loop hsched).mp hs).nextEvent ⟨rfl, rfl, rfl, rfl, rfl⟩ (evi_lt_of_getElem? hw)
  | event w i u hsched hw hn hp hd he =>
    obtain ⟨hsame, hkeep⟩ := event_sameCall hd he
    refine (schedulerSound_loop (s := nextEvent u) (hkeep.trans hsched)).mpr ?_
    exact ((schedulerSound_loop hsched).mp hs).nextEvent hsame (evi_lt_of_getElem? hw)
  | notEvent w r hsched hw =>
    refine (schedulerSound_loop (s := nextEvent (raiseCond .illegalWord s)) hsched).mpr ?_
    exact ((schedulerSound_loop hsched).mp hs).nextEvent ⟨rfl, rfl, rfl, rfl, rfl⟩ (evi_lt_of_getElem? hw)
  | stage st u hsched hd he =>
    rw [schedulerSound_loop (afterStage_sched st u)]
    exact ((schedulerSound_loop hsched).mp hs).stage hd he
  | finish => exact schedulerSound_idle rfl

end Sys2Proof.Proofs.Scheduler
end

section
/-! PROOFS. The pitch registers stay bounded (`10_state.md` R28, `44_pitch_slew.md` R131 to R133): the slew coefficient
lies in [0,1], no note is above 14080 Hz, and a slew step leads from the current pitch towards the target but not
past 14081 Hz from below, nor below 0 from above, whatever the roundings. -/

namespace Sys2Proof.Proofs.Pitch

open Sys2Proof Sys2Proof.Machine Sys2Proof.Safety Sys2Proof.Laws Sys2Proof.Proofs.Access Sys2Proof.Proofs.Bounds
  Sys2Proof.Proofs.Invariants

/-! ### Powers of two -/

theorem pow2Int_of_lt {z : Int} (h : z < -1074) : pow2Int z = f0 := by unfold pow2Int; rw [if_pos h]

theorem pow2Int_of_ge {z : Int} (h : -1074 ≤ z) (h' : z ≤ 1023) :
    pow2Int z = roundUnits false (2 ^ (z + 1074).toNat) 1 := by
  unfold pow2Int; rw [if_neg (by omega), if_neg (by omega)]

/-- The greatest power of two of binary64, 2^1023, is 2^2097 units. -/
theorem two_pow_le_magTop {k : Nat} (h : k ≤ 2097) : 2 ^ k ≤ magUnits fracBits64 magTop :=
  (Nat.pow_le_pow_right Nat.two_pos h).trans (by decide +kernel)

theorem isFinite_pow2Int {z : Int} (h : z ≤ 1023) : isFinite (pow2Int z) = true := by
  rcases lt_or_ge z (-1074) with hlow | hlow
  · rw [pow2Int_of_lt hlow]; exact isFinite_f0
  · have htop : magTop < infMag64 := by decide +kernel
    rw [pow2Int_of_ge hlow h, isFinite_iff, fmag_roundUnits]
    refine (roundMag_le htop.le Nat.one_pos ?_).trans_lt htop
    rw [Nat.mul_one]
    exact two_pow_le_magTop (by omega)

theorem fsign_pow2Int {z : Int} (h : z ≤ 1023) : fsign (pow2Int z) = false := by
  rcases lt_or_ge z (-1074) with hlow | hlow
  · rw [pow2Int_of_lt hlow]; decide
  · rw [pow2Int_of_ge hlow h, fsign_roundUnits]

theorem units_pow2Int_mono {a b : Int} (hab : a ≤ b) (hb : b ≤ 1023) : units (pow2Int a) ≤ units (pow2Int b) := by
  rcases lt_or_ge a (-1074) with hlow | hlow
  · rw [pow2Int_of_lt hlow, units_f0]
    exact units_nonneg (fsign_pow2Int hb)
  · have hmag : fmag (pow2Int a) ≤ fmag (pow2Int b) := by
      rw [pow2Int_of_ge hlow (hab.trans hb), pow2Int_of_ge (hlow.trans hab) hb, fmag_roundUnits, fmag_roundUnits]
      refine roundMag_mono Nat.one_pos Nat.one_pos (Nat.mul_le_mul_right 1 ?_)
      exact Nat.pow_le_pow_right (by decide) (by omega)
    rw [fmag_le_iff] at hmag
    have ha := units_nonneg (fsign_pow2Int (hab.trans hb))
    have hb := units_nonneg (fsign_pow2Int hb)
    omega

/-- Between the powers of two of `a` and `b` a clamp answers a value from 0 to 2^b. -/
theorem fclamp_pow2Int (x : F64) {a b : Int} (hab : a ≤ b) (hb : b ≤ 1023) :
    isFinite (fclamp x (pow2Int a) (pow2Int b)) = true ∧ 0 ≤ units (fclamp x (pow2Int a) (pow2Int b)) ∧
      units (fclamp x (pow2Int a) (pow2Int b)) ≤ units (pow2Int b) := by
  have hfa := isFinite_pow2Int (hab.trans hb)
  have hfb := isFinite_pow2Int hb
  obtain ⟨hf, hlo, hhi⟩ := fclamp_spec (v := x) hfa hfb ((fle_iff hfa hfb).mpr (units_pow2Int_mono hab hb))
  have h0 := units_nonneg (fsign_pow2Int (hab.trans hb))
  exact ⟨hf, h0.trans ((fle_iff hfa hf).mp hlo), (fle_iff hf hfb).mp hhi⟩

theorem units_pow2Int_zero : units (pow2Int 0) = scale64 := by decide +kernel

theorem units_pow2Int_five : units (pow2Int 5) = (scale64 : Int) * 32 := by decide +kernel

/-! ### The whole numbers around a value -/

theorem ediv_le_neg_neg_ediv {u d : Int} (hd : 0 < d) : u / d ≤ -(-u / d) := by
  have h1 : u / d * d ≤ u := Int.ediv_mul_le u hd.ne'
  have h2 : -u / d * d ≤ -u := Int.ediv_mul_le (-u) hd.ne'
  have h3 : (u / d + -u / d) * d ≤ 0 := by rw [add_mul]; omega
  have h4 : u / d + -u / d ≤ 0 := nonpos_of_mul_nonpos_left h3 hd
  omega

theorem scale64_int_pos : (0 : Int) < scale64 := Int.natCast_pos.mpr scale64_pos

theorem floorInt_le_ceilInt (x : F64) : floorInt x ≤ ceilInt x := ediv_le_neg_neg_ediv scale64_int_pos

theorem floorTwice_le_ceilInt {x : F64} (h : units x ≤ 0) : floorTwice x ≤ ceilInt x :=
  (Int.ediv_le_ediv scale64_int_pos (by omega)).trans (floorInt_le_ceilInt x)

theorem ceilInt_le {x : F64} {k : Int} (h : units x ≤ (scale64 : Int) * k) : ceilInt x ≤ k := by
  have : -k ≤ -units x / (scale64 : Int) :=
    (Int.le_ediv_iff_mul_le scale64_int_pos).mpr (by rw [neg_mul, mul_comm]; omega)
  unfold ceilInt; omega

/-! ### The slew coefficient -/

/-- A finite value in [0,1], in units. -/
def InUnit (x : F64) : Prop := isFinite x = true ∧ 0 ≤ units x ∧ units x ≤ scale64

/-- `e^x` of a negative operand, −0 and −∞ among them, lies in [0,1]. -/
theorem exp_inUnit {x : F64} (hn : isNaN x = false) (hs : fsign x = true) : InUnit (voicing.exp x) := by
  change InUnit (expWithin Config.expRaw x)
  have hu := units_nonpos hs
  unfold expWithin
  rw [hn, hs, if_neg Bool.false_ne_true, if_pos rfl, if_pos rfl]
  split
  · exact ⟨isFinite_f0, units_f0.ge, units_f0.le.trans scale64_int_pos.le⟩
  · have hc : ceilInt x ≤ 0 := ceilInt_le (by rwa [mul_zero])
    obtain ⟨hf, h0, h1⟩ := fclamp_pow2Int (fabs (Config.expRaw x)) (floorTwice_le_ceilInt hu) (by omega)
    refine ⟨hf, h0, h1.trans ?_⟩
    rw [← units_pow2Int_zero]
    exact units_pow2Int_mono hc (by decide)

theorem not_isNaN_of_pos {x : F64} (h : flt f0 x = true) : isNaN x = false ∧ fsign x = false := by
  simp only [flt, Bool.and_eq_true, Bool.not_eq_true', decide_eq_true_eq] at h
  obtain ⟨⟨-, hn⟩, hlt⟩ := h
  refine ⟨hn, Bool.eq_false_iff.mpr fun hs => ?_⟩
  have h0 : forder f0 = 0 := by decide
  rw [h0, forder, if_pos hs] at hlt
  omega

/-- The operand of `coefOf` is negative wherever the time constant is above 0: the exact quotient may be rounded to a zero
or an infinity on the way, but no 0/0, ∞/∞ or 0·∞ comes up. -/
theorem coefOf_operand {tau : F64} (h : flt f0 tau = true) :
    isNaN (fdiv (fneg f1) (fmul (fdiv tau (fnat 1000)) (rateF voicing))) = false ∧
      fsign (fdiv (fneg f1) (fmul (fdiv tau (fnat 1000)) (rateF voicing))) = true := by
  obtain ⟨hrf, hrs, hr0⟩ := rateF_spec
  obtain ⟨htn, hts⟩ := not_isNaN_of_pos h
  have hthousand : isFinite (fnat 1000) = true ∧ fsign (fnat 1000) = false ∧ fmag (fnat 1000) ≠ 0 := by decide +kernel
  obtain ⟨hkf, hks, hk0⟩ := hthousand
  have hone : isNaN (fneg f1) = false ∧ fsign (fneg f1) = true ∧ fmag (fneg f1) ≠ 0 ∧ isInf (fneg f1) = false := by
    decide +kernel
  obtain ⟨h1n, h1s, h10, h1i⟩ := hone
  obtain ⟨hqn, hqs⟩ := fdiv_sign htn (isNaN_of_isFinite hkf) (.inr hk0) (.inr (isInf_of_isFinite hkf))
  obtain ⟨hpn, hps⟩ := fmul_sign hqn hrf hr0
  obtain ⟨hn, hs⟩ := fdiv_sign h1n hpn (.inl h10) (.inl h1i)
  refine ⟨hn, ?_⟩
  rw [hs, h1s, hps, hqs, hts, hks, hrs]
  rfl

/-- A rate coefficient lies in [0,1], whatever the time constant. -/
theorem coefOf_inUnit (tau : F64) : InUnit (coefOf voicing tau) := by
  unfold coefOf
  split
  · next h =>
    obtain ⟨hn, hs⟩ := coefOf_operand h
    exact exp_inUnit hn hs
  · exact ⟨isFinite_f0, units_f0.ge, units_f0.le.trans scale64_int_pos.le⟩

/-! ### The frequency of a note -/

/-- The distance of a note from 69, in semitones. -/
theorem noteDistance_bounds (note : BitVec 7) :
    isFinite (fsub (fnat note.toNat) tuneNote) = true ∧
      -((scale64 : Int) * 69) ≤ units (fsub (fnat note.toNat) tuneNote) ∧
      units (fsub (fnat note.toNat) tuneNote) ≤ (scale64 : Int) * 58 := by
  have hnote := note.isLt
  have hS := scale64_int_pos
  obtain ⟨hnf, hn⟩ := fnat_exact (k := note.toNat) (by omega)
  obtain ⟨htf, ht⟩ : isFinite tuneNote = true ∧ units tuneNote = (scale64 : Int) * 69 := fnat_exact (by decide)
  obtain ⟨hzf, hz⟩ := fnat_exact (k := 58) (by decide)
  have h0 : 0 ≤ (scale64 : Int) * note.toNat := by positivity
  have h127 : (scale64 : Int) * note.toNat ≤ scale64 * 127 := mul_le_mul_of_nonneg_left (by omega) hS.le
  have hb := fsub_between hnf htf (isFinite_fneg htf) hzf (by rw [units_fneg]; omega) (by rw [hz]; omega)
  rwa [units_fneg, ht, hz] at hb

/-- The exponent of every note is finite, and at most 5 when rounded up: 58 semitones are less than 5 octaves. -/
theorem freqOf_exponent (note : BitVec 7) :
    isFinite (fdiv (fsub (fnat note.toNat) tuneNote) (fnat 12)) = true ∧
      ceilInt (fdiv (fsub (fnat note.toNat) tuneNote) (fnat 12)) ≤ 5 := by
  obtain ⟨hf, hlo, hhi⟩ := noteDistance_bounds note
  generalize fsub (fnat note.toNat) tuneNote = d at hf hlo hhi
  have hS := scale64_int_pos
  obtain ⟨h12f, h12⟩ := fnat_exact (k := 12) (by decide)
  have h12ne : units (fnat 12) ≠ 0 := by rw [h12]; positivity
  have hquot {k : Nat} (hk : k < 2 ^ 53) (h : (units d).natAbs ≤ scale64 * (k * 12)) :
      isFinite (fdiv d (fnat 12)) = true ∧ (units (fdiv d (fnat 12))).natAbs ≤ scale64 * k := by
    obtain ⟨hkf, hku⟩ := fnat_exact hk
    have habs : (units (fnat k)).natAbs = scale64 * k := by rw [hku, ← Nat.cast_mul, Int.natAbs_natCast]
    have habs12 : (units (fnat 12)).natAbs = scale64 * 12 := by rw [h12, ← Nat.cast_mul, Int.natAbs_natCast]
    rw [← habs]
    refine natAbs_units_fdiv_le hf h12f hkf h12ne ?_
    rw [habs, habs12]
    calc scale64 * (units d).natAbs ≤ scale64 * (scale64 * (k * 12)) := Nat.mul_le_mul_left _ h
      _ = scale64 * k * (scale64 * 12) := by ring
  obtain ⟨hqf, -⟩ := hquot (k := 6) (by decide) (by omega)
  refine ⟨hqf, ceilInt_le ?_⟩
  cases hs : fsign d with
  | true =>
    obtain ⟨-, hqs⟩ := fdiv_sign (isNaN_of_isFinite hf) (isNaN_of_isFinite h12f)
      (.inr (fmag_eq_zero_iff.not.mpr h12ne)) (.inl (isInf_of_isFinite hf))
    have hneg := units_nonpos (hqs.trans (by rw [hs]; decide +kernel))
    omega
  | false =>
    have hpos := units_nonneg hs
    obtain ⟨-, hle⟩ := hquot (k := 5) (by decide) (by omega)
    omega

/-- A finite value from 0 to a whole number of hertz, in units. -/
def UpTo (k : Nat) (x : F64) : Prop := isFinite x = true ∧ 0 ≤ units x ∧ units x ≤ (scale64 : Int) * k

theorem pow2_upTo {x : F64} (hx : isFinite x = true) (hc : ceilInt x ≤ 5) : UpTo 32 (voicing.pow2 x) := by
  change UpTo 32 (pow2Within Config.pow2Raw x)
  unfold pow2Within
  rw [isNaN_of_isFinite hx, isInf_of_isFinite hx, if_neg Bool.false_ne_true, if_neg Bool.false_ne_true]
  obtain ⟨hf, h0, h1⟩ := fclamp_pow2Int (fabs (Config.pow2Raw x)) (floorInt_le_ceilInt x) (by omega)
  refine ⟨hf, h0, h1.trans ((units_pow2Int_mono hc (by decide)).trans ?_)⟩
  exact units_pow2Int_five.le

/-- No note is above 440 · 2^5 = 14080 Hz. -/
theorem freqOf_upTo (note : BitVec 7) : UpTo 14080 (freqOf voicing note) := by
  obtain ⟨hx, hc⟩ := freqOf_exponent note
  obtain ⟨hpf, hp0, hp⟩ := pow2_upTo hx hc
  obtain ⟨haf, ha⟩ : isFinite tuneA4 = true ∧ units tuneA4 = (scale64 : Int) * 440 := fnat_exact (by decide)
  obtain ⟨hzf, hz⟩ := fnat_exact (k := 14080) (by decide)
  have hS := scale64_int_pos
  have hprod : (units tuneA4).natAbs * (units (voicing.pow2 (fdiv (fsub (fnat note.toNat) tuneNote) (fnat 12)))).natAbs
      ≤ (units (fnat 14080)).natAbs * scale64 := by
    calc _ ≤ (scale64 * 440) * (scale64 * 32) := Nat.mul_le_mul (by omega) (by omega)
      _ = (scale64 * 14080) * scale64 := by ring
      _ = _ := by rw [hz]; rfl
  obtain ⟨hf, hle⟩ := natAbs_units_fmul_le haf hpf hzf hprod
  have hsign := (units_fmul_sign haf hpf).1 (mul_nonneg (by omega) hp0)
  exact ⟨hf, hsign, by unfold freqOf; omega⟩

/-! ### One slew step -/

/-- A finite value times one in [0,1] lies between 0 and the value. -/
theorem fmul_inUnit {x y : F64} (hx : isFinite x = true) (hy : InUnit y) :
    isFinite (fmul x y) = true ∧ (0 ≤ units x → 0 ≤ units (fmul x y) ∧ units (fmul x y) ≤ units x) ∧
      (units x ≤ 0 → units x ≤ units (fmul x y) ∧ units (fmul x y) ≤ 0) := by
  obtain ⟨hyf, hy0, hy1⟩ := hy
  obtain ⟨hf, hle⟩ := natAbs_units_fmul_le hx hyf hx (Nat.mul_le_mul_left _ (by omega))
  obtain ⟨hpos, hneg⟩ := units_fmul_sign hx hyf
  refine ⟨hf, fun h => ?_, fun h => ?_⟩
  · have := hpos (mul_nonneg h hy0)
    omega
  · have := hneg (mul_nonpos_of_nonpos_of_nonneg h hy0)
    omega

/-- `1 − coeff` lies in [0,1] with `coeff`. -/
theorem one_sub_inUnit {x : F64} (hx : InUnit x) : InUnit (fsub f1 x) := by
  obtain ⟨hf, h0, h1⟩ := hx
  have hb := fsub_between isFinite_f1 hf isFinite_f0 isFinite_f1 (by rw [units_f0, units_f1]; omega)
    (by rw [units_f1]; omega)
  rwa [units_f0, units_f1] at hb

/-- From a pitch not above the target: with `q` the whole hertz of the pitch, the rounded difference is at most `14080 - q`, so
the step ends below 14081 Hz. -/
theorem slewed_up {cur target coeff : F64} (hc : UpTo 16384 cur) (ht : UpTo 14080 target) (hg : InUnit coeff)
    (hle : units cur ≤ units target) : UpTo 16384 (slewed cur target coeff) := by
  obtain ⟨hcf, hc0, -⟩ := hc
  obtain ⟨htf, -, ht1⟩ := ht
  have hS := scale64_int_pos
  obtain ⟨q, hq⟩ := Int.eq_ofNat_of_zero_le (Int.ediv_nonneg hc0 hS.le)
  have hfloor : (scale64 : Int) * q ≤ units cur := by rw [← hq]; exact Int.mul_ediv_self_le hS.ne'
  have hnext : units cur < (scale64 : Int) * q + scale64 := by rw [← hq]; exact Int.lt_mul_ediv_self_add hS
  have hq1 : (q : Int) ≤ 14080 := le_of_mul_le_mul_left (hfloor.trans (hle.trans ht1)) hS
  obtain ⟨r, hr⟩ : ∃ r, q + r = 14080 := ⟨14080 - q, by omega⟩
  have hsplit : (scale64 : Int) * q + scale64 * r = scale64 * 14080 := by
    rw [← mul_add, ← Nat.cast_add, hr, Nat.cast_ofNat]
  obtain ⟨hrf, hru⟩ := fnat_exact (k := r) (by omega)
  obtain ⟨htop, htopu⟩ := fnat_exact (k := 16384) (by decide)
  obtain ⟨hdf, hd0, hd1⟩ := fsub_between htf hcf isFinite_f0 hrf (by rw [units_f0]; omega) (by rw [hru]; omega)
  obtain ⟨hpf, hup, -⟩ := fmul_inUnit hdf (one_sub_inUnit hg)
  rw [units_f0] at hd0
  obtain ⟨hp0, hp1⟩ := hup hd0
  have hsum := fadd_between hcf hpf isFinite_f0 htop (by rw [units_f0]; omega)
    (by rw [htopu]; omega)
  rwa [units_f0, htopu] at hsum

/-- From a pitch above the target: the rounded difference is at most the pitch itself, so the step stays between 0 and the
pitch. -/
theorem slewed_down {cur target coeff : F64} (hc : UpTo 16384 cur) (ht : UpTo 14080 target) (hg : InUnit coeff)
    (hlt : units target < units cur) : UpTo 16384 (slewed cur target coeff) := by
  obtain ⟨hcf, hc0, hc1⟩ := hc
  obtain ⟨htf, ht0, -⟩ := ht
  obtain ⟨hdf, hd0, hd1⟩ := fsub_between htf hcf (isFinite_fneg hcf) isFinite_f0 (by rw [units_fneg]; omega)
    (by rw [units_f0]; omega)
  rw [units_f0] at hd1
  rw [units_fneg] at hd0
  obtain ⟨hpf, -, hdown⟩ := fmul_inUnit hdf (one_sub_inUnit hg)
  obtain ⟨hp0, hp1⟩ := hdown hd1
  obtain ⟨hf, h0, h1⟩ := fadd_between hcf hpf isFinite_f0 hcf (by rw [units_f0]; omega) (by omega)
  rw [units_f0] at h0
  exact ⟨hf, h0, h1.trans hc1⟩

theorem slewed_upTo {cur target coeff : F64} (hc : UpTo 16384 cur) (ht : UpTo 14080 target) (hg : InUnit coeff) :
    UpTo 16384 (slewed cur target coeff) := by
  rcases le_or_gt (units cur) (units target) with hle | hlt
  · exact slewed_up hc ht hg hle
  · exact slewed_down hc ht hg hlt

/-! ### The invariant -/

theorem within_16384_iff {x : F64} : within f0 (fnat 16384) x = true ↔ UpTo 16384 x := by
  obtain ⟨htop, htopu⟩ := fnat_exact (k := 16384) (by decide)
  rw [within_iff isFinite_f0 htop, units_f0, htopu]
  rfl

theorem UpTo.mono {k l : Nat} {x : F64} (h : UpTo k x) (hkl : k ≤ l) : UpTo l x := by
  obtain ⟨hf, h0, h1⟩ := h
  exact ⟨hf, h0, h1.trans (mul_le_mul_of_nonneg_left (Int.ofNat_le.mpr hkl) scale64_int_pos.le)⟩

theorem f0_upTo (k : Nat) : UpTo k f0 :=
  ⟨isFinite_f0, units_f0.ge, units_f0.le.trans (mul_nonneg scale64_int_pos.le (Int.natCast_nonneg k))⟩

/-- A legal target is at most 14080 Hz. -/
theorem target_upTo {v : Voice} (h : targetLegal v) : UpTo 14080 v.pitchTarget := by
  obtain h0 | ⟨note, hnote⟩ := h
  · rw [h0]; exact f0_upTo _
  · rw [hnote]; exact freqOf_upTo note

/-- The pitch registers are bounded with any two that agree with them. -/
theorem pitchBounded_congr {v w : Voice} (hc : w.pitchCurrent = v.pitchCurrent) (ht : w.pitchTarget = v.pitchTarget)
    (h : pitchBounded v) : pitchBounded w := by
  rwa [pitchBounded, targetLegal, hc, ht]

theorem pitchBounded_noteOn (note : BitVec 7) (accent slide : Bool) {s : State} (h : pitchBounded s.voice) :
    pitchBounded (noteOn voicing note accent slide s).voice := by
  obtain ⟨-, hcur⟩ := h
  unfold noteOn
  split
  · exact ⟨.inr ⟨note, rfl⟩, within_16384_iff.mpr ((freqOf_upTo note).mono (by decide))⟩
  · exact ⟨.inr ⟨note, rfl⟩, hcur⟩

theorem pitchBounded_pitchSlew {s : State} (h : pitchBounded s.voice) : pitchBounded (pitchSlew voicing s).voice := by
  obtain ⟨htarget, hcur⟩ := h
  refine ⟨htarget, within_16384_iff.mpr ?_⟩
  exact slewed_upTo (within_16384_iff.mp hcur) (target_upTo htarget) (coefOf_inUnit _)

theorem exec_pitchBounded {i : Instr} {s t : State} (h : exec i s = .next t) (hs : pitchBounded s.voice) :
    pitchBounded t.voice := by
  have kept (hc : mayWrite i .pitchCurrent = false) (ht : mayWrite i .pitchTarget = false) : pitchBounded t.voice :=
    pitchBounded_congr (exec_readD h hc) (exec_readD h ht) hs
  cases i with
  | noteon note velocity accent slide off => rw [exec_noteon_eq h]; exact pitchBounded_noteOn note accent slide hs
  | reset => rw [exec_reset_eq h]; exact ⟨.inl rfl, within_16384_iff.mpr (f0_upTo _)⟩
  | pslew => rw [exec_pslew_eq h]; exact pitchBounded_pitchSlew hs
  | noteoff | render | ldparam | rdstat | osc | env | coef | filt | san | vca => exact kept rfl rfl

/-- Settles O51: every instruction keeps the bound, so every step does. -/
theorem pitchStaysBounded : Obligations.PitchStaysBounded := fun _ _ hs h =>
  step_keeps (P := fun v _ => pitchBounded v) (fun _ _ _ he => exec_pitchBounded he) h hs

end Sys2Proof.Proofs.Pitch
end

section
/-! PROOFS. The command port between calls, and where the active parameters are written (`20_memory.md` R44, R51). -/

namespace Sys2Proof.Proofs.CommandPort

open Sys2Proof Sys2Proof.Machine Sys2Proof.Laws Sys2Proof.Proofs.Access Sys2Proof.Proofs.Invariants

/-! ### A command at the port -/

theorem step_of_idle {s : State} (hs : s.sched = .idle) : step s = idleStep s := by
  unfold step advance; rw [hs]

theorem idleStep_of_port {s : State} {w : Word64} {rest : List Word64} (hp : s.port = w :: rest) :
    idleStep s = acceptWord w { s with port := rest } := by
  unfold idleStep; rw [hp]

theorem acceptWord_of_decodeTop {w : Word64} {i : Instr} (hd : decodeTop w = .ok i) (s : State) :
    acceptWord w s = exec i s := by
  unfold acceptWord; rw [hd]

/-- Settles O6: the scheduler is idle, so the word is accepted, and it is a command. -/
theorem stepRunsCommand : Obligations.StepRunsCommand := by
  intro s w rest i hs hp hd
  calc step s = idleStep s := step_of_idle hs
    _ = acceptWord w { s with port := rest } := idleStep_of_port hp
    _ = exec i { s with port := rest } := acceptWord_of_decodeTop hd _

/-! ### Where the active parameters are written -/

/-- No event and no stage is a `RENDER`. -/
theorem ne_render_of_decodePayload {w : Word64} {i : Instr} (h : decodePayload w = .ok i) (e : BitVec 24)
    (n : BitVec 32) : i ≠ .render e n := by
  obtain ⟨_, _, _, _, _, rfl⟩ | ⟨_, _, _, _, _, rfl⟩ := decodePayload_event h <;> exact nofun

theorem ne_render_of_stage (st : Stage) (e : BitVec 24) (n : BitVec 32) : st.instr ≠ .render e n := by
  cases st <;> exact nofun

/-- Every way a step can go keeps the active parameters, but for a `RENDER` accepted between calls. -/
theorem step_params_cases {s t : State} (h : step s = .next t) :
    t.params = s.params ∨
      (s.sched = .idle ∧ ∃ w rest e n, s.port = w :: rest ∧ decodeTop w = .ok (.render e n)) := by
  cases step_cases h with
  | command w rest i _ hs hp hd he =>
    by_cases hi : ∃ e n, i = .render e n
    · obtain ⟨e, n, rfl⟩ := hi
      exact .inr ⟨hs, w, rest, e, n, hp, hd⟩
    · have hkept := exec_params he fun e n hr => hi ⟨e, n, hr⟩
      exact .inl hkept
  | event w i u hs hw hn hp hd he =>
    have hkept := exec_params he (ne_render_of_decodePayload hd)
    exact .inl hkept
  | stage st u hs hd he =>
    have hkept := exec_params he (ne_render_of_stage st)
    exact .inl hkept
  | payload => exact .inl (captureWord_params _ _ _)
  | hold => exact .inl rfl
  | discard => exact .inl rfl
  | begin => exact .inl rfl
  | late => exact .inl rfl
  | notEvent => exact .inl rfl
  | finish => exact .inl rfl

/-- Settles O41: where the active parameters are not kept, a `RENDER` was accepted. -/
theorem parametersChangeOnlyAtRender : Obligations.ParametersChangeOnlyAtRender := fun _ _ h hne =>
  (step_params_cases h).resolve_left hne

end Sys2Proof.Proofs.CommandPort
end

section
/-! SUPPORT. The encoding (`30_encoding.md`): what the decoder accepts and what the encoder answers are the same relation,
"the code agrees with the instruction's row of the opcode map and its fields hold the operands". The round trips both ways
and the opcode map are read off it. -/

namespace Sys2Proof.Proofs.Encoding

open Sys2Proof Sys2Proof.Machine Sys2Proof.Laws

/-! ### Bits that a mask selects -/

/-- A row of bits that the mask holds whole is that of the pattern. -/
theorem extractLsb'_of_and_eq {w mask pattern : Word64} {start len : Nat} (h : w &&& mask = pattern)
    (hm : mask.extractLsb' start len = BitVec.allOnes len) : w.extractLsb' start len = pattern.extractLsb' start len := by
  rw [← h, BitVec.extractLsb'_and, hm, BitVec.and_allOnes]

theorem fieldOp_of_match {w mask : Word64} {op : BitVec 4} (h : w &&& mask = op ++ 0#60)
    (hm : fieldOp mask = BitVec.allOnes 4) : fieldOp w = op :=
  (extractLsb'_of_and_eq h hm).trans BitVec.extractLsb'_append_eq_left

theorem reserved_of_match {w mask : Word64} {op : BitVec 4} {start len : Nat} (h : w &&& mask = op ++ 0#60)
    (hm : mask.extractLsb' start len = BitVec.allOnes len) (hs : start + len ≤ 60) :
    w.extractLsb' start len = 0#len := by
  rw [extractLsb'_of_and_eq h hm, BitVec.extractLsb'_append_eq_of_add_le hs, BitVec.extractLsb'_zero]

/-! ### The decoder, one equation for each mnemonic

The mask of every row holds the four bits of `op` (`30_encoding.md` R66), so a word that matches a row has the row's `op`. -/

theorem decodeWord_noteon {w : Word64} (h : w &&& maskN = 0x1000000000000000#64) :
    decodeWord w =
      .ok (.noteon (fieldNote w) (fieldVelocity w) (fieldAccent w) (fieldSlide w) (fieldOffset w)) := by
  have hop : fieldOp w = 1#4 := fieldOp_of_match h (by decide)
  simp [decodeWord, hop, h]

theorem decodeWord_noteoff {w : Word64} (h : w &&& maskN = 0x2000000000000000#64) :
    decodeWord w =
      .ok (.noteoff (fieldNote w) (fieldVelocity w) (fieldAccent w) (fieldSlide w) (fieldOffset w)) := by
  have hop : fieldOp w = 2#4 := fieldOp_of_match h (by decide)
  simp [decodeWord, hop, h]

theorem decodeWord_render {w : Word64} (h : w &&& maskR = 0x3000000000000000#64) :
    decodeWord w = .ok (.render (fieldEvCount w) (fieldNumSamples w)) := by
  have hop : fieldOp w = 3#4 := fieldOp_of_match h (by decide)
  simp [decodeWord, hop, h]

theorem decodeWord_ldparam {w : Word64} (h : w &&& maskP = 0x4000000000000000#64)
    (hx : (fieldIndex w).toNat < 12) : decodeWord w = .ok (.ldparam (fieldIndex w) (fieldValue w)) := by
  have hop : fieldOp w = 4#4 := fieldOp_of_match h (by decide)
  simp [decodeWord, hop, h, hx]

theorem decodeWord_reset {w : Word64} (h : w &&& maskReset = 0x5000000000000000#64) : decodeWord w = .ok .reset := by
  have hop : fieldOp w = 5#4 := fieldOp_of_match h (by decide)
  simp [decodeWord, hop, h]

theorem decodeWord_rdstat {w : Word64} (h : w &&& maskRdstat = 0x6000000000000000#64) :
    decodeWord w = .ok (.rdstat (fieldClr w)) := by
  have hop : fieldOp w = 6#4 := fieldOp_of_match h (by decide)
  simp [decodeWord, hop, h]

/-- The fields of a word hold the operands of an instruction (`30_encoding.md` R65). -/
def HasOperands (w : Word64) : Instr → Prop
  | .noteon note velocity accent slide off =>
    fieldNote w = note ∧ fieldVelocity w = velocity ∧ fieldAccent w = accent ∧ fieldSlide w = slide ∧ fieldOffset w = off
  | .noteoff note velocity accent slide off =>
    fieldNote w = note ∧ fieldVelocity w = velocity ∧ fieldAccent w = accent ∧ fieldSlide w = slide ∧ fieldOffset w = off
  | .render evCount n => fieldEvCount w = evCount ∧ fieldNumSamples w = n
  | .ldparam index value => fieldIndex w = index ∧ fieldValue w = value
  | .rdstat clr => fieldClr w = clr
  | .reset | .pslew | .osc | .env | .coef | .filt | .san | .vca => True

/-- What a word spells: it agrees with the row of the instruction, its fields hold the operands, and the index of an
`LDPARAM` is one of the twelve. -/
theorem decodeWord_eq_ok_iff {w : Word64} {i : Instr} :
    decodeWord w = .ok i ↔ (rowOf i).agrees (.word w) ∧ HasOperands w i ∧ i.wellFormed = true := by
  constructor
  · intro h
    unfold decodeWord at h
    split_ifs at h with _ hm _ hm _ hm _ hm hx _ hm _ hm <;> cases h
    · exact ⟨hm, ⟨rfl, rfl, rfl, rfl, rfl⟩, rfl⟩
    · exact ⟨hm, ⟨rfl, rfl, rfl, rfl, rfl⟩, rfl⟩
    · exact ⟨hm, ⟨rfl, rfl⟩, rfl⟩
    · exact ⟨hm, ⟨rfl, rfl⟩, decide_eq_true hx⟩
    · exact ⟨hm, trivial, rfl⟩
    · exact ⟨hm, rfl, rfl⟩
  · rintro ⟨hm, ho, hw⟩
    cases i with
    | noteon => obtain ⟨rfl, rfl, rfl, rfl, rfl⟩ := ho; exact decodeWord_noteon hm
    | noteoff => obtain ⟨rfl, rfl, rfl, rfl, rfl⟩ := ho; exact decodeWord_noteoff hm
    | render => obtain ⟨rfl, rfl⟩ := ho; exact decodeWord_render hm
    | ldparam => obtain ⟨rfl, rfl⟩ := ho; exact decodeWord_ldparam hm (of_decide_eq_true hw)
    | reset => exact decodeWord_reset hm
    | rdstat => cases ho; exact decodeWord_rdstat hm
    | pslew | osc | env | coef | filt | san | vca => exact hm.elim

/-- What a stage code names is the stage of its row. -/
theorem decodeStage_eq_ok_iff {c : BitVec 4} {i : Instr} :
    decodeStage c = .ok i ↔ (rowOf i).agrees (.stage c) := by
  constructor
  · intro h
    unfold decodeStage at h
    split_ifs at h with hc hc hc hc hc hc hc <;> cases h <;> exact hc
  · intro h
    cases i with
    | noteon | noteoff | render | ldparam | reset | rdstat => exact h.elim
    | pslew | osc | env | coef | filt | san | vca => cases h; rfl

/-! ### The encoder, put together again from a word's fields

Every bit of a format is a bit of a field or a reserved bit, and the mask holds all the reserved ones. -/

/-- A word cut along format N (`30_encoding.md` R61). -/
theorem formatN_cut (w : Word64) :
    fieldOp w ++ w.extractLsb' 58 2 ++ BitVec.ofBool (fieldSlide w) ++ BitVec.ofBool (fieldAccent w) ++
      w.extractLsb' 55 1 ++ fieldVelocity w ++ w.extractLsb' 47 1 ++ fieldNote w ++ w.extractLsb' 32 8 ++
      fieldOffset w = w := by
  refine BitVec.eq_of_getLsbD_eq fun i hi => ?_
  simp only [fieldOp, fieldSlide, fieldAccent, fieldVelocity, fieldNote, fieldOffset, BitVec.getLsbD_append,
    BitVec.getLsbD_extractLsb', BitVec.getLsbD_ofBool]
  interval_cases i <;> simp

/-- A word cut along format R (`30_encoding.md` R62). -/
theorem formatR_cut (w : Word64) :
    fieldOp w ++ w.extractLsb' 56 4 ++ fieldEvCount w ++ fieldNumSamples w = w := by
  refine BitVec.eq_of_getLsbD_eq fun i hi => ?_
  simp only [fieldOp, fieldEvCount, fieldNumSamples, BitVec.getLsbD_append, BitVec.getLsbD_extractLsb']
  interval_cases i <;> simp

/-- A word cut along format P (`30_encoding.md` R63). -/
theorem formatP_cut (w : Word64) :
    fieldOp w ++ w.extractLsb' 40 20 ++ fieldIndex w ++ fieldValue w = w := by
  refine BitVec.eq_of_getLsbD_eq fun i hi => ?_
  simp only [fieldOp, fieldIndex, fieldValue, BitVec.getLsbD_append, BitVec.getLsbD_extractLsb']
  interval_cases i <;> simp

/-- A word cut along format Z (`30_encoding.md` R64). -/
theorem formatZ_cut (w : Word64) : fieldOp w ++ w.extractLsb' 1 59 ++ BitVec.ofBool (fieldClr w) = w := by
  refine BitVec.eq_of_getLsbD_eq fun i hi => ?_
  simp only [fieldOp, fieldClr, BitVec.getLsbD_append, BitVec.getLsbD_extractLsb', BitVec.getLsbD_ofBool]
  interval_cases i <;> simp

theorem encodeN_fields {w : Word64} {op : BitVec 4} (h : w &&& maskN = op ++ 0#60) :
    encodeN op (fieldNote w) (fieldVelocity w) (fieldAccent w) (fieldSlide w) (fieldOffset w) = w := by
  have hw := formatN_cut w
  rwa [fieldOp_of_match h (by decide), reserved_of_match (start := 58) h (by decide) (by decide),
    reserved_of_match (start := 55) h (by decide) (by decide), reserved_of_match (start := 47) h (by decide) (by decide),
    reserved_of_match (start := 32) h (by decide) (by decide)] at hw

theorem encodeR_fields {w : Word64} (h : w &&& maskR = 3#4 ++ 0#60) :
    encodeR (fieldEvCount w) (fieldNumSamples w) = w := by
  have hw := formatR_cut w
  rwa [fieldOp_of_match h (by decide), reserved_of_match (start := 56) h (by decide) (by decide)] at hw

theorem encodeP_fields {w : Word64} (h : w &&& maskP = 4#4 ++ 0#60) :
    encodeP (fieldIndex w) (fieldValue w) = w := by
  have hw := formatP_cut w
  rwa [fieldOp_of_match h (by decide), reserved_of_match (start := 40) h (by decide) (by decide)] at hw

theorem encodeZ_fields {w : Word64} {op : BitVec 4} (h : w &&& maskRdstat = op ++ 0#60) :
    encodeZ op (fieldClr w) = w := by
  have hw := formatZ_cut w
  rwa [fieldOp_of_match h (by decide), reserved_of_match (start := 1) h (by decide) (by decide)] at hw

/-- The encoding of a well-formed instruction agrees with its row. -/
theorem agrees_encode {i : Instr} (hi : i.wellFormed = true) : (rowOf i).agrees (encode i) := by
  cases i with
  | noteon n v a l o => exact MatchRow.noteon n v a l o hi
  | noteoff n v a l o => exact MatchRow.noteoff n v a l o hi
  | render e n => exact MatchRow.render e n hi
  | ldparam x v => exact MatchRow.ldparam x v hi
  | reset => exact MatchRow.reset hi
  | rdstat c => exact MatchRow.rdstat c hi
  | pslew | osc | env | coef | filt | san | vca => rfl

/-- The word of an instruction holds its operands. -/
theorem hasOperands_of_encode {i : Instr} {w : Word64} (h : encode i = .word w) : HasOperands w i := by
  cases i <;> cases h <;> simp [HasOperands]

/-- The word that agrees with an instruction's row and holds its operands is its encoding. -/
theorem encode_of_agrees {i : Instr} {w : Word64} (hm : (rowOf i).agrees (.word w)) (ho : HasOperands w i) :
    encode i = .word w := by
  cases i with
  | noteon => obtain ⟨rfl, rfl, rfl, rfl, rfl⟩ := ho; exact congrArg Code.word (encodeN_fields hm)
  | noteoff => obtain ⟨rfl, rfl, rfl, rfl, rfl⟩ := ho; exact congrArg Code.word (encodeN_fields hm)
  | render => obtain ⟨rfl, rfl⟩ := ho; exact congrArg Code.word (encodeR_fields hm)
  | ldparam => obtain ⟨rfl, rfl⟩ := ho; exact congrArg Code.word (encodeP_fields hm)
  | reset =>
    have hw : w = 0x5000000000000000#64 := BitVec.and_allOnes.symm.trans hm
    rw [hw]; rfl
  | rdstat => cases ho; exact congrArg Code.word (encodeZ_fields hm)
  | pslew | osc | env | coef | filt | san | vca => exact hm.elim

/-- The stage code of an instruction is that of its row. -/
theorem encode_eq_stage_iff {i : Instr} {c : BitVec 4} : encode i = .stage c ↔ (rowOf i).agrees (.stage c) := by
  cases i <;> simp [encode, rowOf, Row.agrees, eq_comm]

theorem wellFormed_of_encode_stage {i : Instr} {c : BitVec 4} (h : encode i = .stage c) : i.wellFormed = true := by
  cases i with
  | ldparam => cases h
  | _ => rfl

/-! ### The round trips -/

/-- The decoder answers exactly the well-formed instructions that the encoder sends to the code. -/
theorem decode_eq_ok_iff {c : Code} {i : Instr} : decode c = .ok i ↔ i.wellFormed = true ∧ encode i = c := by
  cases c with
  | word w =>
    refine decodeWord_eq_ok_iff.trans ⟨fun ⟨hm, ho, hi⟩ => ⟨hi, encode_of_agrees hm ho⟩, fun ⟨hi, he⟩ => ?_⟩
    exact ⟨he ▸ agrees_encode hi, hasOperands_of_encode he, hi⟩
  | stage c =>
    refine (decodeStage_eq_ok_iff.trans encode_eq_stage_iff.symm).trans ⟨fun he => ⟨?_, he⟩, And.right⟩
    exact wellFormed_of_encode_stage he

/-- Settles O1: the encoder sends the instruction to that code. -/
theorem decodeOfEncode : Obligations.DecodeOfEncode := fun _ hi => decode_eq_ok_iff.mpr ⟨hi, rfl⟩

/-- Settles O2: the same equivalence, from the decoder's side. -/
theorem encodeOfDecode : Obligations.EncodeOfDecode := fun _ _ h => decode_eq_ok_iff.mp h

/-! ### The opcode map -/

theorem place_eq_topLevel_iff {i : Instr} : i.place = .topLevel ↔
    (∃ e n, i = .render e n) ∨ (∃ x v, i = .ldparam x v) ∨ i = .reset ∨ ∃ c, i = .rdstat c := by
  cases i <;> simp [Instr.place]

theorem place_eq_payload_iff {i : Instr} : i.place = .payload ↔
    (∃ n v a l o, i = .noteon n v a l o) ∨ ∃ n v a l o, i = .noteoff n v a l o := by
  cases i <;> simp [Instr.place]

/-- Both ports let through the instructions of their place. -/
theorem ite_place_eq_ok_iff {p : Place} {r : Reject} {i j : Instr} :
    (if j.place = p then .ok j else .error r : Except Reject Instr) = .ok i ↔
      (.ok j : Except Reject Instr) = .ok i ∧ i.place = p := by
  constructor
  · intro h
    split_ifs at h with hj
    cases h
    exact ⟨rfl, hj⟩
  · rintro ⟨h, hi⟩
    cases h
    exact if_pos hi

theorem decodeTop_eq_ok_iff {w : Word64} {i : Instr} :
    decodeTop w = .ok i ↔ decodeWord w = .ok i ∧ i.place = .topLevel := by
  unfold decodeTop
  cases decodeWord w with
  | error r => simp
  | ok j => exact ite_place_eq_ok_iff

theorem decodePayload_eq_ok_iff {w : Word64} {i : Instr} :
    decodePayload w = .ok i ↔ decodeWord w = .ok i ∧ i.place = .payload := by
  unfold decodePayload
  cases decodeWord w with
  | error r => simp
  | ok j => exact ite_place_eq_ok_iff

/-- A word spells no stage. -/
theorem place_ne_stage_of_decodeWord {w : Word64} {i : Instr} (h : decodeWord w = .ok i) : i.place ≠ .stage := by
  obtain ⟨hm, -, -⟩ := decodeWord_eq_ok_iff.mp h
  cases i with
  | noteon | noteoff | render | ldparam | reset | rdstat => exact nofun
  | pslew | osc | env | coef | filt | san | vca => exact hm.elim

/-- Settles O3: what a mnemonic's words have in common is its row, and a word of the row is decoded to it. -/
theorem opcodeMap : Obligations.OpcodeMap := by
  intro w
  refine ⟨⟨?_, fun h => ⟨_, _, _, _, _, decodeWord_noteon h⟩⟩, ⟨?_, fun h => ⟨_, _, _, _, _, decodeWord_noteoff h⟩⟩,
    ⟨?_, fun h => ⟨_, _, decodeWord_render h⟩⟩,
    ⟨?_, fun ⟨h, hx⟩ => ⟨_, _, decodeWord_ldparam h (Nat.lt_succ_of_le hx)⟩⟩, ⟨?_, decodeWord_reset⟩,
    ⟨?_, fun h => ⟨_, decodeWord_rdstat h⟩⟩, ?_, ?_, ?_⟩
  · rintro ⟨_, _, _, _, _, h⟩
    exact (decodeWord_eq_ok_iff.mp h).1
  · rintro ⟨_, _, _, _, _, h⟩
    exact (decodeWord_eq_ok_iff.mp h).1
  · rintro ⟨_, _, h⟩
    exact (decodeWord_eq_ok_iff.mp h).1
  · rintro ⟨_, _, h⟩
    obtain ⟨hm, ⟨rfl, -⟩, hi⟩ := decodeWord_eq_ok_iff.mp h
    exact ⟨hm, Nat.le_of_lt_succ (of_decide_eq_true hi)⟩
  · exact fun h => (decodeWord_eq_ok_iff.mp h).1
  · rintro ⟨_, h⟩
    exact (decodeWord_eq_ok_iff.mp h).1
  · intro i hi h
    have hstage : ∀ j ∈ [Instr.pslew, .osc, .env, .coef, .filt, .san, .vca], j.place = .stage := by decide
    exact place_ne_stage_of_decodeWord h (hstage i hi)
  · exact fun i => decodeTop_eq_ok_iff.trans (and_congr_right' place_eq_topLevel_iff)
  · exact fun i => decodePayload_eq_ok_iff.trans (and_congr_right' place_eq_payload_iff)

/-! ### Worked encodings -/

theorem decodeWord_of_encode {w : Word64} {i : Instr} (hi : i.wellFormed = true) (he : encode i = .word w) :
    decodeWord w = .ok i := decode_eq_ok_iff (c := .word w).mpr ⟨hi, he⟩

/-- Settles O4: each accepted word is the encoding of its instruction; the refused ones are evaluated. -/
theorem workedWords : Obligations.WorkedWords := by
  refine ⟨?_, ?_, ?_, ?_, ?_, ?_, ?_, decodeStage_eq_ok_iff.mpr rfl, by decide, by decide, by decide⟩
  all_goals exact decodeWord_of_encode (by decide) (by decide)

/-- An `LDPARAM` line is one word of format P. -/
theorem assemble_ldparam (p : Param) (x : RealLit) :
    (AsmLine.ldparam p x).assemble = some [encodeP (BitVec.ofNat 8 p.index) x.value] := rfl

/-- An `LDTIMES` line is five words of format P, with the indices 7 to 11 in their order (`30_encoding.md` R72). -/
theorem assemble_ldtimes (attack accAttack accDecay veg slide : RealLit) :
    (AsmLine.ldtimes attack accAttack accDecay veg slide).assemble =
      some [encodeP 7#8 attack.value, encodeP 8#8 accAttack.value, encodeP 9#8 accDecay.value, encodeP 10#8 veg.value,
        encodeP 11#8 slide.value] := rfl

/-- Settles O5: the words of the lines with a `<real>` hold the nearest binary32 patterns, which are evaluated. -/
theorem workedAssembly : Obligations.WorkedAssembly := by
  refine ⟨by decide, ?_, by decide, ?_⟩
  · rw [assemble_ldparam]; decide +kernel
  · rw [assemble_ldtimes]; decide +kernel

end Sys2Proof.Proofs.Encoding
end

section
/-! PROOFS. Stage `OSC` (`40_oscillator.md`): the residual piece by piece, the sample at phase 0, and the phase, which stays in
[0,1) whatever the pitch, because the increment is clamped to half a cycle. -/

namespace Sys2Proof.Proofs.Oscillator

open Sys2Proof Sys2Proof.Machine Sys2Proof.Safety Sys2Proof.Laws Sys2Proof.Proofs.Access Sys2Proof.Proofs.Bounds
  Sys2Proof.Proofs.Invariants Sys2Proof.Proofs.Pitch

/-! ### The whole stage -/

/-- One oscillator sample as an update of the state, the wave and the increment by their names. -/
theorem oscillator_eq (c : Config.Voicing) (s : State) :
    oscillator c s =
      { s with
        wires := { s.wires with
          osc := blendWave s.params.waveformBlend (sawWave s.voice.phase (phaseInc c s.voice.pitchCurrent))
            (squareWave s.voice.phase (phaseInc c s.voice.pitchCurrent)) }
        voice := { s.voice with phase := ffrac (fadd s.voice.phase (phaseInc c s.voice.pitchCurrent)) } } := rfl

/-- Settles O27: the meaning of `OSC`, with the waves, the blend and the increment written out. -/
theorem oscStep : Obligations.OscStep := fun s => congrArg Host.Outcome.next (oscillator_eq voicing s)

/-! ### Exact results -/

/-- A pattern is fixed by its value and its sign. -/
theorem eq_of_units_of_fsign {x y : F64} (hu : units x = units y) (hs : fsign x = fsign y) : x = y := by
  have hm : fmag x = fmag y := le_antisymm (fmag_le_iff.mpr (by rw [hu])) (fmag_le_iff.mpr (by rw [hu]))
  rw [← fpack_fsign_fmag x, ← fpack_fsign_fmag y, hs, hm]

theorem fsign_of_units_pos {x : F64} (h : 0 < units x) : fsign x = false :=
  Bool.eq_false_iff.mpr fun hs => (units_nonpos hs).not_gt h

/-- Above 0 the value alone fixes the pattern. -/
theorem eq_of_units_pos {x y : F64} (hu : units x = units y) (h : 0 < units y) : x = y :=
  eq_of_units_of_fsign hu ((fsign_of_units_pos (hu ▸ h)).trans (fsign_of_units_pos h).symm)

/-- A value of the format is rounded to itself. -/
theorem roundInt_units (b : Bool) {y : F64} (hy : isFinite y = true) :
    isFinite (roundInt b (units y)) = true ∧ units (roundInt b (units y)) = units y := by
  have hu := le_antisymm (units_roundInt_le (b := b) hy le_rfl) (le_units_roundInt (b := b) hy le_rfl)
  exact ⟨isFinite_of_fmag_le hy (fmag_le_iff.mpr (by rw [hu])), hu⟩

theorem fsign_roundInt (b : Bool) (z : Int) : fsign (roundInt b z) = if z = 0 then b else decide (z < 0) := by
  unfold roundInt
  split
  · exact fsign_fpack (Nat.two_pow_pos 63)
  · exact fsign_roundUnits _ _ _

/-- A sum that the format holds is exact. -/
theorem fadd_exact {x y z : F64} (hx : isFinite x = true) (hy : isFinite y = true) (hz : isFinite z = true)
    (h : units x + units y = units z) : isFinite (fadd x y) = true ∧ units (fadd x y) = units z := by
  rw [fadd_of_finite hx hy, h]
  exact roundInt_units _ hz

theorem fsub_exact {x y z : F64} (hx : isFinite x = true) (hy : isFinite y = true) (hz : isFinite z = true)
    (h : units x - units y = units z) : isFinite (fsub x y) = true ∧ units (fsub x y) = units z :=
  fadd_exact hx (isFinite_fneg hy) hz (by rw [units_fneg, ← h, sub_eq_add_neg])

theorem roundUnits_zero (neg : Bool) (d : Nat) : roundUnits neg 0 d = fzero neg := by
  unfold roundUnits
  simp [roundMag, nearestEven, excess, fzero]

/-- A finite value times +0 is a zero of its own sign. -/
theorem fmul_f0 {x : F64} (hx : isFinite x = true) : fmul x f0 = fzero (fsign x) := by
  have hs : fsign f0 = false := by decide
  rw [fmul_of_finite hx isFinite_f0, units_f0, hs, Int.natAbs_zero, Nat.mul_zero, roundUnits_zero, Bool.bne_false]

theorem f0_fdiv {y : F64} (hy : isFinite y = true) (h : 0 < units y) : fdiv f0 y = f0 := by
  have hs : fsign f0 = false := by decide
  rw [fdiv_of_finite isFinite_f0 hy (fmag_eq_zero_iff.not.mpr h.ne'), units_f0, Int.natAbs_zero, Nat.mul_zero,
    roundUnits_zero, hs, fsign_of_units_pos h]
  decide

/-! ### The fraction -/

/-- The floor of a finite value is exact where the format holds it. -/
theorem ffloor_exact {x y : F64} (hx : isFinite x = true) (hy : isFinite y = true)
    (h : (scale64 : Int) * floorInt x = units y) : isFinite (ffloor x) = true ∧ units (ffloor x) = units y := by
  unfold ffloor
  rw [isNaN_of_isFinite hx, isInf_of_isFinite hx, if_neg Bool.false_ne_true, if_neg Bool.false_ne_true, h]
  exact roundInt_units _ hy

/-- A finite value in [0,1), in units: what a phase may be. −0 is among them. -/
def InCycle (x : F64) : Prop := isFinite x = true ∧ 0 ≤ units x ∧ units x < scale64

/-- Below 1 there is nothing to wrap: the fraction has the value itself. -/
theorem units_ffrac_of_inCycle {x : F64} (h : InCycle x) : isFinite (ffrac x) = true ∧ units (ffrac x) = units x := by
  obtain ⟨hx, h0, h1⟩ := h
  have hfloor : floorInt x = 0 := Int.ediv_eq_zero_of_lt h0 h1
  obtain ⟨hf, hu⟩ := ffloor_exact hx isFinite_f0 (by rw [hfloor, mul_zero, units_f0])
  exact fsub_exact hx hf hx (by rw [hu, units_f0, sub_zero])

/-- The value 1/2. -/
theorem units_half : isFinite (fratio false 1 2) = true ∧ 2 * units (fratio false 1 2) = scale64 := by decide +kernel

/-- The value 3/2. -/
theorem units_threeHalves : isFinite (fratio false 3 2) = true ∧ 2 * units (fratio false 3 2) = 3 * scale64 := by
  decide +kernel

/-- From 1 to 3/2 the fraction is at most 1/2. -/
theorem inCycle_ffrac_of_wrap {x : F64} (hx : isFinite x = true) (h1 : (scale64 : Int) ≤ units x)
    (h2 : 2 * units x ≤ 3 * scale64) : InCycle (ffrac x) := by
  have hS := scale64_int_pos
  obtain ⟨hhf, hh⟩ := units_half
  have hfloor : floorInt x = 1 := by
    unfold floorInt
    rw [Int.ediv_eq_iff_of_pos hS]
    omega
  obtain ⟨hf, hu⟩ := ffloor_exact hx isFinite_f1 (by rw [hfloor, mul_one, units_f1])
  rw [units_f1] at hu
  obtain ⟨hr, hr0, hr1⟩ := fsub_between hx hf isFinite_f0 hhf (by rw [units_f0]; omega) (by omega)
  rw [units_f0] at hr0
  have hlt : units (ffrac x) < scale64 := by unfold ffrac; omega
  exact ⟨hr, hr0, hlt⟩

/-! ### The increment -/

/-- A finite value above 0 and at most 1/2, in units: what an increment may be. -/
def InHalfCycle (x : F64) : Prop := isFinite x = true ∧ 0 < units x ∧ units x ≤ units (fratio false 1 2)

/-- The increment is above 0 and at most half a cycle, whatever the pitch (`40_oscillator.md` R81). -/
theorem phaseInc_inHalfCycle (c : Config.Voicing) (pitch : F64) : InHalfCycle (phaseInc c pitch) := by
  obtain ⟨hmin, hpos, hle⟩ : isFinite phaseIncMin = true ∧ 0 < units phaseIncMin ∧ fle phaseIncMin phaseIncMax = true := by
    decide +kernel
  have hmax : isFinite phaseIncMax = true := units_half.1
  obtain ⟨hf, hlo, hhi⟩ := fclamp_spec (v := fdiv pitch (rateF c)) hmin hmax hle
  exact ⟨hf, hpos.trans_le ((fle_iff hmin hf).mp hlo), (fle_iff hf hmax).mp hhi⟩

theorem InHalfCycle.inCycle {x : F64} (h : InHalfCycle x) : InCycle x := by
  obtain ⟨hf, h0, h1⟩ := h
  obtain ⟨-, hh⟩ := units_half
  exact ⟨hf, h0.le, by omega⟩

/-! ### The phase -/

/-- The phase advanced by at most half a cycle and wrapped is a phase again (`40_oscillator.md` R85): below 3/2 before the
wrap, so below 1 after it, whatever the roundings. -/
theorem inCycle_advance {p inc : F64} (hp : InCycle p) (hi : InHalfCycle inc) : InCycle (ffrac (fadd p inc)) := by
  obtain ⟨hpf, hp0, hp1⟩ := hp
  obtain ⟨hif, hi0, hi1⟩ := hi
  obtain ⟨-, hh⟩ := units_half
  obtain ⟨htf, ht⟩ := units_threeHalves
  obtain ⟨hsf, hs0, hs1⟩ := fadd_between hpf hif isFinite_f0 htf (by rw [units_f0]; omega) (by omega)
  rw [units_f0] at hs0
  rcases lt_or_ge (units (fadd p inc)) scale64 with hlt | hge
  · obtain ⟨hf, hu⟩ := units_ffrac_of_inCycle ⟨hsf, hs0, hlt⟩
    exact ⟨hf, by rwa [hu], by rwa [hu]⟩
  · exact inCycle_ffrac_of_wrap hsf hge (by omega)

theorem phaseInUnit_iff (v : Voice) : phaseInUnit v = true ↔ InCycle v.phase := by
  unfold phaseInUnit
  rw [Bool.and_eq_true, Bool.and_eq_true, and_assoc]
  refine and_congr_right fun hx => and_congr ?_ ?_
  · rw [fle_iff isFinite_f0 hx, units_f0]
  · rw [flt_iff hx isFinite_f1, units_f1]

/-- The phase is written by `RESET`, which makes it 0, and by `OSC`, which advances it. -/
theorem exec_phaseInCycle {i : Instr} {s t : State} (h : exec i s = .next t) (hs : InCycle s.voice.phase) :
    InCycle t.voice.phase := by
  have kept (hw : mayWrite i .phase = false) : InCycle t.voice.phase := by
    rwa [show t.voice.phase = s.voice.phase from exec_readD h hw]
  cases i with
  | reset => rw [exec_reset_eq h]; exact ⟨isFinite_f0, units_f0.ge, units_f0.trans_lt scale64_int_pos⟩
  | osc =>
    rw [exec_osc_eq h, oscillator_eq]
    exact inCycle_advance hs (phaseInc_inHalfCycle voicing _)
  | noteon | noteoff | render | ldparam | rdstat | pslew | env | coef | filt | san | vca => exact kept rfl

/-- Settles O50: every instruction keeps the phase in [0,1), so every step does. -/
theorem phaseStaysInUnit : Obligations.PhaseStaysInUnit := by
  intro s t hs h
  rw [phaseInUnit_iff] at hs ⊢
  exact step_keeps (P := fun v _ => InCycle v.phase) (fun _ _ _ he => exec_phaseInCycle he) h hs

/-! ### The residual, one equation for each piece -/

theorem blep_of_lt {t dt : F64} (h : flt t dt = true) :
    blep t dt = fsub (fsub (fmul (fnat 2) (fdiv t dt)) (fmul (fdiv t dt) (fdiv t dt))) f1 := by
  unfold blep; rw [if_pos h]

theorem blep_of_gt {t dt : F64} (h : flt t dt = false) (h' : flt (fsub f1 dt) t = true) :
    blep t dt = fadd (fadd (fmul (fdiv (fsub t f1) dt) (fdiv (fsub t f1) dt)) (fmul (fnat 2) (fdiv (fsub t f1) dt))) f1 := by
  unfold blep; rw [if_neg (Bool.eq_false_iff.mp h), if_pos h']

theorem blep_of_between {t dt : F64} (h : flt t dt = false) (h' : flt (fsub f1 dt) t = false) : blep t dt = f0 := by
  unfold blep; rw [if_neg (Bool.eq_false_iff.mp h), if_neg (Bool.eq_false_iff.mp h')]

/-- Settles O26: the three pieces are the three branches of the residual. -/
theorem blepPieces : Obligations.BlepPieces := fun _ _ => ⟨blep_of_lt, blep_of_gt, blep_of_between⟩

/-! ### The sample at phase 0 -/

/-- At the wrap the residual is −1, for every increment. -/
theorem blep_f0 {inc : F64} (h : InHalfCycle inc) : blep f0 inc = fneg f1 := by
  obtain ⟨hf, h0, -⟩ := h
  have hlt : flt f0 inc = true := (flt_iff isFinite_f0 hf).mpr (by rwa [units_f0])
  rw [blep_of_lt hlt, f0_fdiv hf h0]
  decide +kernel

/-- Half a cycle from the wrap there is no residual, for every increment. -/
theorem blep_half {inc : F64} (h : InHalfCycle inc) : blep (fratio false 1 2) inc = f0 := by
  obtain ⟨hf, h0, h1⟩ := h
  obtain ⟨hhf, hh⟩ := units_half
  obtain ⟨hdf, hd0, -⟩ := fsub_between isFinite_f1 hf hhf isFinite_f1 (by rw [units_f1]; omega) (by omega)
  refine blep_of_between ?_ ?_
  · exact Bool.eq_false_iff.mpr fun hlt => ((flt_iff hhf hf).mp hlt).not_ge h1
  · exact Bool.eq_false_iff.mpr fun hlt => ((flt_iff hdf hhf).mp hlt).not_ge hd0

/-- `2·0 − 1 − (−1) = +0` (`40_oscillator.md` R83). -/
theorem sawWave_f0 {inc : F64} (h : InHalfCycle inc) : sawWave f0 inc = f0 := by
  rw [sawWave, blep_f0 h]
  decide +kernel

/-- `1 + (−1) − 0 = +0` (`40_oscillator.md` R84). -/
theorem squareWave_f0 {inc : F64} (h : InHalfCycle inc) : squareWave f0 inc = f0 := by
  have hhalf : ffrac (fadd f0 (fratio false 1 2)) = fratio false 1 2 := by decide +kernel
  rw [squareWave, hhalf, blep_f0 h, blep_half h]
  decide +kernel

/-- The blend of two zeros is +0, for every blend in [0,1]: `1 − wb` is never −0, so the saw's part is +0, and +0 plus
either zero is +0. -/
theorem blendWave_f0 {wb : F64} (h : within f0 f1 wb = true) : blendWave wb f0 f0 = f0 := by
  rw [within_iff isFinite_f0 isFinite_f1, units_f0, units_f1] at h
  obtain ⟨hsf, -, -⟩ := one_sub_inUnit h
  obtain ⟨hwf, -, hw1⟩ := h
  obtain ⟨hhf, hh⟩ := units_half
  obtain ⟨hpf, -, -⟩ := fmul_inUnit hwf (y := fratio false 1 2) ⟨hhf, by omega, by omega⟩
  have hsign : fsign (fsub f1 wb) = false := by
    have hone : fsign f1 = false := by decide
    rw [fsub, fadd_of_finite isFinite_f1 (isFinite_fneg hwf), fsign_roundInt, units_f1, units_fneg, hone, Bool.false_and]
    split
    · rfl
    · exact decide_eq_false (by omega)
  rw [blendWave, fmul_f0 hsf, fmul_f0 hpf, hsign]
  cases fsign (fmul wb (fratio false 1 2)) <;> decide +kernel

/-- From phase +0 the phase becomes the increment itself: neither the sum nor the fraction changes it. -/
theorem advance_f0 {inc : F64} (h : InHalfCycle inc) : ffrac (fadd f0 inc) = inc := by
  have ⟨hf, h0, _⟩ := h
  obtain ⟨-, hsum⟩ := fadd_exact isFinite_f0 hf hf (by rw [units_f0, zero_add])
  obtain ⟨-, hfrac⟩ := units_ffrac_of_inCycle h.inCycle
  rw [eq_of_units_pos hsum h0]
  exact eq_of_units_pos hfrac h0

/-- Settles O28: saw and square are both +0 at phase +0, so every blend of them is, and the phase advances to the
increment. -/
theorem oscZeroAtPhaseZero : Obligations.OscZeroAtPhaseZero := by
  intro s t hp hw h
  have hinc := phaseInc_inHalfCycle voicing s.voice.pitchCurrent
  rw [exec_osc_eq h, oscillator_eq, hp, sawWave_f0 hinc, squareWave_f0 hinc, advance_f0 hinc]
  exact ⟨blendWave_f0 hw, rfl⟩

end Sys2Proof.Proofs.Oscillator
end

section
/-! PROOFS. Stage `COEF` (`41_coefficients.md`): the three wires it writes, and the coefficients at resonance 0, where the
skew is +0 whatever `e^-3` is within its bounds. -/

namespace Sys2Proof.Proofs.Coefficients

open Sys2Proof Sys2Proof.Machine Sys2Proof.Laws Sys2Proof.Proofs.Access Sys2Proof.Proofs.Bounds Sys2Proof.Proofs.Pitch
  Sys2Proof.Proofs.Oscillator

/-! ### The whole stage -/

/-- The coefficient calculation as an update of the state, each formula by its name. -/
theorem coefficients_eq (c : Config.Voicing) (s : State) :
    coefficients c s =
      { s with
        wires := { s.wires with
          b0 := b0Of (fxOf c s.wires.instCutoff)
          k := fmul (k0Of (fxOf c s.wires.instCutoff)) (rSkewOf c s.params.resonance)
          g := gOf (k0Of (fxOf c s.wires.instCutoff)) (rSkewOf c s.params.resonance) } } := rfl

/-- Settles O32: the meaning of `COEF`, with the polynomial, the skew and the gain written out. -/
theorem coefStep : Obligations.CoefStep := fun s => congrArg Host.Outcome.next (coefficients_eq voicing s)

/-! ### The skew at resonance 0 -/

/-- `e^x` of a finite negative operand, −0 among them, is kept between two powers of two. -/
theorem exp_of_fsign {x : F64} (hf : isFinite x = true) (hs : fsign x = true) :
    voicing.exp x = fclamp (fabs (Config.expRaw x)) (pow2Int (floorTwice x)) (pow2Int (ceilInt x)) := by
  change expWithin Config.expRaw x = _
  unfold expWithin
  rw [isNaN_of_isFinite hf, isInf_of_isFinite hf, hs, if_neg Bool.false_ne_true, if_neg Bool.false_ne_true, if_pos rfl]

/-- Between 1 and 1 a clamp leaves no choice. -/
theorem fclamp_f1_f1 (x : F64) : fclamp x f1 f1 = f1 := by
  obtain ⟨hf, hlo, hhi⟩ := fclamp_spec (v := x) isFinite_f1 isFinite_f1 ((fle_iff isFinite_f1 isFinite_f1).mpr le_rfl)
  refine eq_of_units_pos (le_antisymm ((fle_iff hf isFinite_f1).mp hhi) ((fle_iff isFinite_f1 hf).mp hlo)) ?_
  rw [units_f1]
  exact scale64_int_pos

/-- `e^-0` is exactly 1: both bounds are `2^0`. -/
theorem exp_negZero : voicing.exp (fzero true) = f1 := by
  obtain ⟨hf, hs, hlo, hhi⟩ : isFinite (fzero true) = true ∧ fsign (fzero true) = true ∧
      pow2Int (floorTwice (fzero true)) = f1 ∧ pow2Int (ceilInt (fzero true)) = f1 := by decide +kernel
  rw [exp_of_fsign hf hs, hlo, hhi, fclamp_f1_f1]

/-- `1 − e^-3`, by which the skew is divided, is above 0: `e^-3` is at most `2^-3`. -/
theorem one_sub_exp_neg_three_pos :
    isFinite (fsub f1 (voicing.exp (fneg (fnat 3)))) = true ∧ 0 < units (fsub f1 (voicing.exp (fneg (fnat 3)))) := by
  obtain ⟨hf, hs, hlo, hhi⟩ : isFinite (fneg (fnat 3)) = true ∧ fsign (fneg (fnat 3)) = true ∧
      floorTwice (fneg (fnat 3)) = -6 ∧ ceilInt (fneg (fnat 3)) = -3 := by decide +kernel
  have heighth : units (pow2Int (-3)) * 8 = scale64 := by decide +kernel
  obtain ⟨hef, he0, he1⟩ := fclamp_pow2Int (fabs (Config.expRaw (fneg (fnat 3)))) (a := -6) (b := -3) (by decide) (by decide)
  rw [exp_of_fsign hf hs, hlo, hhi]
  obtain ⟨hhf, hh⟩ := units_half
  have hS := scale64_int_pos
  obtain ⟨hdf, hd, -⟩ := fsub_between isFinite_f1 hef hhf isFinite_f1 (by rw [units_f1]; omega) (by omega)
  exact ⟨hdf, by omega⟩

/-- Without resonance the skew is `(1 − e^-0) / (1 − e^-3) = +0` (`41_coefficients.md` R94). -/
theorem rSkewOf_f0 : rSkewOf voicing f0 = f0 := by
  have harg : fmul (fneg (fnat 3)) f0 = fzero true := by decide +kernel
  have hnum : fsub f1 f1 = f0 := by decide +kernel
  obtain ⟨hf, hpos⟩ := one_sub_exp_neg_three_pos
  rw [rSkewOf, harg, exp_negZero, hnum, f0_fdiv hf hpos]

/-! ### The gain at skew 0 -/

/-- A seventeenth of a finite value is at most 2^1020, so taking 1 from it does not overflow. -/
theorem isFinite_gainOffset {x : F64} (hx : isFinite x = true) : isFinite (fsub (fdiv x (fnat 17)) f1) = true := by
  obtain ⟨h17f, h17⟩ := fnat_exact (k := 17) (by decide)
  have hS := scale64_int_pos
  have h1020 := isFinite_pow2Int (z := 1020) (by decide)
  have h1021 := isFinite_pow2Int (z := 1021) (by decide)
  have hmax : (units x).natAbs ≤ magUnits fracBits64 (infMag64 - 1) := by
    rw [natAbs_units]
    exact magUnits_le_iff.mpr (Nat.le_sub_one_of_lt (isFinite_iff.mp hx))
  have htop : magUnits fracBits64 (infMag64 - 1) ≤ (units (pow2Int 1020)).natAbs * 17 := by decide +kernel
  obtain ⟨hqf, hq⟩ := natAbs_units_fdiv_le hx h17f h1020 (by rw [h17]; omega) (calc
    scale64 * (units x).natAbs ≤ scale64 * ((units (pow2Int 1020)).natAbs * 17) := Nat.mul_le_mul_left _ (hmax.trans htop)
    _ = (units (pow2Int 1020)).natAbs * (units (fnat 17)).natAbs := by
      rw [h17, ← Nat.cast_mul, Int.natAbs_natCast]; ring)
  have hroom : ((units (pow2Int 1020)).natAbs : Int) + scale64 ≤ units (pow2Int 1021) := by decide +kernel
  exact (fsub_between hqf isFinite_f1 (isFinite_fneg h1021) h1021 (by rw [units_fneg, units_f1]; omega)
    (by rw [units_f1]; omega)).1

/-- With skew +0 the gain is `(±0 + 1) · (1 + 0) = 1` (`41_coefficients.md` R95). -/
theorem gOf_f0 {k0 : F64} (h : isFinite k0 = true) : gOf k0 f0 = f1 := by
  rw [gOf, fmul_f0 (isFinite_gainOffset h)]
  cases fsign (fsub (fdiv k0 (fnat 17)) f1) <;> decide +kernel

theorem fmag_fmul_f0 {x : F64} (h : isFinite x = true) : fmag (fmul x f0) = 0 := by
  rw [fmul_f0 h]
  exact fmag_fpack (Nat.two_pow_pos 63)

/-- Settles O33: the skew is +0, so the feedback is a zero and the gain is 1. -/
theorem noResonanceNoFeedback : Obligations.NoResonanceNoFeedback := by
  intro s t hr hk h
  rw [exec_coef_eq h, coefficients_eq, hr, rSkewOf_f0]
  exact ⟨fmag_fmul_f0 hk, gOf_f0 hk⟩

end Sys2Proof.Proofs.Coefficients
end

section
/-! PROOFS. Stage `FILT` (`42_ladder_filter.md`): one filter step, where each stage reads the new value before it and the old
value after it. -/

namespace Sys2Proof.Proofs.Ladder

open Sys2Proof Sys2Proof.Machine Sys2Proof.Laws

/-! ### The whole stage -/

/-- The filter step as one update of the state, each formula by its name. -/
theorem ladderFilter_eq (c : Config.Voicing) (s : State) :
    ladderFilter c s =
      let v := s.voice
      let b0 := s.wires.b0
      let fb := fmul s.wires.k v.y4
      let lp := fbLowpass (fbhpCoeff c) fb v.hpz
      let y0 := fsub s.wires.osc (fsub fb lp)
      let y1 := ladder1 b0 y0 v.y1 v.y2
      let y2 := ladderMid b0 y1 v.y2 v.y3
      let y3 := ladderMid b0 y2 v.y3 v.y4
      { s with voice := { v with hpz := lp, y0 := y0, y1 := y1, y2 := y2, y3 := y3, y4 := ladder4 b0 y3 v.y4 } } := by
  rw [ladderFilter, filterInput_eq, filterY1_eq, filterY2_eq, filterY3_eq, filterY4_eq]

/-- Settles O34: the meaning of `FILT`, with the coefficient and the difference equations written out. -/
theorem filtStep : Obligations.FiltStep := fun s => congrArg Host.Outcome.next (ladderFilter_eq voicing s)

end Sys2Proof.Proofs.Ladder
end

section
/-! PROOFS. Stage `ENV` (`43_envelopes.md`): the coefficients of the time constants, the whole stage as one update with its
repairs counted, and the two decays, which lead from a value in [0,1] to one not above it and from +0 to +0. -/

namespace Sys2Proof.Proofs.Envelopes

open Sys2Proof Sys2Proof.Machine Sys2Proof.Safety Sys2Proof.Laws Sys2Proof.Proofs.Access Sys2Proof.Proofs.Bounds
  Sys2Proof.Proofs.Invariants Sys2Proof.Proofs.Pitch Sys2Proof.Proofs.Oscillator Sys2Proof.Proofs.Coefficients

/-! ### The coefficient of a time constant -/

theorem coefOf_of_pos (c : Config.Voicing) {tau : F64} (h : flt f0 tau = true) :
    coefOf c tau = c.exp (fdiv (fneg f1) (fmul (fdiv tau (fnat 1000)) (rateF c))) := by
  unfold coefOf; rw [if_pos h]

theorem coefOf_of_not_pos (c : Config.Voicing) {tau : F64} (h : flt f0 tau = false) : coefOf c tau = f0 := by
  unfold coefOf; rw [if_neg (Bool.eq_false_iff.mp h)]

/-- Settles O24: the two branches of the coefficient. -/
theorem timeConstantFormula : Obligations.TimeConstantFormula := fun _ =>
  ⟨coefOf_of_pos voicing, coefOf_of_not_pos voicing⟩

theorem within_unit_iff {x : F64} : within f0 f1 x = true ↔ InUnit x := by
  rw [within_iff isFinite_f0 isFinite_f1, units_f0, units_f1]
  rfl

/-- Settles O25: the operand is negative wherever the constant is above 0, and `e^x` of a negative operand lies in [0,1]. -/
theorem timeConstantInUnit : Obligations.TimeConstantInUnit := fun tau => within_unit_iff.mpr (coefOf_inUnit tau)

/-! ### The repairs of several writes -/

/-- How many of the values written through `envreg` are repaired (`43_envelopes.md` R119). -/
def repairs (xs : List F64) : Nat := (xs.filter fun x => !isFinite x).length

theorem repairs_cons (x : F64) (xs : List F64) :
    repairs (x :: xs) = (if isFinite x then 0 else 1) + repairs xs := by
  unfold repairs
  rw [List.filter_cons]
  cases isFinite x with
  | true => exact (Nat.zero_add _).symm
  | false => exact Nat.add_comm _ 1

/-- `DIAG` after several writes: bit 0 is set once for all repairs. -/
theorem foldl_diagUnless (xs : List F64) (d : BitVec 4) :
    xs.foldl (fun d x => diagUnless (isFinite x) d) d = if repairs xs = 0 then d else d ||| 0b0001#4 := by
  induction xs generalizing d with
  | nil => rfl
  | cons x xs ih =>
    rw [List.foldl_cons, ih, repairs_cons]
    cases isFinite x with
    | true => simp [diagUnless]
    | false => simp [diagUnless, BitVec.or_assoc]

theorem toNat_sat8Succ (k : BitVec 8) : (sat8Succ k).toNat = min (k.toNat + 1) 255 := by
  unfold sat8Succ
  rw [BitVec.toNat_ofNat]
  omega

/-- `NFCNT` after several writes: saturating one by one comes to saturating once. -/
theorem toNat_foldl_countUnless (xs : List F64) (k : BitVec 8) :
    (xs.foldl (fun k x => countUnless (isFinite x) k) k).toNat = min (k.toNat + repairs xs) 255 := by
  have hk := k.isLt
  induction xs generalizing k with
  | nil => rw [List.foldl_nil, repairs, List.filter_nil, List.length_nil]; omega
  | cons x xs ih =>
    rw [List.foldl_cons, ih _ (BitVec.isLt _), repairs_cons]
    cases isFinite x with
    | true => simp [countUnless]
    | false =>
      simp only [countUnless, Bool.false_eq_true, if_false, toNat_sat8Succ]
      omega

theorem foldl_countUnless (xs : List F64) (k : BitVec 8) :
    xs.foldl (fun k x => countUnless (isFinite x) k) k =
      if repairs xs = 0 then k else BitVec.ofNat 8 (min (k.toNat + repairs xs) 255) := by
  have hk := k.isLt
  apply BitVec.eq_of_toNat_eq
  rw [toNat_foldl_countUnless]
  split
  · next h => rw [h]; omega
  · rw [BitVec.toNat_ofNat]; omega

/-! ### The whole stage -/

/-- One envelope step as one update of the state: the integrators and both decays from the old registers, the cutoff from the
integrators just written. -/
theorem envelopes_eq (c : Config.Voicing) (s : State) :
    envelopes c s =
      let v := s.voice
      let x1 := leaky v.rc1 v.mainEnv (rc1Coeff c s)
      let x2 := leaky v.rc2 (fmul s.params.accentLevel v.mainEnv) (rc2Coeff c s)
      let x3 := fmul v.mainEnv (decayCoeff c s)
      let x4 := fmul v.ampEnv (vegCoeff c s)
      let bad := repairs [x1, x2, x3, x4]
      { s with
        voice := { v with rc1 := envreg x1, rc2 := envreg x2, mainEnv := envreg x3, ampEnv := envreg x4 }
        wires := { s.wires with
          instCutoff := cutoffOf c { s with voice := { v with rc1 := envreg x1, rc2 := envreg x2 } }
          vcaEnv := v.ampEnv }
        diag := if bad = 0 then s.diag else s.diag ||| 0b0001#4
        nfcnt := if bad = 0 then s.nfcnt else BitVec.ofNat 8 (min (s.nfcnt.toNat + bad) 255) } := by
  dsimp only
  rw [← foldl_diagUnless, ← foldl_countUnless, envelopes, decayAmp_eq, decayMain_eq, stepRc2_eq, stepRc1_eq]
  rfl

/-- Settles O29: the meaning of `ENV`, with the coefficients, the modulation and the repair written out. -/
theorem envStep : Obligations.EnvStep := fun s => congrArg Host.Outcome.next (envelopes_eq voicing s)

/-! ### The decays stay in [0,1] -/

theorem fmul_comm_of_finite {x y : F64} (hx : isFinite x = true) (hy : isFinite y = true) : fmul x y = fmul y x := by
  rw [fmul_of_finite hx hy, fmul_of_finite hy hx, Nat.mul_comm, bne_comm (a := fsign x)]

/-- The parameters that scale the envelopes lie in [0,1] (`10_state.md` R22). -/
theorem unitParams_of_inRange {b : Bank F64} (h : paramsInRange b) :
    InUnit b.decay ∧ InUnit b.accentLevel ∧ InUnit b.envModDepth :=
  ⟨within_unit_iff.mp (h .decay), within_unit_iff.mp (h .accentLevel), within_unit_iff.mp (h .envModDepth)⟩

/-- `0.2 + decay · 1.8` is finite and above 0 (`43_envelopes.md` R111). -/
theorem decayTimeSec_pos {s : State} (h : InUnit s.params.decay) :
    isFinite (decayTimeSec s) = true ∧ 0 < units (decayTimeSec s) := by
  obtain ⟨hlf, hl0, hsf, hs0, htf, htop⟩ : isFinite (flit 2 1) = true ∧ 0 < units (flit 2 1) ∧
      isFinite (flit 18 1) = true ∧ 0 ≤ units (flit 18 1) ∧ isFinite (fnat 3) = true ∧
      units (flit 2 1) + units (flit 18 1) ≤ units (fnat 3) := by decide +kernel
  obtain ⟨hpf, hup, -⟩ := fmul_inUnit hsf h
  obtain ⟨hp0, hp1⟩ := hup hs0
  obtain ⟨hdf, -⟩ := h
  rw [fmul_comm_of_finite hsf hdf] at hpf hp0 hp1
  obtain ⟨hf, hlo, -⟩ := fadd_between hlf hpf hlf htf (by omega) (by omega)
  exact ⟨hf, hl0.trans_le hlo⟩

/-- The operand of `decayCoeff` is negative: the divisor is above 0, or rounded to infinity. -/
theorem decayCoeff_operand {s : State} (h : InUnit s.params.decay) :
    isNaN (fdiv (fneg f1) (fmul (decayTimeSec s) (rateF voicing))) = false ∧
      fsign (fdiv (fneg f1) (fmul (decayTimeSec s) (rateF voicing))) = true := by
  obtain ⟨hrf, hrs, hr0⟩ := rateF_spec
  obtain ⟨htf, ht0⟩ := decayTimeSec_pos h
  obtain ⟨h1n, h1s, h10, h1i⟩ : isNaN (fneg f1) = false ∧ fsign (fneg f1) = true ∧ fmag (fneg f1) ≠ 0 ∧
      isInf (fneg f1) = false := by decide +kernel
  obtain ⟨hpn, hps⟩ := fmul_sign (isNaN_of_isFinite htf) hrf hr0
  obtain ⟨hn, hs⟩ := fdiv_sign h1n hpn (.inl h10) (.inl h1i)
  refine ⟨hn, ?_⟩
  rw [hs, h1s, hps, fsign_of_units_pos ht0, hrs]
  rfl

theorem decayCoeff_inUnit {s : State} (h : InUnit s.params.decay) : InUnit (decayCoeff voicing s) := by
  obtain ⟨hn, hs⟩ := decayCoeff_operand h
  exact exp_inUnit hn hs

/-- A value in [0,1] passes `envreg` unchanged. -/
theorem envreg_of_inUnit {x : F64} (h : InUnit x) : envreg x = x := by
  obtain ⟨hf, h0, h1⟩ := h
  unfold envreg
  rw [if_pos hf]
  exact fclamp_eq_self ((fle_iff isFinite_f0 hf).mpr (by rwa [units_f0])) ((fle_iff hf isFinite_f1).mpr (by rwa [units_f1]))

/-- A decay by a coefficient in [0,1] does not lead above the old value. -/
theorem fle_envreg_fmul {x coeff : F64} (hx : InUnit x) (hc : InUnit coeff) : fle (envreg (fmul x coeff)) x = true := by
  obtain ⟨hxf, hx0, hx1⟩ := hx
  obtain ⟨hf, hup, -⟩ := fmul_inUnit hxf hc
  obtain ⟨h0, h1⟩ := hup hx0
  rw [envreg_of_inUnit ⟨hf, h0, h1.trans hx1⟩]
  exact (fle_iff hf hxf).mpr h1

/-- Settles O31: each decay is a product with a coefficient in [0,1]. -/
theorem envelopesNeverRise : Obligations.EnvelopesNeverRise := by
  intro s t hp he h
  rw [envelopesInUnit_iff] at he
  obtain ⟨hdecay, -⟩ := unitParams_of_inRange hp
  have hmain : InUnit s.voice.mainEnv := within_unit_iff.mp (he .mainEnv (by decide))
  have hamp : InUnit s.voice.ampEnv := within_unit_iff.mp (he .ampEnv (by decide))
  rw [exec_env_eq h, envelopes_eq]
  exact ⟨fle_envreg_fmul hmain (decayCoeff_inUnit hdecay), fle_envreg_fmul hamp (coefOf_inUnit _)⟩

/-! ### Signs of the coefficients -/

theorem fsign_fclamp {v lo hi : F64} (hv : fsign v = false) (hlo : fsign lo = false) (hhi : fsign hi = false) :
    fsign (fclamp v lo hi) = false := by
  unfold fclamp
  split
  · exact hlo
  · split
    · exact hhi
    · exact hv

theorem isFinite_of_not_isNaN_of_not_isInf {x : F64} (hn : isNaN x = false) (hi : isInf x = false) : isFinite x = true := by
  simp only [isNaN, isInf, isFinite, decide_eq_false_iff_not, decide_eq_true_eq] at *
  omega

/-- `e^x` of a negative operand is never −0. -/
theorem fsign_exp {x : F64} (hn : isNaN x = false) (hs : fsign x = true) : fsign (voicing.exp x) = false := by
  cases hi : isInf x with
  | true =>
    change fsign (expWithin Config.expRaw x) = false
    unfold expWithin
    rw [hn, hi, hs, if_neg Bool.false_ne_true, if_pos rfl, if_pos rfl]
    decide
  | false =>
    have hc : ceilInt x ≤ 0 := ceilInt_le (by rw [mul_zero]; exact units_nonpos hs)
    have hfl := floorTwice_le_ceilInt (units_nonpos hs)
    rw [exp_of_fsign (isFinite_of_not_isNaN_of_not_isInf hn hi) hs]
    exact fsign_fclamp (fabs_spec _).1 (fsign_pow2Int (by omega)) (fsign_pow2Int (by omega))

theorem fsign_coefOf (tau : F64) : fsign (coefOf voicing tau) = false := by
  cases h : flt f0 tau with
  | true =>
    obtain ⟨hn, hs⟩ := coefOf_operand h
    rw [coefOf_of_pos voicing h]
    exact fsign_exp hn hs
  | false => rw [coefOf_of_not_pos voicing h]; decide

theorem fsign_decayCoeff {s : State} (h : InUnit s.params.decay) : fsign (decayCoeff voicing s) = false := by
  obtain ⟨hn, hs⟩ := decayCoeff_operand h
  exact fsign_exp hn hs

/-! ### Zeros -/

theorem isFinite_fzero (neg : Bool) : isFinite (fzero neg) = true := by cases neg <;> decide +kernel

/-- A finite value times a zero is a zero. -/
theorem fmul_fzero {x : F64} (hx : isFinite x = true) (neg : Bool) : fmul x (fzero neg) = fzero (fsign x != neg) := by
  have hs : fsign (fzero neg) = neg := fsign_fpack (Nat.two_pow_pos 63)
  rw [fmul_of_finite hx (isFinite_fzero neg), units_fzero, hs, Int.natAbs_zero, Nat.mul_zero, roundUnits_zero]

theorem fzero_fmul {x : F64} (hx : isFinite x = true) (neg : Bool) : fmul (fzero neg) x = fzero (fsign x != neg) := by
  rw [fmul_comm_of_finite (isFinite_fzero neg) hx, fmul_fzero hx]

/-- A sum of zeros is −0 only from two of them. -/
theorem fadd_fzero (a b : Bool) : fadd (fzero a) (fzero b) = fzero (a && b) := by
  cases a <;> cases b <;> decide +kernel

theorem fneg_fzero (a : Bool) : fneg (fzero a) = fzero (!a) := by cases a <;> decide

theorem f0_eq_fzero : f0 = fzero false := by decide

theorem envreg_f0 : envreg f0 = f0 := envreg_of_inUnit (within_unit_iff.mp f0_inUnit)

/-- An integrator at +0 with a zero at its input stays at +0: the step is a zero, and +0 plus either zero is +0. -/
theorem envreg_leaky_fzero {coeff : F64} (neg : Bool) (h : InUnit coeff) : envreg (leaky f0 (fzero neg) coeff) = f0 := by
  obtain ⟨hf, -⟩ := one_sub_inUnit h
  rw [leaky, f0_eq_fzero, fsub, fneg_fzero, fadd_fzero, fzero_fmul hf, fadd_fzero, Bool.false_and, ← f0_eq_fzero,
    envreg_f0]

/-- A decay from +0, by a coefficient that is no −0, stays at +0. -/
theorem envreg_fmul_f0 {coeff : F64} (h : InUnit coeff) (hs : fsign coeff = false) : envreg (fmul f0 coeff) = f0 := by
  obtain ⟨hf, -⟩ := h
  rw [fmul_comm_of_finite isFinite_f0 hf, fmul_f0 hf, hs, ← f0_eq_fzero, envreg_f0]

/-! ### The cutoff without modulation -/

/-- `2^0` is exactly 1, of either zero: both bounds are `2^0`. -/
theorem pow2_fzero (neg : Bool) : voicing.pow2 (fzero neg) = f1 := by
  obtain ⟨hn, hi, hlo, hhi⟩ : isNaN (fzero neg) = false ∧ isInf (fzero neg) = false ∧
      pow2Int (floorInt (fzero neg)) = f1 ∧ pow2Int (ceilInt (fzero neg)) = f1 := by
    cases neg <;> decide +kernel
  change pow2Within Config.pow2Raw (fzero neg) = f1
  unfold pow2Within
  rw [hn, hi, if_neg Bool.false_ne_true, if_neg Bool.false_ne_true, hlo, hhi, fclamp_f1_f1]

/-- A product with 1 is exact. -/
theorem fmul_f1 {x : F64} (hx : isFinite x = true) : fmul x f1 = x := by
  have hs : fsign f1 = false := by decide
  have hmag : fmag (fmul x f1) = fmag x := by
    rw [fmul_of_finite hx isFinite_f1, fmag_roundUnits, units_f1, Int.natAbs_natCast, natAbs_units]
    exact roundMag_exact (isFinite_iff.mp hx).le scale64_pos
  have hsign : fsign (fmul x f1) = fsign x := by
    rw [fmul_of_finite hx isFinite_f1, fsign_roundUnits, hs, Bool.bne_false]
  rw [← fpack_fsign_fmag (fmul x f1), hmag, hsign, fpack_fsign_fmag]

theorem accOf_inUnit (s : State) : InUnit (accOf s) := by
  unfold accOf
  split
  · exact within_unit_iff.mp f1_inUnit
  · exact within_unit_iff.mp f0_inUnit

/-- With both integrators at +0 the modulation is a zero: its factors are finite (`43_envelopes.md` R117, R118). -/
theorem envMod_of_silent {s : State} (hp : paramsInRange s.params) (h1 : s.voice.rc1 = f0) (h2 : s.voice.rc2 = f0) :
    ∃ neg, envMod voicing s = fzero neg := by
  obtain ⟨-, haccent, hdf, -⟩ := unitParams_of_inRange hp
  have hn1 : isFinite (voicing.norm1 (normArgs voicing s)) = true := (finiteNonneg_spec _).1
  have hn2 : isFinite (voicing.norm2 (normArgs voicing s)) = true := (finiteNonneg_spec _).1
  have hboost : InUnit (fmul (accOf s) s.params.accentLevel) := by
    obtain ⟨haf, ha0, ha1⟩ := accOf_inUnit s
    obtain ⟨hf, hup, -⟩ := fmul_inUnit haf haccent
    obtain ⟨hb0, hb1⟩ := hup ha0
    exact ⟨hf, hb0, hb1.trans ha1⟩
  have hscaled : isFinite (fmul (fmul (accOf s) s.params.accentLevel) (voicing.norm2 (normArgs voicing s))) = true := by
    rw [fmul_comm_of_finite hboost.1 hn2]
    exact (fmul_inUnit hn2 hboost).1
  simp only [envMod, readD, Voice.get, readP, Bank.get, h1, h2]
  rw [fmul_f0 hn1, fmul_f0 hscaled, fadd_fzero, fmul_fzero hdf]
  exact ⟨_, rfl⟩

/-- With both integrators at +0 the cutoff is the base cutoff, which lies below the greatest one. -/
theorem cutoffOf_of_silent {s : State} (hp : paramsInRange s.params) (h1 : s.voice.rc1 = f0) (h2 : s.voice.rc2 = f0) :
    cutoffOf voicing s = s.params.cutoffHz := by
  obtain ⟨neg, hmod⟩ := envMod_of_silent hp h1 h2
  obtain ⟨hlof, hhif, -⟩ := paramBounds_spec .cutoffHz
  obtain ⟨hf, hlo, hhi⟩ : isFinite s.params.cutoffHz = true ∧ units (paramLo .cutoffHz) ≤ units s.params.cutoffHz ∧
    units s.params.cutoffHz ≤ units instCutoffMax := (within_iff hlof hhif).mp (hp .cutoffHz)
  have h0 : units f0 ≤ units (paramLo .cutoffHz) := by decide +kernel
  rw [cutoffOf, hmod, pow2_fzero, readP, Bank.get, fmul_f1 hf]
  exact fclamp_eq_self ((fle_iff isFinite_f0 hf).mpr (h0.trans hlo)) ((fle_iff hf hhif).mpr hhi)

/-- Settles O30: each integrator and each decay leads from +0 to +0, and the cutoff then has no modulation. -/
theorem envSilentCorner : Obligations.EnvSilentCorner := by
  intro s t hp hmain hamp hrc1 hrc2 h
  obtain ⟨hdecay, ⟨haf, -⟩, -⟩ := unitParams_of_inRange hp
  have h1 : envreg (leaky s.voice.rc1 s.voice.mainEnv (rc1Coeff voicing s)) = s.voice.rc1 := by
    rw [hrc1, hmain]
    exact envreg_leaky_fzero false (coefOf_inUnit _)
  have h2 : envreg (leaky s.voice.rc2 (fmul s.params.accentLevel s.voice.mainEnv) (rc2Coeff voicing s)) = s.voice.rc2 := by
    rw [hrc2, hmain, fmul_f0 haf]
    exact envreg_leaky_fzero _ (coefOf_inUnit _)
  have h3 : envreg (fmul s.voice.mainEnv (decayCoeff voicing s)) = s.voice.mainEnv := by
    rw [hmain]
    exact envreg_fmul_f0 (decayCoeff_inUnit hdecay) (fsign_decayCoeff hdecay)
  have h4 : envreg (fmul s.voice.ampEnv (vegCoeff voicing s)) = s.voice.ampEnv := by
    rw [hamp]
    exact envreg_fmul_f0 (coefOf_inUnit _) (fsign_coefOf _)
  rw [exec_env_eq h, envelopes_eq]
  dsimp only
  rw [h1, h2, h3, h4]
  exact ⟨rfl, cutoffOf_of_silent hp hrc1 hrc2, hamp⟩

end Sys2Proof.Proofs.Envelopes
end

section
/-! PROOFS. The frequency of a note and stage `PSLEW` (`44_pitch_slew.md` R131 to R133). `2^x` is free only between the powers of
two of the whole numbers around `x`: no exponent of a note is below −6, so every frequency is above 0, and where the
exponent is whole the two bounds meet and the frequency is exact. -/

namespace Sys2Proof.Proofs.Frequency

open Sys2Proof Sys2Proof.Machine Sys2Proof.Laws Sys2Proof.Proofs.Bounds Sys2Proof.Proofs.Pitch Sys2Proof.Proofs.Oscillator

/-! ### The formula -/

/-- The exponent of a note's frequency: its distance from note 69 in octaves. -/
def octavesAboveA4 (note : BitVec 7) : F64 := fdiv (fsub (fnat note.toNat) tuneNote) (fnat 12)

theorem freqOf_eq (c : Config.Voicing) (note : BitVec 7) :
    freqOf c note = fmul tuneA4 (c.pow2 (octavesAboveA4 note)) := rfl

/-- Settles O17: 440 and 69 are the constants `TUNE_A4` and `TUNE_NOTE`. -/
theorem frequencyFormula : Obligations.FrequencyFormula := freqOf_eq voicing

/-! ### `2^x` between its powers of two -/

theorem units_pow2Int_pos {z : Int} (h : -1074 ≤ z) (h' : z ≤ 1023) : 0 < units (pow2Int z) := by
  have hleast : units (pow2Int (-1074)) = 1 := by decide +kernel
  have hmono := units_pow2Int_mono h h'
  omega

/-- `2^x` of a finite operand is kept between two powers of two. -/
theorem pow2_of_finite {x : F64} (hx : isFinite x = true) :
    voicing.pow2 x = fclamp (fabs (Config.pow2Raw x)) (pow2Int (floorInt x)) (pow2Int (ceilInt x)) := by
  change pow2Within Config.pow2Raw x = _
  unfold pow2Within
  rw [isNaN_of_isFinite hx, isInf_of_isFinite hx, if_neg Bool.false_ne_true, if_neg Bool.false_ne_true]

theorem pow2_between {x : F64} (hx : isFinite x = true) (hc : ceilInt x ≤ 1023) :
    isFinite (voicing.pow2 x) = true ∧ units (pow2Int (floorInt x)) ≤ units (voicing.pow2 x) ∧
      units (voicing.pow2 x) ≤ units (pow2Int (ceilInt x)) := by
  have hle := floorInt_le_ceilInt x
  have hlo := isFinite_pow2Int (hle.trans hc)
  have hhi := isFinite_pow2Int hc
  obtain ⟨hf, h1, h2⟩ := fclamp_spec (v := fabs (Config.pow2Raw x)) hlo hhi
    ((fle_iff hlo hhi).mpr (units_pow2Int_mono hle hc))
  rw [pow2_of_finite hx]
  exact ⟨hf, (fle_iff hlo hf).mp h1, (fle_iff hf hhi).mp h2⟩

theorem floorInt_of_whole {x : F64} {k : Int} (h : units x = (scale64 : Int) * k) : floorInt x = k := by
  rw [floorInt, h, Int.mul_ediv_cancel_left k scale64_int_pos.ne']

theorem ceilInt_of_whole {x : F64} {k : Int} (h : units x = (scale64 : Int) * k) : ceilInt x = k := by
  rw [ceilInt, h, ← mul_neg, Int.mul_ediv_cancel_left (-k) scale64_int_pos.ne', neg_neg]

/-- At a whole exponent the two powers of two are one, and `2^x` is exact. -/
theorem pow2_of_whole {x : F64} {k : Int} (hx : isFinite x = true) (hk : units x = (scale64 : Int) * k)
    (hlo : -1074 ≤ k) (hhi : k ≤ 1023) : voicing.pow2 x = pow2Int k := by
  have hc := ceilInt_of_whole hk
  obtain ⟨-, h1, h2⟩ := pow2_between hx (by omega)
  rw [floorInt_of_whole hk] at h1
  rw [hc] at h2
  exact eq_of_units_pos (le_antisymm h2 h1) (units_pow2Int_pos hlo hhi)

/-! ### Every frequency is above 0 -/

theorem le_floorInt {x : F64} {k : Int} (h : (scale64 : Int) * k ≤ units x) : k ≤ floorInt x :=
  (Int.le_ediv_iff_mul_le scale64_int_pos).mpr (by rwa [mul_comm])

/-- No note is more than 6 octaves below note 69. -/
theorem neg_six_le_floorInt (note : BitVec 7) : -6 ≤ floorInt (octavesAboveA4 note) := by
  obtain ⟨hdf, hlo, hhi⟩ := noteDistance_bounds note
  obtain ⟨h12f, h12⟩ := fnat_exact (k := 12) (by decide)
  obtain ⟨h6f, h6⟩ := fnat_exact (k := 6) (by decide)
  have hS := scale64_int_pos
  have hexact : scale64 * (units (fsub (fnat note.toNat) tuneNote)).natAbs
      ≤ (units (fnat 6)).natAbs * (units (fnat 12)).natAbs := by
    calc _ ≤ scale64 * (scale64 * 72) := Nat.mul_le_mul_left _ (by omega)
      _ = (scale64 * 6) * (scale64 * 12) := by ring
      _ = _ := by rw [h6, h12]; rfl
  obtain ⟨-, hle⟩ := natAbs_units_fdiv_le hdf h12f h6f (by omega) hexact
  exact le_floorInt (by unfold octavesAboveA4; omega)

/-- A product of values not below 0 is at least a value of the format that the exact product is at least. -/
theorem le_units_fmul {x y z : F64} (hx : isFinite x = true) (hy : isFinite y = true) (hz : isFinite z = true)
    (hx0 : 0 ≤ units x) (hy0 : 0 ≤ units y) (h : units z * scale64 ≤ units x * units y) : units z ≤ units (fmul x y) := by
  have hsign := (units_fmul_sign hx hy).1 (mul_nonneg hx0 hy0)
  rcases le_or_gt (units z) 0 with hz0 | hz0
  · exact hz0.trans hsign
  · have habs : (units z).natAbs * scale64 ≤ (units x).natAbs * (units y).natAbs := by
      zify
      rwa [abs_of_pos hz0, abs_of_nonneg hx0, abs_of_nonneg hy0]
    have hle := le_natAbs_units_roundUnits (neg := fsign x != fsign y) hz scale64_pos habs
    rw [← fmul_of_finite hx hy] at hle
    omega

/-- No note is below 440 · 2^-6 = 6.875 Hz, which is above 1 Hz. -/
theorem one_le_freqOf (note : BitVec 7) : units f1 ≤ units (freqOf voicing note) := by
  obtain ⟨hx, hc⟩ := freqOf_exponent note
  obtain ⟨hpf, hp, -⟩ := pow2_between (x := octavesAboveA4 note) hx (hc.trans (by decide))
  have hmono := units_pow2Int_mono (neg_six_le_floorInt note) ((floorInt_le_ceilInt _).trans (hc.trans (by decide)))
  have hleast : units (pow2Int (-6)) * 64 = scale64 := by decide +kernel
  obtain ⟨haf, ha⟩ : isFinite tuneA4 = true ∧ units tuneA4 = (scale64 : Int) * 440 := fnat_exact (by decide)
  have hS := scale64_int_pos
  rw [freqOf_eq]
  refine le_units_fmul haf hpf isFinite_f1 (by omega) (by omega) ?_
  calc units f1 * scale64 = scale64 * scale64 := by rw [units_f1]
    _ ≤ scale64 * (440 * units (voicing.pow2 (octavesAboveA4 note))) := mul_le_mul_of_nonneg_left (by omega) hS.le
    _ = units tuneA4 * units (voicing.pow2 (octavesAboveA4 note)) := by rw [ha, mul_assoc]

theorem freqOf_bounds (note : BitVec 7) : isFinite (freqOf voicing note) = true ∧ flt f0 (freqOf voicing note) = true ∧
    fle (freqOf voicing note) (fnat 16384) = true := by
  obtain ⟨hf, -, hhi⟩ := (freqOf_upTo note).mono (l := 16384) (by decide)
  obtain ⟨htop, htopu⟩ := fnat_exact (k := 16384) (by decide)
  have hlo := one_le_freqOf note
  have hS := scale64_int_pos
  rw [units_f1] at hlo
  exact ⟨hf, (flt_iff isFinite_f0 hf).mpr (by rw [units_f0]; omega), (fle_iff hf htop).mpr (by rw [htopu]; exact hhi)⟩

/-! ### The octaves of 440 Hz -/

/-- At an exponent that is a whole number `k`, the frequency is 440 · 2^k, whatever `2^x` is elsewhere. -/
theorem freqOf_of_octave {note : BitVec 7} (k : Int) {hz : F64}
    (h : (isFinite (octavesAboveA4 note) = true ∧ units (octavesAboveA4 note) = (scale64 : Int) * k) ∧
      (-1074 ≤ k ∧ k ≤ 1023) ∧ fmul tuneA4 (pow2Int k) = hz) : freqOf voicing note = hz := by
  obtain ⟨⟨hf, hu⟩, ⟨hlo, hhi⟩, hval⟩ := h
  rw [freqOf_eq, pow2_of_whole hf hu hlo hhi, hval]

/-- Settles O18: the bounds for every note, and the ten octaves from −5 to 4. -/
theorem frequencyFiniteAndExactAtOctaves : Obligations.FrequencyFiniteAndExactAtOctaves :=
  ⟨freqOf_bounds, freqOf_of_octave (-5) (by decide +kernel), freqOf_of_octave (-4) (by decide +kernel),
    freqOf_of_octave (-3) (by decide +kernel), freqOf_of_octave (-2) (by decide +kernel),
    freqOf_of_octave (-1) (by decide +kernel), freqOf_of_octave 0 (by decide +kernel),
    freqOf_of_octave 1 (by decide +kernel), freqOf_of_octave 2 (by decide +kernel),
    freqOf_of_octave 3 (by decide +kernel), freqOf_of_octave 4 (by decide +kernel)⟩

/-! ### One slew step -/

/-- The slew step as an update of the state: `slewed` of the old pitch by `slewCoeff`, the coefficient of P11. -/
theorem pitchSlew_eq (c : Config.Voicing) (s : State) :
    pitchSlew c s =
      { s with voice := { s.voice with
        pitchCurrent := slewed s.voice.pitchCurrent s.voice.pitchTarget (coefOf c s.params.tauSlideMs) } } := rfl

/-- Settles O23: the meaning of `PSLEW`, with the step and the coefficient written out. -/
theorem pslewStep : Obligations.PslewStep := fun s => congrArg Host.Outcome.next (pitchSlew_eq voicing s)

end Sys2Proof.Proofs.Frequency
end

section
/-! PROOFS. The event words (`45_note_events.md` R140 to R147): a NoteOn is one of two updates of the voice, both of which
leave the gate `Sounding`, and a NoteOff is none; so of all instructions only `RESET` takes the gate back to `Silent`. -/

namespace Sys2Proof.Proofs.NoteEvents

open Sys2Proof Sys2Proof.Machine Sys2Proof.Safety Sys2Proof.Laws Sys2Proof.Proofs.Access Sys2Proof.Proofs.Invariants
  Sys2Proof.Proofs.Encoding

/-! ### NoteOn, one equation for each of its two forms -/

theorem retriggers_iff (s : State) (slide : Bool) :
    retriggers s slide = true ↔ s.voice.gate = .silent ∨ slide = false := by simp [retriggers]

/-- The retriggering form (R142, R143). -/
theorem noteOn_of_retriggers (c : Config.Voicing) (note : BitVec 7) (accent : Bool) {slide : Bool} {s : State}
    (h : retriggers s slide = true) :
    noteOn c note accent slide s =
      { s with voice :=
        { s.voice with
          pitchTarget := freqOf c note, pitchCurrent := freqOf c note, currentNote := note,
          mainEnv := f1, ampEnv := f1, accentActive := accent, slideActive := false, gate := .sounding } } := if_pos h

/-- The gliding form (R144). -/
theorem noteOn_of_not_retriggers (c : Config.Voicing) (note : BitVec 7) (accent : Bool) {slide : Bool} {s : State}
    (h : ¬ retriggers s slide = true) :
    noteOn c note accent slide s =
      { s with voice :=
        { s.voice with
          pitchTarget := freqOf c note, currentNote := note, slideActive := true, gate := .sounding } } := if_neg h

@[simp] theorem noteOn_gate (c : Config.Voicing) (note : BitVec 7) (accent slide : Bool) (s : State) :
    (noteOn c note accent slide s).voice.gate = .sounding := by
  by_cases h : retriggers s slide = true
  · rw [noteOn_of_retriggers c note accent h]
  · rw [noteOn_of_not_retriggers c note accent h]

/-- Settles O14: the retriggering form, where R140 asks for it. -/
theorem noteOnRetriggers : Obligations.NoteOnRetriggers := fun s note _ accent slide _ h =>
  congrArg Host.Outcome.next (noteOn_of_retriggers voicing note accent ((retriggers_iff s slide).mpr h))

/-- Settles O15: the gliding form; the gate it writes is the one it found. -/
theorem noteOnGlides : Obligations.NoteOnGlides := by
  intro s note velocity accent off hs
  have hglide : ¬ retriggers s true = true := by simp [retriggers_iff, hs]
  refine congrArg Host.Outcome.next ((noteOn_of_not_retriggers voicing note accent hglide).trans ?_)
  rw [← hs]

/-! ### NoteOff -/

/-- Settles O16: the meaning of `NOTEOFF` is the state it is given, and its words are its row of the opcode map. -/
theorem noteOffChangesNothing : Obligations.NoteOffChangesNothing := by
  refine ⟨fun _ _ _ _ _ _ => rfl, fun w => ?_⟩
  obtain ⟨-, hnoteoff, -⟩ := opcodeMap w
  exact hnoteoff

/-! ### Where the gate falls -/

/-- Of all instructions only `RESET` takes the gate from `Sounding` to `Silent`. -/
theorem eq_reset_of_gate_falls {i : Instr} {s t : State} (h : exec i s = .next t) (hs : s.voice.gate = .sounding)
    (ht : t.voice.gate = .silent) : i = .reset := by
  have kept (hi : mayWriteFlags i = false) : i = .reset := by
    obtain ⟨-, -, -, hgate⟩ := exec_flags h hi
    cases hs.symm.trans (hgate.symm.trans ht)
  cases i with
  | reset => rfl
  | noteon note _ accent slide => cases (noteOn_gate voicing note accent slide s).symm.trans (exec_noteon_eq h ▸ ht)
  | noteoff | render | ldparam | rdstat | pslew | osc | env | coef | filt | san | vca => exact kept rfl

/-- Settles O40: a step that runs no instruction keeps the voice, and of those that run one only a command can be a
`RESET`. -/
theorem gateFallsOnlyByReset : Obligations.GateFallsOnlyByReset := by
  intro s t h hs ht
  have voice_ne : t.voice ≠ s.voice := fun hv => by cases hs.symm.trans ((congrArg Voice.gate hv).symm.trans ht)
  cases step_cases h with
  | command w rest i _ hsched hp hd he =>
    cases eq_reset_of_gate_falls he hs ht
    exact ⟨hsched, w, rest, hp, hd⟩
  | event w i u hsched hw hn hp hd he =>
    cases eq_reset_of_gate_falls he hs ht
    obtain ⟨_, _, _, _, _, hi⟩ | ⟨_, _, _, _, _, hi⟩ := decodePayload_event hd <;> cases hi
  | stage st u hsched hd he =>
    have hi : st.instr = .reset := eq_reset_of_gate_falls he hs ht
    cases st <;> cases hi
  | payload => exact absurd (captureWord_voice _ _ _) voice_ne
  | hold => exact absurd rfl voice_ne
  | discard => exact absurd rfl voice_ne
  | begin => exact absurd rfl voice_ne
  | late => exact absurd rfl voice_ne
  | notEvent => exact absurd rfl voice_ne
  | finish => exact absurd rfl voice_ne

end Sys2Proof.Proofs.NoteEvents
end

section
/-! PROOFS. The sample step (`46_sample_step.md`): what stage `VCA` stores, what it stores when the envelope is a zero, that no
stage reads the bookkeeping, and the order in which the scheduler runs the stages. -/

namespace Sys2Proof.Proofs.SampleStep

open Sys2Proof Sys2Proof.Machine Sys2Proof.Safety Sys2Proof.Laws Sys2Proof.Proofs.Access Sys2Proof.Proofs.Bounds
  Sys2Proof.Proofs.Pitch Sys2Proof.Proofs.Oscillator Sys2Proof.Proofs.Coefficients Sys2Proof.Proofs.Ladder
  Sys2Proof.Proofs.Envelopes Sys2Proof.Proofs.Scheduler

/-! ### The sample store -/

/-- The sample as rounded to the port, before the repair (`46_sample_step.md` R160). -/
def vcaSample (s : State) : F32 := f32 (fmul (filtOut s) (vcaGain voicing s))

/-- The sample as it is stored: +0 where it is not finite (`60_exceptions.md` R204). -/
def repairedSample (x : F32) : F32 := if isFinite32 x then x else 0#32

theorem exec_vca (s : State) :
    exec .vca s = .next { s with
      out := memWrite s.out s.pos.toNat (repairedSample (vcaSample s))
      diag := diagUnless (isFinite32 (vcaSample s)) s.diag
      nfcnt := countUnless (isFinite32 (vcaSample s)) s.nfcnt } :=
  congrArg Host.Outcome.next (storeSample_eq (vcaSample s) s)

theorem exec_vca_of_finite {s : State} (h : isFinite32 (vcaSample s) = true) :
    exec .vca s = .next { s with out := memWrite s.out s.pos.toNat (repairedSample (vcaSample s)) } := by
  rw [exec_vca, h]; rfl

theorem exec_vca_of_not_finite {s : State} (h : isFinite32 (vcaSample s) = false) :
    exec .vca s = .next { s with
      out := memWrite s.out s.pos.toNat (repairedSample (vcaSample s))
      diag := s.diag ||| 0b0001#4
      nfcnt := BitVec.ofNat 8 (min (s.nfcnt.toNat + 1) 255) } := by
  rw [exec_vca, h]; rfl

/-- The cell at `pos` holds the sample. -/
theorem memRead_of_exec_vca {s t : State} (h : exec .vca s = .next t) :
    memRead t.out s.pos.toNat = some (repairedSample (vcaSample s)) := by
  rw [exec_vca] at h
  rw [← next_inj h]
  exact memRead_memWrite_same _ _ _

/-- Settles O36: one write to `OUT`, of the sample or of its repair. -/
theorem vcaStep : Obligations.VcaStep := fun s =>
  ⟨memWrite s.out s.pos.toNat (repairedSample (vcaSample s)), exec_vca_of_finite, exec_vca_of_not_finite,
    memRead_memWrite_same _ _ _, fun _ ha => memRead_memWrite_ne _ _ ha, wf_memWrite _ _ _⟩

/-! ### The sample of a silent envelope -/

theorem eq_fzero_of_fmag {x : F64} (h : fmag x = 0) : x = fzero (fsign x) := by
  rw [fzero, ← h, fpack_fsign_fmag]

theorem fmul_inUnit_of_inUnit {x y : F64} (hx : InUnit x) (hy : InUnit y) : InUnit (fmul x y) := by
  obtain ⟨hxf, hx0, hx1⟩ := hx
  obtain ⟨hf, hup, -⟩ := fmul_inUnit hxf hy
  obtain ⟨h0, h1⟩ := hup hx0
  exact ⟨hf, h0, h1.trans hx1⟩

/-- The greatest finite magnitude plus 1 is rounded back to it: 1 is far below half its last place. -/
theorem roundMag_max_add_one :
    roundMag fracBits64 infMag64 (magUnits fracBits64 (infMag64 - 1) + scale64) 1 < infMag64 := by decide +kernel

/-- Adding a finite value to 1 does not overflow. -/
theorem isFinite_one_add {x : F64} (hx : isFinite x = true) : isFinite (fadd f1 x) = true := by
  rw [fadd_of_finite isFinite_f1 hx, roundInt]
  split
  · exact isFinite_fzero _
  · have hmax : (units x).natAbs ≤ magUnits fracBits64 (infMag64 - 1) := by
      rw [natAbs_units, magUnits_le_iff]
      exact Nat.le_sub_one_of_lt (isFinite_iff.mp hx)
    have hsum : (units f1 + units x).natAbs ≤ magUnits fracBits64 (infMag64 - 1) + scale64 := by
      rw [units_f1]
      omega
    rw [isFinite_iff, fmag_roundUnits]
    exact (roundMag_mono Nat.one_pos Nat.one_pos (Nat.mul_le_mul_right 1 hsum)).trans_lt roundMag_max_add_one

/-- The boost `1 + acc · accentLevel · ACCENT_VCA_GAIN` is finite (`46_sample_step.md` R161). -/
theorem isFinite_accentBoost {s : State} (hp : paramsInRange s.params) :
    isFinite (fadd f1 (fmul (fmul (accOf s) (readP s .accentLevel)) voicing.accentVcaGain)) = true := by
  obtain ⟨-, hlevel, -⟩ := unitParams_of_inRange hp
  have hgain : isFinite voicing.accentVcaGain = true := (finiteNonneg_spec _).1
  have haccent : InUnit (fmul (accOf s) (readP s .accentLevel)) := fmul_inUnit_of_inUnit (accOf_inUnit s) hlevel
  have hscaled : isFinite (fmul (fmul (accOf s) (readP s .accentLevel)) voicing.accentVcaGain) = true := by
    rw [fmul_comm_of_finite haccent.1 hgain]
    exact (fmul_inUnit hgain haccent).1
  exact isFinite_one_add hscaled

/-- With `vcaEnv` a zero the gain is a zero: volume and boost are finite. -/
theorem vcaGain_of_silent {s : State} (hp : paramsInRange s.params) (hv : fmag s.wires.vcaEnv = 0) :
    ∃ neg, vcaGain voicing s = fzero neg := by
  obtain ⟨hvol, -⟩ : InUnit (readP s .volume) := within_unit_iff.mp (hp .volume)
  rw [vcaGain, eq_fzero_of_fmag hv, fmul_fzero hvol, fzero_fmul (isFinite_accentBoost hp)]
  exact ⟨_, rfl⟩

/-- A zero is rounded to a zero of binary32, which is finite and so not repaired. -/
theorem mag32_repairedSample_fzero (neg : Bool) : mag32 (repairedSample (f32 (fzero neg))) = 0 := by
  cases neg <;> decide +kernel

/-- Settles O37: a finite `filt` times a gain that is a zero. -/
theorem silentVcaStoresZero : Obligations.SilentVcaStoresZero := by
  intro s t hp hv hfilt h
  obtain ⟨neg, hgain⟩ := vcaGain_of_silent hp hv
  refine ⟨_, memRead_of_exec_vca h, ?_⟩
  rw [vcaSample, hgain, fmul_fzero (x := filtOut s) hfilt]
  exact mag32_repairedSample_fzero _

/-! ### What no stage reads -/

/-- What `f` does beside the bookkeeping, it does from any bookkeeping. -/
def IgnoresBookkeeping (f : State → State) : Prop :=
  ∀ s, withoutBookkeeping (f s) = withoutBookkeeping (f (withoutBookkeeping s))

theorem pitchSlew_ignoresBookkeeping (c : Config.Voicing) : IgnoresBookkeeping (pitchSlew c) := fun _ => rfl

theorem oscillator_ignoresBookkeeping (c : Config.Voicing) : IgnoresBookkeeping (oscillator c) := fun s => by
  rw [oscillator_eq, oscillator_eq]; rfl

theorem envelopes_ignoresBookkeeping (c : Config.Voicing) : IgnoresBookkeeping (envelopes c) := fun s => by
  rw [envelopes_eq, envelopes_eq]; rfl

theorem coefficients_ignoresBookkeeping (c : Config.Voicing) : IgnoresBookkeeping (coefficients c) := fun s => by
  rw [coefficients_eq, coefficients_eq]; rfl

theorem ladderFilter_ignoresBookkeeping (c : Config.Voicing) : IgnoresBookkeeping (ladderFilter c) := fun s => by
  rw [ladderFilter_eq, ladderFilter_eq]; rfl

theorem sanitizeReg_ignoresBookkeeping (r : DReg) : IgnoresBookkeeping (fun s => sanitizeReg s r) := fun s => by
  beta_reduce
  rw [sanitizeReg_eq, sanitizeReg_eq]
  cases r <;> rfl

/-- `SAN` is a row of such turns. -/
theorem sanitizeRegs_ignoresBookkeeping (l : List DReg) : IgnoresBookkeeping (fun s => l.foldl sanitizeReg s) := by
  induction l with
  | nil => exact fun _ => rfl
  | cons r l ih =>
    intro s
    calc withoutBookkeeping (l.foldl sanitizeReg (sanitizeReg s r))
        = withoutBookkeeping (l.foldl sanitizeReg (withoutBookkeeping (sanitizeReg s r))) := ih _
      _ = withoutBookkeeping (l.foldl sanitizeReg (withoutBookkeeping (sanitizeReg (withoutBookkeeping s) r))) := by
        rw [sanitizeReg_ignoresBookkeeping r s]
      _ = withoutBookkeeping (l.foldl sanitizeReg (sanitizeReg (withoutBookkeeping s) r)) := (ih _).symm

/-- `VCA` reads `accentActive`, but none of the five. -/
theorem amplifier_ignoresBookkeeping (c : Config.Voicing) : IgnoresBookkeeping (amplifier c) := fun s => by
  rw [amplifier, amplifier, storeSample_eq, storeSample_eq]; rfl

theorem IgnoresBookkeeping.next {f : State → State} (h : IgnoresBookkeeping f) (s : State) :
    thenNext (.next (f s)) withoutBookkeeping = thenNext (.next (f (withoutBookkeeping s))) withoutBookkeeping :=
  congrArg Host.Outcome.next (h s)

theorem exec_stage_ignoresBookkeeping {i : Instr} (hi : i.place = .stage) (s : State) :
    thenNext (exec i s) withoutBookkeeping = thenNext (exec i (withoutBookkeeping s)) withoutBookkeeping := by
  cases i with
  | noteon | noteoff | render | ldparam | reset | rdstat => cases hi
  | pslew => exact (pitchSlew_ignoresBookkeeping voicing).next s
  | osc => exact (oscillator_ignoresBookkeeping voicing).next s
  | env => exact (envelopes_ignoresBookkeeping voicing).next s
  | coef => exact (coefficients_ignoresBookkeeping voicing).next s
  | filt => exact (ladderFilter_ignoresBookkeeping voicing).next s
  | san => exact (sanitizeRegs_ignoresBookkeeping filterRegs).next s
  | vca => exact (amplifier_ignoresBookkeeping voicing).next s

/-- Settles O38: both results come, beside the bookkeeping, to the result from the one state without it. -/
theorem stagesIgnoreBookkeeping : Obligations.StagesIgnoreBookkeeping := by
  intro i s1 s2 t1 t2 hi hs h1 h2
  refine next_inj ?_
  calc thenNext (.next t1) withoutBookkeeping
      = thenNext (exec i s1) withoutBookkeeping := by rw [h1]
    _ = thenNext (exec i (withoutBookkeeping s1)) withoutBookkeeping := exec_stage_ignoresBookkeeping hi s1
    _ = thenNext (exec i (withoutBookkeeping s2)) withoutBookkeeping := by rw [hs]
    _ = thenNext (exec i s2) withoutBookkeeping := (exec_stage_ignoresBookkeeping hi s2).symm
    _ = thenNext (.next t2) withoutBookkeeping := by rw [h2]

/-! ### The order of the stages -/

theorem step_of_loop {s : State} {st : Stage} (hs : s.sched = .loop st) : step s = loopStep st s := by
  unfold step advance; rw [hs]

theorem loopStep_of_ne_pslew {st : Stage} (hst : st ≠ .pslew) (s : State) : loopStep st s = runStage st s := by
  cases st with
  | pslew => exact absurd rfl hst
  | osc | env | coef | filt | san | vca => rfl

theorem boundary_of_sampleDue {s : State} (h : sampleDue s) : boundary s = runStage .pslew s := by
  unfold boundary
  obtain ⟨w, hw, hn, hpos⟩ | ⟨hw, hpos⟩ := h
  · simp only [hw]
    rw [if_neg hn.not_ge, if_pos hpos]
  · simp only [hw]
    rw [if_pos hpos]

theorem boundary_of_finished {s : State} (hw : s.evq[s.evi.toNat]? = none) (hn : s.n.toNat ≤ s.pos.toNat) :
    boundary s = .next (endCall s) := by
  unfold boundary
  simp only [hw]
  rw [if_neg hn.not_gt]

/-- The stage that is next is run, `PSLEW` only where a sample begins. -/
theorem step_of_stage {s t : State} {st : Stage} (hs : s.sched = .loop st) (hd : st = .pslew → sampleDue s)
    (he : exec st.instr s = .next t) : step s = .next (afterStage st t) := by
  have hrun : loopStep st s = runStage st s := by
    by_cases hst : st = .pslew
    · subst hst
      exact boundary_of_sampleDue (hd rfl)
    · exact loopStep_of_ne_pslew hst s
  rw [step_of_loop hs, hrun, runStage_eq he]

/-- From a boundary a step goes on to `OSC` exactly where a sample begins: no event and no end of a call leads there. -/
theorem sched_osc_iff_sampleDue {s t : State} (hs : s.sched = .loop .pslew) (h : step s = .next t) :
    t.sched = .loop .osc ↔ sampleDue s := by
  constructor
  · intro ht
    cases step_cases h with
    | stage st u hst hd he =>
      cases Sched.loop.inj (hs.symm.trans hst)
      exact hd rfl
    | event w i u _ hw hn hp hd he =>
      obtain ⟨-, hkeep⟩ := event_sameCall hd he
      cases hs.symm.trans (hkeep.symm.trans ht)
    | hold | late | notEvent => cases hs.symm.trans ht
    | discard w rest r hsched => cases hs.symm.trans hsched
    | command w rest i _ hsched => cases hs.symm.trans hsched
    | begin hsched => cases hs.symm.trans hsched
    | payload left w rest hsched => cases hs.symm.trans hsched
    | finish => cases ht
  · intro hd
    obtain ⟨u, hu⟩ := exec_next .pslew s
    rw [step_of_stage hs (fun _ => hd) hu] at h
    rw [← next_inj h]
    rfl

/-- Settles O8: a stage and the scheduler's move after it, at each of the seven turns; and the end of the call. -/
theorem stepRunsStages : Obligations.StepRunsStages := fun _ =>
  ⟨fun hs hw hn => (step_of_loop hs).trans (boundary_of_finished hw hn),
    fun _ hs h => sched_osc_iff_sampleDue hs h,
    fun _ hs hd he => step_of_stage (st := .pslew) hs (fun _ => hd) he,
    fun _ hs he => step_of_stage (st := .osc) hs nofun he,
    fun _ hs he => step_of_stage (st := .env) hs nofun he,
    fun _ hs he => step_of_stage (st := .coef) hs nofun he,
    fun _ hs he => step_of_stage (st := .filt) hs nofun he,
    fun _ hs he => step_of_stage (st := .san) hs nofun he,
    fun _ hs he => step_of_stage (st := .vca) hs nofun he⟩

end Sys2Proof.Proofs.SampleStep
end

section
/-! PROOFS. The steps of the scheduler one by one (`47_render_scheduler.md` R172 to R176, `60_exceptions.md` R200, R208 to
R210, R220): what a step does with a word at the port, with a payload word, and with an event at a boundary; and that no step
stops. -/

namespace Sys2Proof.Proofs.SchedulerSteps

open Sys2Proof Sys2Proof.Machine Sys2Proof.Laws Sys2Proof.Proofs.Access Sys2Proof.Proofs.CommandPort
  Sys2Proof.Proofs.SampleStep

/-! ### Between commands -/

/-- Settles O10: the step between commands, with no word to take. -/
theorem idleHoldsState : Obligations.IdleHoldsState := by
  intro s hs hp
  rw [step_of_idle hs, idleStep, hp]

theorem acceptWord_of_error {w : Word64} {r : Reject} (hd : decodeTop w = .error r) (s : State) :
    acceptWord w s = .next (raiseCond .illegalWord s) := by
  unfold acceptWord; rw [hd]

/-! ### The capture of a payload -/

theorem step_of_capture {s : State} {left : BitVec 24} (hs : s.sched = .capture left) :
    step s = captureStep left s := by
  unfold step advance; rw [hs]

/-- While words are to come, the one at the port is taken. -/
theorem step_captures {s : State} {left : BitVec 24} {w : Word64} {rest : List Word64} (hs : s.sched = .capture left)
    (hl : left ≠ 0#24) (hp : s.port = w :: rest) :
    step s = .next (captureWord voicing.evqDepth w { s with port := rest, sched := .capture (left - 1#24) }) := by
  rw [step_of_capture hs, captureStep, if_neg hl, hp]

/-- With the payload complete the loop begins. -/
theorem step_begins {s : State} (hs : s.sched = .capture 0#24) : step s = .next (startLoop s) := by
  rw [step_of_capture hs, captureStep, if_pos rfl]

theorem legalEventWord_of_ok {w : Word64} {i : Instr} (h : decodePayload w = .ok i) : legalEventWord w = true := by
  rw [legalEventWord, h]

theorem legalEventWord_of_error {w : Word64} {r : Reject} (h : decodePayload w = .error r) :
    legalEventWord w = false := by
  rw [legalEventWord, h]

theorem captureWord_of_illegal {w : Word64} (h : legalEventWord w = false) (depth : Nat) (s : State) :
    captureWord depth w s = raiseCond .illegalWord s := by
  simp [captureWord, h]

theorem captureWord_of_full {w : Word64} {depth : Nat} {s : State} (h : legalEventWord w = true)
    (hl : s.evq.length = depth) : captureWord depth w s = raiseCond .eventDrop s := by
  simp [captureWord, h, hl]

theorem captureWord_of_room {w : Word64} {depth : Nat} {s : State} (h : legalEventWord w = true)
    (hl : s.evq.length ≠ depth) : captureWord depth w s = { s with evq := s.evq ++ [w] } := by
  simp [captureWord, h, hl]

/-- Settles O11: the word is taken off the port, at the top level or as one of the payload's, and raises `ILLCMD`. -/
theorem illegalWordIsDiscarded : Obligations.IllegalWordIsDiscarded := by
  intro s w rest hp
  refine ⟨fun r hs hd => ?_, fun r left hs hl hd => ?_⟩
  · rw [step_of_idle hs, idleStep_of_port hp, acceptWord_of_error hd]; rfl
  · rw [step_captures hs hl hp, captureWord_of_illegal (legalEventWord_of_error hd)]; rfl

/-- Settles O12: the two ways the capture of a legal word can go. -/
theorem payloadWordIsQueuedOrDropped : Obligations.PayloadWordIsQueuedOrDropped := by
  intro s w rest left i hs hl hp hd
  have hw := legalEventWord_of_ok hd
  refine ⟨fun hroom => ?_, fun hfull => ?_⟩
  · rw [step_captures hs hl hp,
      captureWord_of_room (s := { s with port := rest, sched := .capture (left - 1#24) }) hw hroom.ne]
  · rw [step_captures hs hl hp,
      captureWord_of_full (s := { s with port := rest, sched := .capture (left - 1#24) }) hw hfull]
    rfl

/-! ### Events at a sample boundary -/

theorem boundary_of_late {s : State} {w : Word64} (hw : s.evq[s.evi.toNat]? = some w)
    (hn : s.n.toNat ≤ (fieldOffset w).toNat) : boundary s = .next (nextEvent (raiseCond .lateEvent s)) := by
  unfold boundary
  simp only [hw]
  rw [if_pos hn]

theorem boundary_of_due {s : State} {w : Word64} (hw : s.evq[s.evi.toNat]? = some w)
    (hn : (fieldOffset w).toNat < s.n.toNat) (hp : (fieldOffset w).toNat ≤ s.pos.toNat) :
    boundary s = applyEvent w s := by
  unfold boundary
  simp only [hw]
  rw [if_neg hn.not_ge, if_neg hp.not_gt]

theorem applyEvent_of_ok {w : Word64} {i : Instr} {s t : State} (hd : decodePayload w = .ok i)
    (he : exec i s = .next t) : applyEvent w s = .next (nextEvent t) := by
  unfold applyEvent; rw [hd]; simp only [he, thenNext_next]

theorem applyEvent_of_error {w : Word64} {r : Reject} (hd : decodePayload w = .error r) (s : State) :
    applyEvent w s = .next (nextEvent (raiseCond .illegalWord s)) := by
  unfold applyEvent; rw [hd]

/-- Settles O7: the event is neither late nor still to come, so it is applied. -/
theorem stepRunsDueEvent : Obligations.StepRunsDueEvent := by
  intro s t w i hs hw hn hp hd he
  rw [step_of_loop hs, loopStep, boundary_of_due hw hn hp, applyEvent_of_ok hd he]
  rfl

/-- Settles O13: the first thing asked of an event at a boundary is whether it is late. -/
theorem lateEventIsDiscarded : Obligations.LateEventIsDiscarded := by
  intro s w hs hw hn
  rw [step_of_loop hs, loopStep, boundary_of_late hw hn]
  rfl

/-! ### No step stops -/

/-- The outcome is a next state. -/
def Completes (o : Host.Outcome State Fault Refusal) : Prop := ∃ t, o = .next t

theorem completes_next (t : State) : Completes (.next t) := ⟨t, rfl⟩

theorem completes_exec (i : Instr) (s : State) : Completes (exec i s) := exec_next i s

theorem Completes.thenNext {o : Host.Outcome State Fault Refusal} (h : Completes o) (f : State → State) :
    Completes (thenNext o f) := by
  obtain ⟨t, rfl⟩ := h
  exact completes_next (f t)

theorem completes_runStage (st : Stage) (s : State) : Completes (runStage st s) := (completes_exec _ s).thenNext _

theorem completes_idleStep (s : State) : Completes (idleStep s) := by
  unfold idleStep acceptWord
  split
  · exact completes_next _
  · split
    · exact completes_exec _ _
    · exact completes_next _

theorem completes_captureStep (left : BitVec 24) (s : State) : Completes (captureStep left s) := by
  unfold captureStep
  split
  · exact completes_next _
  · split <;> exact completes_next _

theorem completes_applyEvent (w : Word64) (s : State) : Completes (applyEvent w s) := by
  unfold applyEvent
  split
  · exact (completes_exec _ s).thenNext _
  · exact completes_next _

theorem completes_boundary (s : State) : Completes (boundary s) := by
  unfold boundary
  split
  · split
    · exact completes_next _
    · split
      · exact completes_runStage _ s
      · exact completes_applyEvent _ s
  · split
    · exact completes_runStage _ s
    · exact completes_next _

theorem completes_loopStep (st : Stage) (s : State) : Completes (loopStep st s) := by
  by_cases hst : st = .pslew
  · subst hst; exact completes_boundary s
  · rw [loopStep_of_ne_pslew hst]; exact completes_runStage st s

/-- Settles O9: whatever the scheduler does next, it completes. -/
theorem stepNeverStops : Obligations.StepNeverStops := by
  intro s
  cases hs : s.sched with
  | idle => rw [step_of_idle hs]; exact completes_idleStep s
  | capture left => rw [step_of_capture hs]; exact completes_captureStep left s
  | loop st => rw [step_of_loop hs]; exact completes_loopStep st s

end Sys2Proof.Proofs.SchedulerSteps
end

section
/-! PROOFS. The control commands (`48_host_control.md` R186 to R192): what each completes with, and which words spell it. -/

namespace Sys2Proof.Proofs.HostControl

open Sys2Proof Sys2Proof.Machine Sys2Proof.Laws Sys2Proof.Proofs.Access Sys2Proof.Proofs.Invariants
  Sys2Proof.Proofs.Encoding

/-! ### LDPARAM -/

/-- The words of `LDPARAM`, by its row, its index limit and its two fields. -/
theorem decodeWord_eq_ldparam_iff {w : Word64} {index : BitVec 8} {value : F32} :
    decodeWord w = .ok (.ldparam index value) ↔
      w &&& 0xFFFFFF0000000000#64 = 0x4000000000000000#64 ∧ index.toNat ≤ 11 ∧
        w.extractLsb' 32 8 = index ∧ w.extractLsb' 0 32 = value := by
  rw [decodeWord_eq_ok_iff]
  constructor
  · rintro ⟨hm, ⟨hx, hv⟩, hi⟩
    exact ⟨hm, Nat.le_of_lt_succ (of_decide_eq_true hi), hx, hv⟩
  · rintro ⟨hm, hi, hx, hv⟩
    exact ⟨hm, ⟨hx, hv⟩, decide_eq_true (Nat.lt_succ_of_le hi)⟩

theorem exec_ldparam (index : BitVec 8) (value : F32) (s : State) :
    exec (.ldparam index value) s = .next (writeStaging index.toNat value s) := rfl

/-- Settles O19: the staging write, at an index that names a parameter and at one that does not. -/
theorem ldparamWritesStaging : Obligations.LdparamWritesStaging := by
  refine ⟨fun _ _ _ => decodeWord_eq_ldparam_iff, fun s index value => ⟨fun hx => ?_, fun hx => ?_⟩⟩
  · rw [exec_ldparam, writeStaging_none hx]; rfl
  · obtain ⟨p, hp⟩ := Option.isSome_iff_exists.mp (paramAt_isSome.mpr hx)
    refine ⟨p, (paramAt_eq_some.mp hp).symm, s.staging.set p value, ?_, fun q => bank_get_set _ _ _ _⟩
    rw [exec_ldparam, writeStaging_some hp]

/-! ### RENDER -/

/-- Settles O20: the bank is that of the latched values, and no latched value has a sign. -/
theorem renderBegins : Obligations.RenderBegins := by
  intro s evCount n
  refine ⟨(latch s).params, rfl, rfl, rfl, rfl, rfl, rfl, rfl, rfl, rfl, rfl, rfl, rfl, rfl, fun q => ?_⟩
  obtain ⟨-, -, -, hsign, -⟩ := latched_spec q (s.staging.get q)
  rw [latch_get, hsign]

/-! ### RESET -/

/-- The one word of `RESET`: its mask holds every bit. -/
theorem decodeWord_eq_reset_iff {w : Word64} : decodeWord w = .ok .reset ↔ w = 0x5000000000000000#64 := by
  have hmask : w &&& 0xFFFFFFFFFFFFFFFF#64 = w := BitVec.and_allOnes
  refine decodeWord_eq_ok_iff.trans ⟨fun ⟨hm, _, _⟩ => hmask.symm.trans hm, fun h => ⟨?_, trivial, rfl⟩⟩
  exact hmask.trans h

/-- Settles O21: the voice of `RESET` is the zero voice. -/
theorem resetZeroesVoice : Obligations.ResetZeroesVoice :=
  ⟨fun _ => decodeWord_eq_reset_iff, fun _ => ⟨Voice.zero, rfl, zero_get, rfl, rfl, rfl, rfl⟩⟩

/-! ### RDSTAT -/

/-- The words of `RDSTAT`, by its row and its one field. -/
theorem decodeWord_eq_rdstat_iff {w : Word64} {clr : Bool} :
    decodeWord w = .ok (.rdstat clr) ↔
      w &&& 0xFFFFFFFFFFFFFFFE#64 = 0x6000000000000000#64 ∧ w.getLsbD 0 = clr :=
  decodeWord_eq_ok_iff.trans ⟨fun ⟨hm, hc, _⟩ => ⟨hm, hc⟩, fun ⟨hm, hc⟩ => ⟨hm, hc, rfl⟩⟩

/-- The answer and the clear as one update of the state. -/
theorem exec_rdstat (clr : Bool) (s : State) :
    exec (.rdstat clr) s = .next { s with
      resp := s.resp ++ [statusWord s]
      diag := if clr then 0#4 else s.diag
      nfcnt := if clr then 0#8 else s.nfcnt } := by
  cases clr <;> rfl

theorem gateBit_eq (g : Gate) : gateBit g = decide (g = .sounding) := by cases g <;> rfl

/-- The single bits of the status word (R192). -/
theorem statusWord_bits (s : State) :
    (statusWord s).getLsbD 0 = gateBit s.voice.gate ∧ (statusWord s).getLsbD 1 = s.voice.accentActive ∧
    (statusWord s).getLsbD 2 = s.voice.slideActive ∧ (statusWord s).getLsbD 15 = false := by
  simp only [statusWord, BitVec.getLsbD_append]
  simp

/-- The longer fields of the status word (R192). -/
theorem statusWord_fields (s : State) :
    (statusWord s).extractLsb' 3 5 = 0#5 ∧ (statusWord s).extractLsb' 8 7 = s.voice.currentNote ∧
    (statusWord s).extractLsb' 16 4 = s.diag ∧ (statusWord s).extractLsb' 20 4 = 0#4 ∧
    (statusWord s).extractLsb' 24 8 = s.nfcnt := by
  unfold statusWord
  refine ⟨?_, ?_, ?_, ?_, ?_⟩
  all_goals
    refine BitVec.eq_of_getLsbD_eq fun i hi => ?_
    simp only [BitVec.getLsbD_extractLsb', BitVec.getLsbD_append]
    interval_cases i <;> simp

/-- Settles O22: the word answered is the status word of the state before. -/
theorem rdstatAnswersStatus : Obligations.RdstatAnswersStatus := by
  refine ⟨fun _ _ => decodeWord_eq_rdstat_iff, fun s clr => ⟨statusWord s, exec_rdstat clr s, ?_⟩⟩
  obtain ⟨hgate, haccent, hslide, h15⟩ := statusWord_bits s
  obtain ⟨h3, hnote, hdiag, h20, hcount⟩ := statusWord_fields s
  exact ⟨hgate.trans (gateBit_eq _), haccent, hslide, h3, hnote, h15, hdiag, h20, hcount⟩

end Sys2Proof.Proofs.HostControl
end

section
/-! PROOFS. The non-finite check `SAN` (`60_exceptions.md` R201) and what `OUT` holds (R204, R221). -/

namespace Sys2Proof.Proofs.Exceptions

open Sys2Proof Sys2Proof.Machine Sys2Proof.Safety Sys2Proof.Laws Sys2Proof.Proofs.Access Sys2Proof.Proofs.CommandPort
  Sys2Proof.Proofs.Envelopes Sys2Proof.Proofs.Scheduler Sys2Proof.Proofs.SampleStep

/-! ### SAN -/

/-- A value as `SAN` leaves it. -/
def finiteOrZero (x : F64) : F64 := if isFinite x then x else f0

/-- A register of a voice as `SAN` leaves it. -/
def repairReg (v : Voice) (r : DReg) : Voice := v.set r (finiteOrZero (v.get r))

theorem repairReg_get_of_ne (v : Voice) {r q : DReg} (h : q ≠ r) : (repairReg v r).get q = v.get q := by
  rw [repairReg, get_set, if_neg h]

theorem sanitizeReg_repair (s : State) (r : DReg) :
    sanitizeReg s r =
      { s with
        voice := repairReg s.voice r
        diag := diagUnless (isFinite (s.voice.get r)) s.diag
        nfcnt := countUnless (isFinite (s.voice.get r)) s.nfcnt } := sanitizeReg_eq s r

/-- Checking several registers, each once, is one update of the state: the repairs of the registers and of the old values'
count. -/
theorem foldl_sanitizeReg {l : List DReg} (hl : l.Nodup) (s : State) :
    l.foldl sanitizeReg s =
      { s with
        voice := l.foldl repairReg s.voice
        diag := (l.map s.voice.get).foldl (fun d x => diagUnless (isFinite x) d) s.diag
        nfcnt := (l.map s.voice.get).foldl (fun k x => countUnless (isFinite x) k) s.nfcnt } := by
  induction l generalizing s with
  | nil => rfl
  | cons r l ih =>
    obtain ⟨hr, hl⟩ := List.nodup_cons.mp hl
    have hkept : l.map (repairReg s.voice r).get = l.map s.voice.get :=
      List.map_congr_left fun q hq => repairReg_get_of_ne _ fun h => hr (h ▸ hq)
    rw [List.foldl_cons, ih hl, sanitizeReg_repair]
    simp only [hkept, List.map_cons, List.foldl_cons]

/-- The old values of the filter registers, in the order of `SAN`. -/
def filterValues (v : Voice) : List F64 := [v.y0, v.y1, v.y2, v.y3, v.y4, v.hpz]

/-- The whole check as one update of the state, its repairs counted together. -/
theorem sanitize_eq (s : State) :
    sanitize s = { s with
      voice := { s.voice with
        y0 := finiteOrZero s.voice.y0, y1 := finiteOrZero s.voice.y1, y2 := finiteOrZero s.voice.y2,
        y3 := finiteOrZero s.voice.y3, y4 := finiteOrZero s.voice.y4, hpz := finiteOrZero s.voice.hpz }
      diag := if repairs (filterValues s.voice) = 0 then s.diag else s.diag ||| 0b0001#4
      nfcnt := if repairs (filterValues s.voice) = 0 then s.nfcnt
        else BitVec.ofNat 8 (min (s.nfcnt.toNat + repairs (filterValues s.voice)) 255) } := by
  rw [← foldl_diagUnless, ← foldl_countUnless]
  exact foldl_sanitizeReg (by decide) s

/-- Settles O35: the whole check, its repairs counted. -/
theorem sanStep : Obligations.SanStep := fun s => congrArg Host.Outcome.next (sanitize_eq s)

/-! ### The samples in OUT -/

/-- The canonical form, finite samples in every cell. -/
def OutSound (m : Memory) : Prop := Memory.wf m = true ∧ samplesFinite m = true

theorem outSound_nil : OutSound [] := ⟨rfl, rfl⟩

theorem isFinite32_repairedSample (x : F32) : isFinite32 (repairedSample x) = true := by
  unfold repairedSample
  cases h : isFinite32 x with
  | true => exact h
  | false => rfl

theorem outSound_memWrite {m : Memory} (h : OutSound m) (a : Nat) {x : F32} (hx : isFinite32 x = true) :
    OutSound (memWrite m a x) :=
  ⟨wf_memWrite m a x h.1, all_memWrite h.2 hx⟩

/-- `RENDER` empties `OUT`, `VCA` stores a finite sample, and no other instruction touches it. -/
theorem outSound_exec {i : Instr} {s t : State} (he : exec i s = .next t) (h : OutSound s.out) : OutSound t.out := by
  by_cases hr : ∃ e n, i = .render e n
  · obtain ⟨e, n, rfl⟩ := hr
    rw [exec_render_eq he]
    exact outSound_nil
  · by_cases hv : i = .vca
    · subst hv
      rw [exec_vca] at he
      rw [← next_inj he]
      exact outSound_memWrite h _ (isFinite32_repairedSample _)
    · rw [(exec_sameCall he (fun e n hi => hr ⟨e, n, hi⟩) hv).out]
      exact h

theorem captureWord_out (depth : Nat) (w : Word64) (s : State) : (captureWord depth w s).out = s.out := by
  obtain ⟨-, h⟩ | ⟨-, -, h⟩ | ⟨-, -, h⟩ := captureWord_cases depth w s <;> simp [h]

/-- Settles O49: of the ways a step can go, only those that run an instruction write `OUT`. -/
theorem samplesStayFinite : Obligations.SamplesStayFinite := by
  intro s t hs h
  change OutSound t.out
  cases step_cases h with
  | command w rest i _ hsched hp hd he => exact outSound_exec he hs
  | event w i u hsched hw hn hp hd he => exact outSound_exec (t := u) he hs
  | stage st u hsched hd he => exact outSound_exec (t := u) he hs
  | payload => rw [captureWord_out]; exact hs
  | hold => exact hs
  | discard => exact hs
  | begin => exact hs
  | late => exact hs
  | notEvent => exact hs
  | finish => exact hs

end Sys2Proof.Proofs.Exceptions
end

section
/-! PROOFS. Power-on reset (`70_reset_and_hazards.md` R230, `10_state.md` R31). -/

namespace Sys2Proof.Proofs.Reset

open Sys2Proof Sys2Proof.Machine Sys2Proof.Safety Sys2Proof.Proofs.Invariants

/-- The five timing constants after power-on, in milliseconds. -/
theorem resetParams_times :
    resetParams.tauAttackMs = fnat 3 ∧ resetParams.tauAccAttackMs = fnat 3 ∧ resetParams.tauAccDecayMs = fnat 200 ∧
      resetParams.tauVegMs = fnat 3000 ∧ resetParams.tauSlideMs = fnat 60 := by
  decide +kernel

/-- Settles O44: the voice is the zero voice; the patterns of the timing constants are those of their values. -/
theorem powerOnReset : Obligations.PowerOnReset := by
  obtain ⟨hattack, haccAttack, haccDecay, hveg, hslide⟩ := resetParams_times
  exact ⟨zero_get, rfl, rfl, rfl, rfl, rfl, rfl, rfl, hattack, haccAttack, haccDecay, hveg, hslide, rfl, rfl, rfl, rfl,
    rfl, resetParams_inRange⟩

end Sys2Proof.Proofs.Reset
end

section
/-! PROOFS. The re-sort (`47_render_scheduler.md` R171) is stable: a word goes before the words of its own offset that are
already in place, and those came after it in the payload. -/

namespace Sys2Proof.Proofs.Resort

open Sys2Proof Sys2Proof.Machine Sys2Proof.Proofs.Scheduler

/-- The words of one offset. -/
def atOffset (k : BitVec 32) (q : List Word64) : List Word64 := q.filter fun w => decide (fieldOffset w = k)

/-- Putting a word in its place passes only words of other offsets. -/
theorem atOffset_insertEvent (k : BitVec 32) (w : Word64) (q : List Word64) :
    atOffset k (insertEvent w q) = atOffset k (w :: q) := by
  induction q with
  | nil => rfl
  | cons v q ih =>
    simp only [insertEvent]
    split
    · rfl
    · next hwv =>
      have hne : fieldOffset w ≠ fieldOffset v := fun h => hwv (offsetLe_iff.mpr (by rw [h]))
      simp only [atOffset, List.filter_cons] at ih ⊢
      rw [ih]
      by_cases hw : fieldOffset w = k
      · have hv : fieldOffset v ≠ k := fun h => hne (hw.trans h.symm)
        simp [hw, hv]
      · simp [hw]

theorem atOffset_sortEvents (k : BitVec 32) (q : List Word64) : atOffset k (sortEvents q) = atOffset k q := by
  induction q with
  | nil => rfl
  | cons w q ih =>
    rw [sortEvents, atOffset_insertEvent]
    simp only [atOffset, List.filter_cons] at ih ⊢
    rw [ih]

/-- Settles O53: insertion sort. -/
theorem resortIsStable : Obligations.ResortIsStable := fun q =>
  ⟨sortEvents_perm q, (sortEvents_sorted q).imp offsetLe_iff.mp, fun k => atOffset_sortEvents k q⟩

end Sys2Proof.Proofs.Resort
end

section
/-! SUPPORT. What a sample and an event read and write of a state in a call (`46_sample_step.md` R157 to R159,
`47_render_scheduler.md` R172): the scheduler's registers and `OUT` decide nothing in them, and of these a sample writes one
cell at `pos`. Every statement about whole calls rests on this. -/

namespace Sys2Proof.Proofs.CallFrame

open Sys2Proof Sys2Proof.Machine Sys2Proof.Safety Sys2Proof.Laws Sys2Proof.Proofs.Access Sys2Proof.Proofs.Scheduler
  Sys2Proof.Proofs.SampleStep

/-! ### The registers of a call -/

/-- The scheduler's registers and `OUT` (`10_state.md` R24, `20_memory.md` R43). -/
structure CallRegs where
  sched : Sched
  n : BitVec 32
  pos : BitVec 32
  evi : BitVec 32
  evq : List Word64
  out : Memory

def regsOf (s : State) : CallRegs := ⟨s.sched, s.n, s.pos, s.evi, s.evq, s.out⟩

/-- A change of these registers, as a change of the state. -/
def onCall (h : CallRegs → CallRegs) (s : State) : State :=
  { s with
    sched := (h (regsOf s)).sched, n := (h (regsOf s)).n, pos := (h (regsOf s)).pos, evi := (h (regsOf s)).evi
    evq := (h (regsOf s)).evq, out := (h (regsOf s)).out }

@[simp] theorem regsOf_onCall (h : CallRegs → CallRegs) (s : State) : regsOf (onCall h s) = h (regsOf s) := rfl

/-- `DIAG` with some bits set. -/
def flag (m : BitVec 4) (s : State) : State := { s with diag := s.diag ||| m }

/-- Neither the registers of a call nor the bits of `DIAG` decide anything in `f`, and it leaves them as it finds them, but
for bits of `DIAG` that it sets. -/
structure SoundOnly (f : State → State) : Prop where
  call : ∀ h, Function.Commute f (onCall h)
  flag : ∀ m, Function.Commute f (flag m)

theorem SoundOnly.comp {f g : State → State} (hf : SoundOnly f) (hg : SoundOnly g) : SoundOnly (fun s => f (g s)) where
  call h := (hf.call h).comp_left (hg.call h)
  flag m := (hf.flag m).comp_left (hg.flag m)

theorem soundOnly_id : SoundOnly fun s => s := ⟨fun _ _ => rfl, fun _ _ => rfl⟩

/-- Such an operation leaves the registers of a call. -/
theorem SoundOnly.regsOf_eq {f : State → State} (hf : SoundOnly f) (s : State) : regsOf (f s) = regsOf s :=
  calc regsOf (f s) = regsOf (f (onCall (fun _ => regsOf s) s)) := rfl
    _ = regsOf (onCall (fun _ => regsOf s) (f s)) := congrArg regsOf (hf.call _ s)
    _ = regsOf s := rfl

/-! ### The stages before VCA -/

theorem or_right_swap (d m k : BitVec 4) : d ||| m ||| k = d ||| k ||| m := by ac_rfl

theorem raiseCond_soundOnly (k : Condition) : SoundOnly (raiseCond k) where
  call _ _ := rfl
  flag m s := congrArg (fun d => { raiseCond k s with diag := d }) (or_right_swap s.diag m (diagMask k))

theorem writeD_soundOnly (r : DReg) (x : F64) : SoundOnly fun s => writeD s r x :=
  ⟨fun _ _ => rfl, fun _ _ => rfl⟩

/-- A value that the registers of a call and `DIAG` do not decide. -/
structure SoundValue {α : Type} (x : State → α) : Prop where
  call : ∀ h s, x (onCall h s) = x s
  flag : ∀ m s, x (flag m s) = x s

theorem writeEnv_soundOnly (r : DReg) {x : State → F64} (hx : SoundValue x) :
    SoundOnly fun s => writeEnv r (x s) s := by
  have hraise (y : F64) := (raiseCond_soundOnly .numericInstability).comp (writeD_soundOnly r y)
  have hwrite (y : F64) : SoundOnly (writeEnv r y) := by
    unfold writeEnv
    cases isFinite y with
    | true => exact writeD_soundOnly r _
    | false => exact hraise _
  refine ⟨fun h s => ?_, fun m s => ?_⟩
  · rw [hx.call]; exact (hwrite _).call h s
  · rw [hx.flag]; exact (hwrite _).flag m s

theorem sanitizeReg_soundOnly (r : DReg) : SoundOnly fun s => sanitizeReg s r := by
  have hraise := (raiseCond_soundOnly .numericInstability).comp (writeD_soundOnly r f0)
  refine ⟨fun h s => ?_, fun m s => ?_⟩
  · unfold sanitizeReg
    rw [show readD (onCall h s) r = readD s r from rfl]
    cases isFinite (readD s r) with
    | true => rfl
    | false => exact hraise.call h s
  · unfold sanitizeReg
    rw [show readD (flag m s) r = readD s r from rfl]
    cases isFinite (readD s r) with
    | true => rfl
    | false => exact hraise.flag m s

theorem pitchSlew_soundOnly (c : Config.Voicing) : SoundOnly (pitchSlew c) := ⟨fun _ _ => rfl, fun _ _ => rfl⟩

theorem oscillator_soundOnly (c : Config.Voicing) : SoundOnly (oscillator c) := ⟨fun _ _ => rfl, fun _ _ => rfl⟩

theorem coefficients_soundOnly (c : Config.Voicing) : SoundOnly (coefficients c) := ⟨fun _ _ => rfl, fun _ _ => rfl⟩

theorem envelopes_soundOnly (c : Config.Voicing) : SoundOnly (envelopes c) := by
  have hrc1 : SoundOnly (stepRc1 c) := writeEnv_soundOnly .rc1 ⟨fun _ _ => rfl, fun _ _ => rfl⟩
  have hrc2 : SoundOnly (stepRc2 c) := writeEnv_soundOnly .rc2 ⟨fun _ _ => rfl, fun _ _ => rfl⟩
  have hwires : SoundOnly (setEnvWires c) := ⟨fun _ _ => rfl, fun _ _ => rfl⟩
  have hmain : SoundOnly (decayMain c) := writeEnv_soundOnly .mainEnv ⟨fun _ _ => rfl, fun _ _ => rfl⟩
  have hamp : SoundOnly (decayAmp c) := writeEnv_soundOnly .ampEnv ⟨fun _ _ => rfl, fun _ _ => rfl⟩
  exact hamp.comp (hmain.comp (hwires.comp (hrc2.comp hrc1)))

theorem filterInput_soundOnly (c : Config.Voicing) : SoundOnly (filterInput c) where
  call h s := by rw [filterInput_eq, filterInput_eq]; rfl
  flag m s := by rw [filterInput_eq, filterInput_eq]; rfl

theorem filterY1_soundOnly : SoundOnly filterY1 := ⟨fun _ _ => rfl, fun _ _ => rfl⟩

theorem filterY2_soundOnly : SoundOnly filterY2 := ⟨fun _ _ => rfl, fun _ _ => rfl⟩

theorem filterY3_soundOnly : SoundOnly filterY3 := ⟨fun _ _ => rfl, fun _ _ => rfl⟩

theorem filterY4_soundOnly : SoundOnly filterY4 := ⟨fun _ _ => rfl, fun _ _ => rfl⟩

theorem ladderFilter_soundOnly (c : Config.Voicing) : SoundOnly (ladderFilter c) :=
  filterY4_soundOnly.comp (filterY3_soundOnly.comp (filterY2_soundOnly.comp (filterY1_soundOnly.comp
    (filterInput_soundOnly c))))

theorem sanitizeRegs_soundOnly (l : List DReg) : SoundOnly fun s => l.foldl sanitizeReg s := by
  induction l with
  | nil => exact soundOnly_id
  | cons r l ih => exact ih.comp (sanitizeReg_soundOnly r)

theorem sanitize_soundOnly : SoundOnly sanitize := sanitizeRegs_soundOnly filterRegs

/-- The six stages of a sample before `VCA`. -/
def beforeVca (c : Config.Voicing) (s : State) : State :=
  sanitize (ladderFilter c (coefficients c (envelopes c (oscillator c (pitchSlew c s)))))

theorem beforeVca_soundOnly (c : Config.Voicing) : SoundOnly (beforeVca c) := by
  unfold beforeVca
  exact sanitize_soundOnly.comp ((ladderFilter_soundOnly c).comp ((coefficients_soundOnly c).comp
    ((envelopes_soundOnly c).comp ((oscillator_soundOnly c).comp (pitchSlew_soundOnly c)))))

/-! ### A sample -/

/-- The sample a `STEP` computes, before the repair (`46_sample_step.md` R160). -/
def rawSample (c : Config.Voicing) (s : State) : F32 :=
  f32 (fmul (filtOut (beforeVca c s)) (vcaGain c (beforeVca c s)))

/-- The sample a `STEP` stores. -/
def sampleMade (c : Config.Voicing) (s : State) : F32 := repairedSample (rawSample c s)

/-- A `STEP` without its sample store. -/
def soundStep (c : Config.Voicing) (s : State) : State :=
  if isFinite32 (rawSample c s) then beforeVca c s else raiseCond .numericInstability (beforeVca c s)

/-- The sample store and the advance of `pos`. -/
def CallRegs.push (r : CallRegs) (x : F32) : CallRegs :=
  { r with out := memWrite r.out r.pos.toNat x, pos := r.pos + 1#32 }

theorem rawSample_soundValue (c : Config.Voicing) : SoundValue (rawSample c) where
  call h s := by
    unfold rawSample
    rw [(beforeVca_soundOnly c).call h s]
    generalize beforeVca c s = u
    rfl
  flag m s := by
    unfold rawSample
    rw [(beforeVca_soundOnly c).flag m s]
    generalize beforeVca c s = u
    rfl

theorem sampleMade_soundValue (c : Config.Voicing) : SoundValue (sampleMade c) where
  call h s := congrArg repairedSample ((rawSample_soundValue c).call h s)
  flag m s := congrArg repairedSample ((rawSample_soundValue c).flag m s)

theorem soundStep_soundOnly (c : Config.Voicing) : SoundOnly (soundStep c) := by
  have hraise := (raiseCond_soundOnly .numericInstability).comp (beforeVca_soundOnly c)
  refine ⟨fun h s => ?_, fun m s => ?_⟩
  · unfold soundStep
    rw [(rawSample_soundValue c).call]
    cases isFinite32 (rawSample c s) with
    | true => exact (beforeVca_soundOnly c).call h s
    | false => exact hraise.call h s
  · unfold soundStep
    rw [(rawSample_soundValue c).flag]
    cases isFinite32 (rawSample c s) with
    | true => exact (beforeVca_soundOnly c).flag m s
    | false => exact hraise.flag m s

/-- `STEP() ; pos <- pos + 1`. -/
def oneSample (c : Config.Voicing) (s : State) : State :=
  { sampleStep c s with pos := (sampleStep c s).pos + 1#32 }

/-- A sample is its sound and one cell at `pos`. -/
theorem oneSample_eq (c : Config.Voicing) (s : State) :
    oneSample c s = onCall (fun r => r.push (sampleMade c s)) (soundStep c s) := by
  have hstep : sampleStep c s = storeSample (rawSample c s) (beforeVca c s) := by
    simp only [sampleStep, amplifier, rawSample, beforeVca]
  rw [oneSample, hstep, storeSample, soundStep, sampleMade, repairedSample]
  generalize beforeVca c s = u
  cases isFinite32 (rawSample c s) <;> rfl

theorem regsOf_oneSample (c : Config.Voicing) (s : State) :
    regsOf (oneSample c s) = (regsOf s).push (sampleMade c s) := by
  rw [oneSample_eq, regsOf_onCall, (soundStep_soundOnly c).regsOf_eq]

theorem sampleSteps_succ (c : Config.Voicing) (k : Nat) (s : State) :
    sampleSteps c (k + 1) s = sampleSteps c k (oneSample c s) := rfl

/-! ### An event -/

theorem noteOn_soundOnly (c : Config.Voicing) (note : BitVec 7) (accent slide : Bool) :
    SoundOnly (noteOn c note accent slide) := by
  refine ⟨fun h s => ?_, fun m s => ?_⟩
  · unfold noteOn
    rw [show retriggers (onCall h s) slide = retriggers s slide from rfl]
    cases retriggers s slide <;> rfl
  · unfold noteOn
    rw [show retriggers (flag m s) slide = retriggers s slide from rfl]
    cases retriggers s slide <;> rfl

theorem eventEffect_soundOnly (c : Config.Voicing) (w : Word64) : SoundOnly (eventEffect c w) := by
  unfold eventEffect
  split
  · exact noteOn_soundOnly c _ _ _
  · exact soundOnly_id
  · exact raiseCond_soundOnly .illegalWord

end Sys2Proof.Proofs.CallFrame
end

section
/-! PROOFS. A whole render call (`47_render_scheduler.md` R172, R174, R181): it makes the samples 0 to `n` − 1 in order, and the
machine's small steps come to it. -/

namespace Sys2Proof.Proofs.WholeCall

open Sys2Proof Sys2Proof.Machine Sys2Proof.Safety Sys2Proof.Laws Sys2Proof.Proofs.Access Sys2Proof.Proofs.CommandPort
  Sys2Proof.Proofs.Scheduler Sys2Proof.Proofs.SampleStep Sys2Proof.Proofs.SchedulerSteps Sys2Proof.Proofs.CallFrame

/-! ### The slicing loop, event by event -/

/-- One event word of the loop: late and discarded, or the samples before it and its effect. -/
def runEvent (c : Config.Voicing) (s : State) (w : Word64) : State :=
  if s.n.toNat ≤ (fieldOffset w).toNat then nextEvent (raiseCond .lateEvent s)
  else nextEvent (eventEffect c w (sampleSteps c ((fieldOffset w).toNat - s.pos.toNat) s))

/-- The samples after the last event. -/
def runRest (c : Config.Voicing) (s : State) : State := sampleSteps c (s.n.toNat - s.pos.toNat) s

theorem sliceLoop_cons (c : Config.Voicing) (w : Word64) (q : List Word64) (s : State) :
    sliceLoop c (w :: q) s = sliceLoop c q (runEvent c s w) := by
  rw [sliceLoop, runEvent]
  split <;> rfl

theorem sliceLoop_eq (c : Config.Voicing) (q : List Word64) (s : State) :
    sliceLoop c q s = runRest c (q.foldl (runEvent c) s) := by
  induction q generalizing s with
  | nil => rfl
  | cons w q ih => rw [sliceLoop_cons, ih, List.foldl_cons]

theorem runEvent_of_late {w : Word64} {s : State} (h : s.n.toNat ≤ (fieldOffset w).toNat) (c : Config.Voicing) :
    runEvent c s w = nextEvent (raiseCond .lateEvent s) := if_pos h

theorem runEvent_of_in_call {w : Word64} {s : State} (h : (fieldOffset w).toNat < s.n.toNat) (c : Config.Voicing) :
    runEvent c s w = nextEvent (eventEffect c w (sampleSteps c ((fieldOffset w).toNat - s.pos.toNat) s)) :=
  if_neg h.not_ge

/-- What the loop leaves alone. -/
structure LoopFrame (s t : State) : Prop where
  n : t.n = s.n
  evq : t.evq = s.evq
  sched : t.sched = s.sched
  params : t.params = s.params
  staging : t.staging = s.staging

theorem LoopFrame.of_keepsCall {s t : State} (h : KeepsCall s t) : LoopFrame s t :=
  ⟨h.n, h.evq, h.sched, h.params, h.staging⟩

theorem LoopFrame.trans {s t u : State} (h : LoopFrame s t) (k : LoopFrame t u) : LoopFrame s u :=
  ⟨k.n.trans h.n, k.evq.trans h.evq, k.sched.trans h.sched, k.params.trans h.params, k.staging.trans h.staging⟩

/-- An event takes one place in the queue. -/
theorem runEvent_frame (c : Config.Voicing) (s : State) (w : Word64) :
    LoopFrame s (runEvent c s w) ∧ (runEvent c s w).evi = s.evi + 1#32 := by
  unfold runEvent
  split
  · exact ⟨⟨rfl, rfl, rfl, rfl, rfl⟩, rfl⟩
  · have hk := (sampleSteps_keeps c ((fieldOffset w).toNat - s.pos.toNat) s).trans (eventEffect_keeps c w _).1
    exact ⟨⟨hk.n, hk.evq, hk.sched, hk.params, hk.staging⟩, congrArg (· + 1#32) hk.evi⟩

theorem runEvents_frame (c : Config.Voicing) (q : List Word64) (s : State) :
    LoopFrame s (q.foldl (runEvent c) s) := by
  induction q generalizing s with
  | nil => exact ⟨rfl, rfl, rfl, rfl, rfl⟩
  | cons w q ih => exact (runEvent_frame c s w).1.trans (ih _)

theorem sliceLoop_frame (c : Config.Voicing) (q : List Word64) (s : State) : LoopFrame s (sliceLoop c q s) := by
  rw [sliceLoop_eq]
  exact (runEvents_frame c q s).trans (.of_keepsCall (sampleSteps_keeps c _ _))

/-! ### The samples made -/

/-- Exactly the samples 0 to `pos` − 1 are stored, and `pos` has not passed `n`. -/
structure Rendered (s : State) : Prop where
  pos : s.pos.toNat ≤ s.n.toNat
  out : storedIndices s.out = List.range s.pos.toNat

theorem Rendered.congr {s t : State} (h : Rendered s) (hn : t.n = s.n) (hp : t.pos = s.pos) (ho : t.out = s.out) :
    Rendered t :=
  ⟨by rw [hp, hn]; exact h.pos, by rw [ho, hp]; exact h.out⟩

theorem oneSample_out (c : Config.Voicing) (s : State) :
    (oneSample c s).out = memWrite s.out s.pos.toNat (sampleMade c s) :=
  congrArg CallRegs.out (regsOf_oneSample c s)

theorem oneSample_n (c : Config.Voicing) (s : State) : (oneSample c s).n = s.n :=
  congrArg CallRegs.n (regsOf_oneSample c s)

theorem oneSample_pos {s : State} (c : Config.Voicing) (h : s.pos.toNat < s.n.toNat) :
    (oneSample c s).pos.toNat = s.pos.toNat + 1 := by
  have hwrap := s.n.isLt
  exact sampleSteps_pos c 1 s (by omega)

theorem Rendered.oneSample {s : State} (h : Rendered s) (c : Config.Voicing) (hp : s.pos.toNat < s.n.toNat) :
    Rendered (oneSample c s) where
  pos := by rw [oneSample_pos c hp, oneSample_n]; exact hp
  out := by rw [oneSample_pos c hp, oneSample_out]; exact storedIndices_memWrite _ h.out

theorem Rendered.sampleSteps {k : Nat} {s : State} (h : Rendered s) (c : Config.Voicing)
    (hk : k ≤ s.n.toNat - s.pos.toNat) : Rendered (sampleSteps c k s) := by
  induction k generalizing s with
  | zero => exact h
  | succ k ih =>
    have hp : s.pos.toNat < s.n.toNat := by omega
    rw [sampleSteps_succ]
    refine ih (h.oneSample c hp) ?_
    rw [oneSample_pos c hp, oneSample_n]
    omega

theorem Rendered.runEvent {s : State} (h : Rendered s) (c : Config.Voicing) (w : Word64) : Rendered (runEvent c s w) := by
  rcases Nat.lt_or_ge (fieldOffset w).toNat s.n.toNat with hin | hlate
  · rw [runEvent_of_in_call hin]
    obtain ⟨hk, hpos, hout⟩ := eventEffect_keeps c w (Machine.sampleSteps c ((fieldOffset w).toNat - s.pos.toNat) s)
    exact (h.sampleSteps c (by omega)).congr hk.n hpos hout
  · rw [runEvent_of_late hlate]
    exact h.congr rfl rfl rfl

theorem Rendered.runEvents {s : State} (h : Rendered s) (c : Config.Voicing) (q : List Word64) :
    Rendered (q.foldl (WholeCall.runEvent c) s) := by
  induction q generalizing s with
  | nil => exact h
  | cons w q ih => exact ih (h.runEvent c w)

theorem runRest_pos (c : Config.Voicing) {s : State} (h : s.pos.toNat ≤ s.n.toNat) : (runRest c s).pos = s.n := by
  have hwrap := s.n.isLt
  apply BitVec.eq_of_toNat_eq
  rw [runRest, sampleSteps_pos c _ s (by omega)]
  omega

/-- The loop ends with every sample of the call made. -/
theorem Rendered.sliceLoop {s : State} (h : Rendered s) (c : Config.Voicing) (q : List Word64) :
    storedIndices (sliceLoop c q s).out = List.range s.n.toNat ∧ (sliceLoop c q s).pos = s.n := by
  have hq := h.runEvents c q
  have hpos : (Machine.sliceLoop c q s).pos = s.n := by
    rw [sliceLoop_eq, runRest_pos c hq.pos, (runEvents_frame c q s).n]
  refine ⟨?_, hpos⟩
  rw [← hpos, sliceLoop_eq]
  exact (hq.sampleSteps c le_rfl).out

/-! ### The start of a call -/

/-- The state in which a call captures its payload. -/
def callStart (n : BitVec 32) (s : State) : State :=
  { latch s with n := n, pos := 0#32, evi := 0#32, evq := [], out := [] }

/-- The capture fills the queue, with no more words than there are, and raises conditions. -/
theorem capturePayload_eq (depth : Nat) (ws : List Word64) (s : State) :
    ∃ q d, q.length ≤ s.evq.length + ws.length ∧ capturePayload depth ws s = { s with evq := q, diag := d } := by
  induction ws generalizing s with
  | nil => exact ⟨s.evq, s.diag, le_rfl, rfl⟩
  | cons w ws ih =>
    obtain ⟨q, d, hq, heq⟩ := ih (captureWord depth w s)
    have hstep : capturePayload depth (w :: ws) s = capturePayload depth ws (captureWord depth w s) := rfl
    rw [hstep, heq]
    obtain ⟨-, h⟩ | ⟨-, -, h⟩ | ⟨-, -, h⟩ := captureWord_cases depth w s
    all_goals
      rw [h] at hq ⊢
      refine ⟨q, d, ?_, rfl⟩
      simp only [raiseCond_evq, List.length_append, List.length_cons, List.length_nil] at hq ⊢
      omega

/-- The whole call after its start: the payload captured and sorted, and the loop. -/
theorem renderCall_eq (c : Config.Voicing) (n : BitVec 32) (payload : List Word64) (s : State) :
    renderCall c n payload s =
      let u := capturePayload c.evqDepth payload (callStart n s)
      { sliceLoop c (sortEvents u.evq) u with evq := [] } := rfl

/-- Settles O54: the loop begins with no sample made. -/
theorem renderMakesExactlyN : Obligations.RenderMakesExactlyN := by
  intro c n payload s
  obtain ⟨q, d, -, hcap⟩ := capturePayload_eq c.evqDepth payload (callStart n s)
  rw [renderCall_eq, hcap]
  have hstart : Rendered { callStart n s with evq := q, diag := d } := ⟨Nat.zero_le _, rfl⟩
  exact hstart.sliceLoop c (sortEvents q)

end Sys2Proof.Proofs.WholeCall
end

section
/-! PROOFS. The machine's small steps come to the whole call (`47_render_scheduler.md` R172): stage by stage to a sample, sample
by sample to an event, event by event to the loop, word by word to the payload. -/

namespace Sys2Proof.Proofs.Refinement

open Sys2Proof Sys2Proof.Machine Sys2Proof.Laws Sys2Proof.Proofs.CommandPort Sys2Proof.Proofs.Scheduler
  Sys2Proof.Proofs.SampleStep Sys2Proof.Proofs.SchedulerSteps Sys2Proof.Proofs.CallFrame Sys2Proof.Proofs.WholeCall

/-! ### Some number of steps -/

/-- `t` is some number of steps after `s`. -/
def Reaches (s t : State) : Prop := Relation.ReflTransGen (fun u v => step u = .next v) s t

theorem Reaches.refl (s : State) : Reaches s s := Relation.ReflTransGen.refl

theorem Reaches.step {s t : State} (h : step s = .next t) : Reaches s t := Relation.ReflTransGen.single h

theorem Reaches.trans {s t u : State} (h : Reaches s t) (k : Reaches t u) : Reaches s u :=
  Relation.ReflTransGen.trans h k

theorem run_succ {s t : State} (h : Machine.step s = .next t) (k : Nat) :
    Host.Core.run Sys2Proof.core (k + 1) s = Host.Core.run Sys2Proof.core k t := by
  have hs : Sys2Proof.core.step s = .next t := h
  simp only [Host.Core.run, hs]

/-- Such a number of steps is a run of the host's machine. -/
theorem Reaches.run {s t : State} (h : Reaches s t) : ∃ k, Host.Core.run Sys2Proof.core k s = .next t := by
  induction h using Relation.ReflTransGen.head_induction_on with
  | refl => exact ⟨0, rfl⟩
  | head hstep _ ih =>
    obtain ⟨k, hk⟩ := ih
    exact ⟨k + 1, (run_succ hstep k).trans hk⟩

/-! ### A sample -/

/-- The state with a stage next. -/
def atStage (st : Stage) (s : State) : State := onCall (fun r => { r with sched := .loop st }) s

theorem atStage_of_sched {st : Stage} {s : State} (hs : s.sched = .loop st) : atStage st s = s := by
  rw [atStage, onCall, regsOf, ← hs]

/-- A stage after the first and before the last: what it does, it does at its turn, and the next one follows. -/
theorem reaches_stage {st : Stage} {f : State → State} (hf : SoundOnly f) (he : ∀ s, exec st.instr s = .next (f s))
    (hfirst : st ≠ .pslew) (hlast : st ≠ .vca) (s : State) : Reaches (atStage st s) (atStage st.next (f s)) := by
  have hmove (u : State) : afterStage st (atStage st u) = atStage st.next u := by
    cases st with
    | vca => exact absurd rfl hlast
    | pslew | osc | env | coef | filt | san => rfl
  have hstep := step_of_stage (s := atStage st s) rfl (fun h => absurd h hfirst) (he _)
  have hturn : f (atStage st s) = atStage st (f s) := hf.call _ s
  rw [hturn, hmove] at hstep
  exact .step hstep

/-- `VCA` at its turn. -/
theorem reaches_vca (s : State) :
    Reaches (atStage .vca s)
      (atStage .pslew { amplifier voicing s with pos := (amplifier voicing s).pos + 1#32 }) := by
  have hstep := step_of_stage (s := atStage .vca s) rfl nofun (t := amplifier voicing (atStage .vca s)) rfl
  have hturn : amplifier voicing (atStage .vca s) = atStage .vca (amplifier voicing s) := by
    rw [amplifier, amplifier, storeSample_eq, storeSample_eq]; rfl
  rw [hturn] at hstep
  exact .step hstep

/-- The seven stages from a boundary where a sample is due. -/
theorem reaches_oneSample {s : State} (hs : s.sched = .loop .pslew) (hd : sampleDue s) :
    Reaches s (oneSample voicing s) := by
  have hfirst : Reaches s (atStage .osc (pitchSlew voicing s)) :=
    .step (step_of_stage (st := .pslew) hs (fun _ => hd) rfl)
  have hosc := reaches_stage (st := .osc) (oscillator_soundOnly voicing) (fun _ => rfl) nofun nofun
  have henv := reaches_stage (st := .env) (envelopes_soundOnly voicing) (fun _ => rfl) nofun nofun
  have hcoef := reaches_stage (st := .coef) (coefficients_soundOnly voicing) (fun _ => rfl) nofun nofun
  have hfilt := reaches_stage (st := .filt) (ladderFilter_soundOnly voicing) (fun _ => rfl) nofun nofun
  have hsan := reaches_stage (st := .san) sanitize_soundOnly (fun _ => rfl) nofun nofun
  have hlast : Reaches s (atStage .pslew (oneSample voicing s)) :=
    hfirst.trans ((hosc _).trans ((henv _).trans ((hcoef _).trans ((hfilt _).trans ((hsan _).trans (reaches_vca _))))))
  have hsched : (oneSample voicing s).sched = .loop .pslew := (sampleStep_keeps voicing s).sched.trans hs
  rwa [atStage_of_sched hsched] at hlast

/-! ### Events -/

/-- Samples are made up to `e`: the offset of the next event, or the end of the call. -/
def StopsAt (e : Nat) (s : State) : Prop :=
  (∃ w, s.evq[s.evi.toNat]? = some w ∧ (fieldOffset w).toNat < s.n.toNat ∧ e = (fieldOffset w).toNat) ∨
  (s.evq[s.evi.toNat]? = none ∧ e = s.n.toNat)

theorem StopsAt.le_n {e : Nat} {s : State} (h : StopsAt e s) : e ≤ s.n.toNat := by
  obtain ⟨w, -, hn, rfl⟩ | ⟨-, rfl⟩ := h
  · exact hn.le
  · exact le_rfl

theorem StopsAt.sampleDue {e : Nat} {s : State} (h : StopsAt e s) (hp : s.pos.toNat < e) : sampleDue s := by
  obtain ⟨w, hw, hn, rfl⟩ | ⟨hw, rfl⟩ := h
  · exact .inl ⟨w, hw, hn, hp⟩
  · exact .inr ⟨hw, hp⟩

theorem StopsAt.congr {e : Nat} {s t : State} (h : StopsAt e s) (hk : KeepsCall s t) : StopsAt e t := by
  rw [StopsAt, hk.evq, hk.evi, hk.n]
  exact h

/-- The samples up to the next event or the end. -/
theorem reaches_samples {e k : Nat} {s : State} (hs : s.sched = .loop .pslew) (he : StopsAt e s)
    (hk : k ≤ e - s.pos.toNat) : Reaches s (sampleSteps voicing k s) := by
  induction k generalizing s with
  | zero => exact .refl s
  | succ k ih =>
    have hp : s.pos.toNat < e := by omega
    have hkeep : KeepsCall s (oneSample voicing s) := sampleSteps_keeps voicing 1 s
    refine (reaches_oneSample hs (he.sampleDue hp)).trans (ih (hkeep.sched.trans hs) (he.congr hkeep) ?_)
    rw [oneSample_pos voicing (hp.trans_le he.le_n)]
    omega

/-- An event that is due is the pseudocode's `apply`. -/
theorem step_applies {s : State} {w : Word64} (hs : s.sched = .loop .pslew) (hw : s.evq[s.evi.toNat]? = some w)
    (hn : (fieldOffset w).toNat < s.n.toNat) (hp : (fieldOffset w).toNat ≤ s.pos.toNat) :
    step s = .next (nextEvent (eventEffect voicing w s)) := by
  rw [step_of_loop hs, loopStep, boundary_of_due hw hn hp]
  cases hd : decodePayload w with
  | error r => rw [applyEvent_of_error hd, eventEffect, hd]
  | ok i =>
    obtain ⟨note, velocity, accent, slide, off, rfl⟩ | ⟨note, velocity, accent, slide, off, rfl⟩ :=
      decodePayload_event hd
    · rw [applyEvent_of_ok hd rfl, eventEffect, hd]
    · rw [applyEvent_of_ok hd rfl, eventEffect, hd]

/-- The samples before an event and the event. -/
theorem reaches_runEvent {s : State} {w : Word64} (hs : s.sched = .loop .pslew) (hw : s.evq[s.evi.toNat]? = some w) :
    Reaches s (runEvent voicing s w) := by
  rcases Nat.lt_or_ge (fieldOffset w).toNat s.n.toNat with hin | hlate
  · rw [runEvent_of_in_call hin]
    have hsamples := reaches_samples hs (.inl ⟨w, hw, hin, rfl⟩) (le_refl ((fieldOffset w).toNat - s.pos.toNat))
    have hkeep := sampleSteps_keeps voicing ((fieldOffset w).toNat - s.pos.toNat) s
    have hpos := sampleSteps_pos voicing ((fieldOffset w).toNat - s.pos.toNat) s
      (by have := s.pos.isLt; have := (fieldOffset w).isLt; omega)
    refine hsamples.trans (.step (step_applies (hkeep.sched.trans hs) ?_ ?_ ?_))
    · rw [hkeep.evq, hkeep.evi]; exact hw
    · rw [hkeep.n]; exact hin
    · omega
  · rw [runEvent_of_late hlate]
    exact .step (by rw [step_of_loop hs, loopStep, boundary_of_late hw hlate])

/-- The samples after the last event and the end of the call. -/
theorem reaches_endCall {s : State} (hs : s.sched = .loop .pslew) (hw : s.evq[s.evi.toNat]? = none) :
    Reaches s (endCall (runRest voicing s)) := by
  have hsamples := reaches_samples hs (.inr ⟨hw, rfl⟩) (le_refl (s.n.toNat - s.pos.toNat))
  have hkeep := sampleSteps_keeps voicing (s.n.toNat - s.pos.toNat) s
  have hpos := sampleSteps_pos voicing (s.n.toNat - s.pos.toNat) s
    (by have := s.pos.isLt; have := s.n.isLt; omega)
  refine hsamples.trans (.step ?_)
  rw [step_of_loop (hkeep.sched.trans hs), loopStep, boundary_of_finished]
  · rfl
  · rw [hkeep.evq, hkeep.evi]; exact hw
  · rw [hkeep.n]; omega

/-- The loop, from any place in its queue. -/
theorem reaches_sliceLoop {q : List Word64} {s : State} (hs : s.sched = .loop .pslew)
    (hq : s.evq.drop s.evi.toNat = q) (hlen : s.evq.length < 2 ^ 32) : Reaches s (endCall (sliceLoop voicing q s)) := by
  induction q generalizing s with
  | nil => exact reaches_endCall hs (List.getElem?_eq_none (List.drop_eq_nil_iff.mp hq))
  | cons w q ih =>
    have hw : s.evq[s.evi.toNat]? = some w := by
      rw [← List.head?_drop, hq]; rfl
    have hlt := evi_lt_of_getElem? hw
    obtain ⟨hf, hnext⟩ := runEvent_frame voicing s w
    have hevi : (runEvent voicing s w).evi.toNat = s.evi.toNat + 1 := by
      rw [hnext, BitVec.toNat_add]
      simp only [BitVec.toNat_ofNat]
      omega
    rw [sliceLoop_cons]
    refine (reaches_runEvent hs hw).trans (ih (hf.sched.trans hs) ?_ ?_)
    · rw [hf.evq, hevi, ← List.drop_drop, hq]; rfl
    · rw [hf.evq]; exact hlen

/-! ### The payload -/

/-- The state in the course of a capture: the words at the port and the place in the command. -/
def atPort (port : List Word64) (sched : Sched) (s : State) : State := { s with port := port, sched := sched }

theorem captureWord_atPort (depth : Nat) (w : Word64) (port : List Word64) (sched : Sched) (s : State) :
    captureWord depth w (atPort port sched s) = atPort port sched (captureWord depth w s) := by
  unfold captureWord
  rw [show (atPort port sched s).evq = s.evq from rfl]
  split
  · rfl
  · split <;> rfl

/-- The payload, word by word. -/
theorem reaches_capture {payload : List Word64} {left : BitVec 24} (rest : List Word64) (s : State)
    (hl : payload.length = left.toNat) :
    Reaches (atPort (payload ++ rest) (.capture left) s)
      (atPort rest (.capture 0#24) (capturePayload voicing.evqDepth payload s)) := by
  induction payload generalizing left s with
  | nil =>
    have h0 : left = 0#24 := BitVec.eq_of_toNat_eq hl.symm
    rw [h0]
    exact .refl _
  | cons w payload ih =>
    rw [List.length_cons] at hl
    have hne : left ≠ 0#24 := by rintro rfl; exact absurd hl (Nat.succ_ne_zero _)
    have hleft : payload.length = (left - 1#24).toNat := by
      rw [BitVec.toNat_sub]
      simp only [BitVec.toNat_ofNat]
      have := left.isLt
      omega
    have hstep := step_captures (s := atPort (w :: payload ++ rest) (.capture left) s) rfl hne rfl
    have hword : step (atPort (w :: payload ++ rest) (.capture left) s) =
        .next (atPort (payload ++ rest) (.capture (left - 1#24)) (captureWord voicing.evqDepth w s)) := by
      rw [hstep, ← captureWord_atPort]; rfl
    exact (Reaches.step hword).trans (ih _ hleft)

/-! ### The whole call -/

/-- The loop's queue and its place in a call, which the pseudocode does not hold in the state. -/
def rehouse (q : List Word64) (sched : Sched) (r : CallRegs) : CallRegs := { r with evq := q, sched := sched }

theorem oneSample_rehouse (c : Config.Voicing) (q : List Word64) (sched : Sched) (s : State) :
    oneSample c (onCall (rehouse q sched) s) = onCall (rehouse q sched) (oneSample c s) := by
  rw [oneSample_eq, oneSample_eq, (soundStep_soundOnly c).call, (sampleMade_soundValue c).call]
  rfl

theorem sampleSteps_rehouse (c : Config.Voicing) (k : Nat) (q : List Word64) (sched : Sched) (s : State) :
    sampleSteps c k (onCall (rehouse q sched) s) = onCall (rehouse q sched) (sampleSteps c k s) := by
  induction k generalizing s with
  | zero => rfl
  | succ k ih => rw [sampleSteps_succ, sampleSteps_succ, oneSample_rehouse, ih]

theorem runEvent_rehouse (c : Config.Voicing) (w : Word64) (q : List Word64) (sched : Sched) (s : State) :
    runEvent c (onCall (rehouse q sched) s) w = onCall (rehouse q sched) (runEvent c s w) := by
  have hn : (onCall (rehouse q sched) s).n = s.n := rfl
  have hp : (onCall (rehouse q sched) s).pos = s.pos := rfl
  unfold runEvent
  rw [hn, hp, sampleSteps_rehouse, (eventEffect_soundOnly c w).call]
  split <;> rfl

theorem sliceLoop_rehouse (c : Config.Voicing) (l q : List Word64) (sched : Sched) (s : State) :
    sliceLoop c l (onCall (rehouse q sched) s) = onCall (rehouse q sched) (sliceLoop c l s) := by
  induction l generalizing s with
  | nil => exact sampleSteps_rehouse c _ q sched s
  | cons w l ih => rw [sliceLoop_cons, sliceLoop_cons, runEvent_rehouse, ih]

/-- The loop of the machine, with the sorted queue in the state, and the loop of the pseudocode. -/
theorem reaches_loop {q : List Word64} {s : State} (hs : s.sched = .idle) (hevi : s.evi = 0#32)
    (hlen : q.length < 2 ^ 32) :
    Reaches (onCall (rehouse q (.loop .pslew)) s) { sliceLoop voicing q s with evq := [] } := by
  have hdrop : q.drop s.evi.toNat = q := by rw [hevi]; rfl
  have hidle : (sliceLoop voicing q s).sched = .idle := (sliceLoop_frame voicing q s).sched.trans hs
  have hloop := reaches_sliceLoop (s := onCall (rehouse q (.loop .pslew)) s) rfl hdrop hlen
  rw [sliceLoop_rehouse, endCall, ← hidle] at hloop
  exact hloop

/-- Settles O55: the word of `RENDER`, the payload, the re-sort, the loop. -/
theorem stepsComeToTheWholeCall : Obligations.StepsComeToTheWholeCall := by
  intro s w payload rest evCount n hs hp hd hl
  have hrender : Reaches s (atPort (payload ++ rest) (.capture evCount) (callStart n { s with port := rest })) :=
    .step (stepRunsCommand s w _ _ hs hp hd)
  have hcapture := reaches_capture rest (callStart n { s with port := rest }) hl
  obtain ⟨q, d, hq, hcap⟩ := capturePayload_eq voicing.evqDepth payload (callStart n { s with port := rest })
  rw [hcap] at hcapture
  have hlen : (sortEvents q).length < 2 ^ 32 := by
    have hlimit := evCount.isLt
    simp only [callStart, List.length_nil] at hq
    rw [(sortEvents_perm q).length_eq]
    omega
  have hloop := reaches_loop (s := { callStart n { s with port := rest } with evq := q, diag := d }) hs rfl hlen
  rw [renderCall_eq, hcap]
  exact (hrender.trans (hcapture.trans ((Reaches.step (step_begins rfl)).trans hloop))).run

end Sys2Proof.Proofs.Refinement
end

section
/-! PROOFS. Block boundaries are invisible (`47_render_scheduler.md` R180): a call is simulated, sample by sample and event by
event, by two calls, whose registers differ from its own by the place of the split. -/

namespace Sys2Proof.Proofs.BlockSplit

open Sys2Proof Sys2Proof.Machine Sys2Proof.Safety Sys2Proof.Laws Sys2Proof.Proofs.Encoding Sys2Proof.Proofs.Scheduler
  Sys2Proof.Proofs.SchedulerSteps Sys2Proof.Proofs.CallFrame Sys2Proof.Proofs.WholeCall

/-! ### Delayed event words -/

theorem getLsbD_delayed (t : BitVec 32) (w : Word64) {i : Nat} (h : 32 ≤ i) :
    (delayed t w).getLsbD i = w.getLsbD i := by
  have hbits : (32 + (i - 32)) = i := by omega
  rw [delayed, BitVec.getLsbD_append, if_neg (by omega), BitVec.getLsbD_extractLsb', hbits]
  rcases Nat.lt_or_ge i 64 with hi | hi
  · simp [show i - 32 < 32 by omega]
  · simp [BitVec.getLsbD_of_ge w i hi]

theorem extractLsb'_delayed (t : BitVec 32) (w : Word64) {start : Nat} (len : Nat) (h : 32 ≤ start) :
    (delayed t w).extractLsb' start len = w.extractLsb' start len := by
  refine BitVec.eq_of_getLsbD_eq fun i hi => ?_
  rw [BitVec.getLsbD_extractLsb', BitVec.getLsbD_extractLsb', getLsbD_delayed t w (by omega)]

theorem fieldOffset_delayed (t : BitVec 32) (w : Word64) : fieldOffset (delayed t w) = fieldOffset w + t :=
  BitVec.extractLsb'_append_eq_right

/-- The mask of format N holds no bit of `sampleOffset`. -/
theorem delayed_and_maskN (t : BitVec 32) (w : Word64) : delayed t w &&& maskN = w &&& maskN := by
  refine BitVec.eq_of_getLsbD_eq fun i hi => ?_
  rw [BitVec.getLsbD_and, BitVec.getLsbD_and]
  rcases Nat.lt_or_ge i 32 with hlow | hhigh
  · have hmask : maskN.getLsbD i = false := by
      have hall : ∀ j < 32, maskN.getLsbD j = false := by decide
      exact hall i hlow
    rw [hmask, Bool.and_false, Bool.and_false]
  · rw [getLsbD_delayed t w hhigh]

/-- A delayed event word spells the same event, later (`30_encoding.md` R61). -/
theorem decodeWord_delayed (t : BitVec 32) {w : Word64} {note velocity : BitVec 7} {accent slide : Bool}
    {off : BitVec 32} :
    (decodeWord w = .ok (.noteon note velocity accent slide off) →
      decodeWord (delayed t w) = .ok (.noteon note velocity accent slide (off + t))) ∧
    (decodeWord w = .ok (.noteoff note velocity accent slide off) →
      decodeWord (delayed t w) = .ok (.noteoff note velocity accent slide (off + t))) := by
  have hfields (hn : fieldNote w = note) (hv : fieldVelocity w = velocity) (ha : fieldAccent w = accent)
      (hs : fieldSlide w = slide) (ho : fieldOffset w = off) :
      fieldNote (delayed t w) = note ∧ fieldVelocity (delayed t w) = velocity ∧ fieldAccent (delayed t w) = accent ∧
        fieldSlide (delayed t w) = slide ∧ fieldOffset (delayed t w) = off + t :=
    ⟨(extractLsb'_delayed t w 7 (by decide)).trans hn, (extractLsb'_delayed t w 7 (by decide)).trans hv,
      (getLsbD_delayed t w (by decide)).trans ha, (getLsbD_delayed t w (by decide)).trans hs,
      ho ▸ fieldOffset_delayed t w⟩
  constructor
  · intro h
    obtain ⟨hm, ⟨hn, hv, ha, hs, ho⟩, hwf⟩ := decodeWord_eq_ok_iff.mp h
    exact decodeWord_eq_ok_iff.mpr ⟨(delayed_and_maskN t w).trans hm, hfields hn hv ha hs ho, hwf⟩
  · intro h
    obtain ⟨hm, ⟨hn, hv, ha, hs, ho⟩, hwf⟩ := decodeWord_eq_ok_iff.mp h
    exact decodeWord_eq_ok_iff.mpr ⟨(delayed_and_maskN t w).trans hm, hfields hn hv ha hs ho, hwf⟩

theorem decodePayload_of_legal {w : Word64} (h : legalEventWord w = true) : ∃ i, decodePayload w = .ok i := by
  unfold legalEventWord at h
  split at h
  · next i hi => exact ⟨i, hi⟩
  · cases h

theorem eventEffect_noteon (c : Config.Voicing) {w : Word64} {note velocity : BitVec 7} {accent slide : Bool}
    {off : BitVec 32} (h : decodePayload w = .ok (.noteon note velocity accent slide off)) (s : State) :
    eventEffect c w s = noteOn c note accent slide s := by
  rw [eventEffect, h]

theorem eventEffect_noteoff (c : Config.Voicing) {w : Word64} {note velocity : BitVec 7} {accent slide : Bool}
    {off : BitVec 32} (h : decodePayload w = .ok (.noteoff note velocity accent slide off)) (s : State) :
    eventEffect c w s = s := by
  rw [eventEffect, h]

/-- A delayed event word is legal and has the same effect. -/
theorem delayed_spec (t : BitVec 32) {w : Word64} (h : legalEventWord w = true) :
    legalEventWord (delayed t w) = true ∧ ∀ c s, eventEffect c (delayed t w) s = eventEffect c w s := by
  obtain ⟨i, hi⟩ := decodePayload_of_legal h
  obtain ⟨hd, hplace⟩ := decodePayload_eq_ok_iff.mp hi
  obtain ⟨note, velocity, accent, slide, off, rfl⟩ | ⟨note, velocity, accent, slide, off, rfl⟩ := decodePayload_event hi
  · have hlater := decodePayload_eq_ok_iff.mpr ⟨(decodeWord_delayed t).1 hd, rfl⟩
    exact ⟨legalEventWord_of_ok hlater, fun c s => by rw [eventEffect_noteon c hlater, eventEffect_noteon c hi]⟩
  · have hlater := decodePayload_eq_ok_iff.mpr ⟨(decodeWord_delayed t).2 hd, rfl⟩
    exact ⟨legalEventWord_of_ok hlater, fun c s => by rw [eventEffect_noteoff c hlater, eventEffect_noteoff c hi]⟩

/-! ### The queue of the whole call -/

/-- A word goes before all that are not before it. -/
theorem insertEvent_append {w : Word64} {q : List Word64} (p : List Word64) (h : ∀ v ∈ q, offsetLe w v = true) :
    insertEvent w (p ++ q) = insertEvent w p ++ q := by
  induction p with
  | nil =>
    cases q with
    | nil => rfl
    | cons v q =>
      exact if_pos (h v List.mem_cons_self)
  | cons v p ih =>
    simp only [List.cons_append, insertEvent]
    split
    · rfl
    · rw [ih]; rfl

/-- Two payloads, one all before the other, are sorted one after the other. -/
theorem sortEvents_append {p q : List Word64} (h : ∀ v ∈ p, ∀ w ∈ q, offsetLe v w = true) :
    sortEvents (p ++ q) = sortEvents p ++ sortEvents q := by
  induction p with
  | nil => rfl
  | cons v p ih =>
    have hv : ∀ w ∈ sortEvents q, offsetLe v w = true := fun w hw =>
      h v List.mem_cons_self w ((sortEvents_perm q).mem_iff.mp hw)
    rw [List.cons_append, sortEvents, sortEvents, ih fun v hv => h v (List.mem_cons_of_mem _ hv),
      insertEvent_append _ hv]

/-- No word of the queue is delayed past the end of its field. -/
def DelayFits (t : BitVec 32) (w : Word64) : Prop := (fieldOffset w).toNat + t.toNat < 2 ^ 32

theorem toNat_fieldOffset_delayed {t : BitVec 32} {w : Word64} (h : DelayFits t w) :
    (fieldOffset (delayed t w)).toNat = t.toNat + (fieldOffset w).toNat := by
  rw [fieldOffset_delayed, BitVec.toNat_add, Nat.mod_eq_of_lt h, Nat.add_comm]

theorem offsetLe_delayed {t : BitVec 32} {v w : Word64} (hv : DelayFits t v) (hw : DelayFits t w) :
    offsetLe (delayed t v) (delayed t w) = offsetLe v w := by
  rw [offsetLe, toNat_fieldOffset_delayed hv, toNat_fieldOffset_delayed hw, offsetLe]
  simp only [Nat.add_le_add_iff_left]

theorem insertEvent_delayed {t : BitVec 32} {w : Word64} {q : List Word64} (hw : DelayFits t w)
    (hq : ∀ v ∈ q, DelayFits t v) :
    insertEvent (delayed t w) (q.map (delayed t)) = (insertEvent w q).map (delayed t) := by
  induction q with
  | nil => rfl
  | cons v q ih =>
    simp only [List.map_cons, insertEvent, offsetLe_delayed hw (hq v List.mem_cons_self)]
    split
    · rfl
    · rw [ih fun v hv => hq v (List.mem_cons_of_mem _ hv)]; rfl

theorem sortEvents_delayed {t : BitVec 32} {q : List Word64} (hq : ∀ v ∈ q, DelayFits t v) :
    sortEvents (q.map (delayed t)) = (sortEvents q).map (delayed t) := by
  induction q with
  | nil => rfl
  | cons w q ih =>
    have hrest : ∀ v ∈ q, DelayFits t v := fun v hv => hq v (List.mem_cons_of_mem _ hv)
    rw [List.map_cons, sortEvents, ih hrest, sortEvents]
    exact insertEvent_delayed (hq w List.mem_cons_self) fun v hv => hrest v ((sortEvents_perm q).mem_iff.mp hv)

/-! ### States that differ in the registers of a call only -/

/-- The state with the registers of a call put aside. -/
def withoutCall (s : State) : State := onCall (fun _ => ⟨.idle, 0#32, 0#32, 0#32, [], []⟩) s

def SameSound (a b : State) : Prop := withoutCall a = withoutCall b

theorem sameSound_onCall (h : CallRegs → CallRegs) (s : State) : SameSound (onCall h s) s := rfl

theorem SameSound.symm {a b : State} (h : SameSound a b) : SameSound b a := Eq.symm h

theorem SameSound.trans {a b d : State} (h : SameSound a b) (k : SameSound b d) : SameSound a d := Eq.trans h k

theorem SameSound.voice {a b : State} (h : SameSound a b) : a.voice = b.voice :=
  congrArg (a₁ := withoutCall a) (a₂ := withoutCall b) State.voice h

theorem SameSound.params {a b : State} (h : SameSound a b) : a.params = b.params :=
  congrArg (a₁ := withoutCall a) (a₂ := withoutCall b) State.params h

theorem SameSound.diag {a b : State} (h : SameSound a b) : a.diag = b.diag :=
  congrArg (a₁ := withoutCall a) (a₂ := withoutCall b) State.diag h

theorem SameSound.nfcnt {a b : State} (h : SameSound a b) : a.nfcnt = b.nfcnt :=
  congrArg (a₁ := withoutCall a) (a₂ := withoutCall b) State.nfcnt h

theorem SameSound.map {f : State → State} (hf : SoundOnly f) {a b : State} (h : SameSound a b) :
    SameSound (f a) (f b) :=
  calc withoutCall (f a) = f (withoutCall a) := (hf.call _ a).symm
    _ = f (withoutCall b) := congrArg f h
    _ = withoutCall (f b) := hf.call _ b

theorem SameSound.value {α : Type} {x : State → α} (hx : SoundValue x) {a b : State} (h : SameSound a b) :
    x a = x b :=
  calc x a = x (withoutCall a) := (hx.call _ a).symm
    _ = x (withoutCall b) := congrArg x h
    _ = x b := hx.call _ b

theorem SameSound.oneSample {a b : State} (h : SameSound a b) (c : Config.Voicing) :
    SameSound (oneSample c a) (oneSample c b) := by
  rw [oneSample_eq, oneSample_eq]
  exact (sameSound_onCall _ _).trans ((h.map (soundStep_soundOnly c)).trans (sameSound_onCall _ _).symm)

/-! ### The simulation -/

/-- The call of `a` has made the samples `made` and then those of the call of `b`: `b` is `shift` samples behind, and from here
they sound the same. -/
structure Shifted (shift : Nat) (made : List F32) (a b : State) : Prop where
  sound : SameSound a b
  n : shift + b.n.toNat ≤ a.n.toNat
  pos : a.pos.toNat = shift + b.pos.toNat
  out : samplesOf a.out = made ++ samplesOf b.out
  left : Rendered a
  right : Rendered b

theorem samplesOf_oneSample {s : State} (h : Rendered s) (c : Config.Voicing) :
    samplesOf (oneSample c s).out = samplesOf s.out ++ [sampleMade c s] := by
  have hlt : ∀ k ∈ s.out.map Prod.fst, k < s.pos.toNat := fun k hk =>
    List.mem_range.mp (h.out ▸ hk)
  rw [oneSample_out, memWrite_append _ hlt, samplesOf, List.map_append]
  rfl

theorem Shifted.oneSample {shift : Nat} {made : List F32} {a b : State} (h : Shifted shift made a b)
    (c : Config.Voicing) (hp : b.pos.toNat < b.n.toNat) : Shifted shift made (oneSample c a) (oneSample c b) := by
  have hn := h.n
  have hpos := h.pos
  have hpa : a.pos.toNat < a.n.toNat := by omega
  exact {
    sound := h.sound.oneSample c
    n := by rw [oneSample_n, oneSample_n]; exact hn
    pos := by rw [oneSample_pos c hpa, oneSample_pos c hp]; omega
    out := by
      rw [samplesOf_oneSample h.left, samplesOf_oneSample h.right, h.out, List.append_assoc,
        h.sound.value (sampleMade_soundValue c)]
    left := h.left.oneSample c hpa
    right := h.right.oneSample c hp }

theorem Shifted.sampleSteps {shift k : Nat} {made : List F32} {a b : State} (h : Shifted shift made a b)
    (c : Config.Voicing) (hk : k ≤ b.n.toNat - b.pos.toNat) :
    Shifted shift made (sampleSteps c k a) (sampleSteps c k b) := by
  induction k generalizing a b with
  | zero => exact h
  | succ k ih =>
    have hp : b.pos.toNat < b.n.toNat := by omega
    rw [sampleSteps_succ, sampleSteps_succ]
    refine ih (h.oneSample c hp) ?_
    rw [oneSample_pos c hp, oneSample_n]
    omega

/-- What leaves `n`, `pos` and `OUT` keeps two states shifted. -/
theorem Shifted.congr {shift : Nat} {made : List F32} {a b a' b' : State} (h : Shifted shift made a b)
    (hs : SameSound a' b') (ha : a'.n = a.n ∧ a'.pos = a.pos ∧ a'.out = a.out)
    (hb : b'.n = b.n ∧ b'.pos = b.pos ∧ b'.out = b.out) : Shifted shift made a' b' := by
  obtain ⟨han, hap, hao⟩ := ha
  obtain ⟨hbn, hbp, hbo⟩ := hb
  exact {
    sound := hs
    n := by rw [han, hbn]; exact h.n
    pos := by rw [hap, hbp]; exact h.pos
    out := by rw [hao, hbo]; exact h.out
    left := h.left.congr han hap hao
    right := h.right.congr hbn hbp hbo }

theorem eventEffect_place (c : Config.Voicing) (w : Word64) (s : State) :
    (nextEvent (eventEffect c w s)).n = s.n ∧ (nextEvent (eventEffect c w s)).pos = s.pos ∧
      (nextEvent (eventEffect c w s)).out = s.out := by
  obtain ⟨hk, hpos, hout⟩ := eventEffect_keeps c w s
  exact ⟨hk.n, hpos, hout⟩

theorem sameSound_nextEvent (s : State) : SameSound (nextEvent s) s :=
  sameSound_onCall (fun r => { r with evi := r.evi + 1#32 }) s

/-- The event `v` is the event `w`, `shift` samples later. -/
structure LaterEvent (shift : Nat) (v w : Word64) : Prop where
  offset : (fieldOffset v).toNat = shift + (fieldOffset w).toNat
  effect : ∀ c s, eventEffect c v s = eventEffect c w s

theorem Shifted.runEvent {shift : Nat} {made : List F32} {a b : State} {v w : Word64} (h : Shifted shift made a b)
    (c : Config.Voicing) (hv : LaterEvent shift v w) (hw : (fieldOffset w).toNat < b.n.toNat) :
    Shifted shift made (runEvent c a v) (runEvent c b w) := by
  have hoff := hv.offset
  have hn := h.n
  have hpos := h.pos
  have hgap : (fieldOffset v).toNat - a.pos.toNat = (fieldOffset w).toNat - b.pos.toNat := by omega
  rw [runEvent_of_in_call (by omega), runEvent_of_in_call hw, hgap]
  have hsamples := h.sampleSteps c (k := (fieldOffset w).toNat - b.pos.toNat) (by omega)
  refine hsamples.congr ?_ (eventEffect_place c v _) (eventEffect_place c w _)
  refine (sameSound_nextEvent _).trans (SameSound.trans ?_ (sameSound_nextEvent _).symm)
  rw [hv.effect]
  exact hsamples.sound.map (eventEffect_soundOnly c w)

theorem Shifted.runEvents {shift : Nat} {made : List F32} {a b : State} {q : List Word64} {later : Word64 → Word64}
    (h : Shifted shift made a b) (c : Config.Voicing)
    (hq : ∀ w ∈ q, LaterEvent shift (later w) w ∧ (fieldOffset w).toNat < b.n.toNat) :
    Shifted shift made ((q.map later).foldl (WholeCall.runEvent c) a) (q.foldl (WholeCall.runEvent c) b) := by
  induction q generalizing a b with
  | nil => exact h
  | cons w q ih =>
    obtain ⟨hv, hw⟩ := hq w List.mem_cons_self
    refine ih (h.runEvent c hv hw) fun u hu => ?_
    rw [(runEvent_frame c b w).1.n]
    exact hq u (List.mem_cons_of_mem _ hu)

/-- Two loops that end together. -/
theorem Shifted.sliceLoop {shift : Nat} {made : List F32} {a b : State} {q : List Word64} {later : Word64 → Word64}
    (h : Shifted shift made a b) (c : Config.Voicing)
    (hq : ∀ w ∈ q, LaterEvent shift (later w) w ∧ (fieldOffset w).toNat < b.n.toNat)
    (hend : a.n.toNat = shift + b.n.toNat) :
    Shifted shift made (sliceLoop c (q.map later) a) (sliceLoop c q b) := by
  have hevents := h.runEvents c hq
  have hpos := hevents.pos
  rw [sliceLoop_eq, sliceLoop_eq, runRest, runRest, (runEvents_frame c _ a).n, (runEvents_frame c q b).n, hend, hpos,
    Nat.add_sub_add_left]
  exact hevents.sampleSteps c (by rw [(runEvents_frame c q b).n])

/-- A loop whose events all come at `e` or later makes the samples up to `e` first. -/
theorem sliceLoop_from {e : Nat} {q : List Word64} {s : State} (c : Config.Voicing) (hpos : s.pos.toNat ≤ e)
    (hn : e ≤ s.n.toNat) (hq : ∀ w ∈ q, e ≤ (fieldOffset w).toNat ∧ (fieldOffset w).toNat < s.n.toNat) :
    sliceLoop c q s = sliceLoop c q (sampleSteps c (e - s.pos.toNat) s) := by
  have hwrap := s.n.isLt
  have hkeep := (sampleSteps_keeps c (e - s.pos.toNat) s).n
  have hreach : (sampleSteps c (e - s.pos.toNat) s).pos.toNat = e := by
    rw [sampleSteps_pos c _ s (by omega)]; omega
  have hcut (d : Nat) (hd : e ≤ d) : sampleSteps c (d - s.pos.toNat) s =
      sampleSteps c (d - e) (sampleSteps c (e - s.pos.toNat) s) := by
    rw [← sampleSteps_add]; congr 1; omega
  cases q with
  | nil => rw [sliceLoop, sliceLoop, hkeep, hreach, hcut _ hn]
  | cons w q =>
    obtain ⟨he, hw⟩ := hq w List.mem_cons_self
    rw [sliceLoop_cons, sliceLoop_cons, runEvent_of_in_call hw, runEvent_of_in_call (by rw [hkeep]; exact hw), hreach,
      hcut _ he]

/-! ### Calls whose payload fits the queue -/

theorem renderCall_fits (c : Config.Voicing) (n : BitVec 32) {ws : List Word64} (s : State)
    (hw : ∀ w ∈ ws, legalEventWord w = true) (hl : ws.length ≤ c.evqDepth) :
    renderCall c n ws s = { sliceLoop c (sortEvents ws) { callStart n s with evq := ws } with evq := [] } := by
  have hcap := capturePayload_fits c.evqDepth ws (callStart n s) hw (by simpa [callStart] using hl)
  rw [renderCall_eq, hcap]
  rfl

/-- A call leaves the parameters latched, so that a second one latches the same. -/
theorem latch_renderCall (c : Config.Voicing) (n : BitVec 32) (ws : List Word64) (s : State) :
    latch (renderCall c n ws s) = renderCall c n ws s := by
  obtain ⟨q, d, -, hcap⟩ := capturePayload_eq c.evqDepth ws (callStart n s)
  have hf := sliceLoop_frame c (sortEvents q) { callStart n s with evq := q, diag := d }
  have hparams : (renderCall c n ws s).params = (latch s).params := by rw [renderCall_eq, hcap]; exact hf.params
  have hstaging : (renderCall c n ws s).staging = s.staging := by rw [renderCall_eq, hcap]; exact hf.staging
  have hlatched : (latch (renderCall c n ws s)).params = (renderCall c n ws s).params := by
    rw [hparams, latch_params, latch_params, hstaging]
  calc latch (renderCall c n ws s)
      = { renderCall c n ws s with params := (latch (renderCall c n ws s)).params } := rfl
    _ = renderCall c n ws s := by rw [hlatched]

/-! ### The split -/

theorem laterEvent_zero (w : Word64) : LaterEvent 0 (id w) w := ⟨(Nat.zero_add _).symm, fun _ _ => rfl⟩

theorem laterEvent_delayed {t : BitVec 32} {w : Word64} (hw : legalEventWord w = true) (ht : DelayFits t w) :
    LaterEvent t.toNat (delayed t w) w :=
  ⟨toNat_fieldOffset_delayed ht, (delayed_spec t hw).2⟩

theorem sliceLoop_append (c : Config.Voicing) (p q : List Word64) (s : State) :
    sliceLoop c (p ++ q) s = sliceLoop c q (p.foldl (runEvent c) s) := by
  rw [sliceLoop_eq, sliceLoop_eq, List.foldl_append]

/-- The loop of `a`, which has more samples to make, after the events and samples of the whole loop of `b`. -/
theorem Shifted.firstPart {made : List F32} {a b : State} {p : List Word64} (h : Shifted 0 made a b)
    (c : Config.Voicing) (hp : ∀ w ∈ p, (fieldOffset w).toNat < b.n.toNat) {q : List Word64}
    (hq : ∀ w ∈ q, b.n.toNat ≤ (fieldOffset w).toNat ∧ (fieldOffset w).toNat < a.n.toNat) :
    ∃ a', Shifted 0 made a' (Machine.sliceLoop c p b) ∧ a'.n = a.n ∧
      Machine.sliceLoop c (p ++ q) a = Machine.sliceLoop c q a' := by
  have hevents := h.runEvents (later := id) c fun w hw => ⟨laterEvent_zero w, hp w hw⟩
  rw [List.map_id] at hevents
  have hna := (runEvents_frame c p a).n
  have hnb := (runEvents_frame c p b).n
  have hpos := hevents.pos
  have hposb := hevents.right.pos
  have hn := h.n
  rw [hnb] at hposb
  have hrest := hevents.sampleSteps c le_rfl
  rw [← runRest, ← sliceLoop_eq] at hrest
  refine ⟨_, hrest, (sampleSteps_keeps c _ _).n.trans hna, ?_⟩
  rw [sliceLoop_append, sliceLoop_from (e := b.n.toNat) c (by omega) (by rw [hna]; omega) (by rw [hna]; exact hq), hnb, hpos,
    Nat.zero_add]

theorem forall_mem_sortEvents {P : Word64 → Prop} {q : List Word64} : (∀ w ∈ sortEvents q, P w) ↔ ∀ w ∈ q, P w := by
  simp only [(sortEvents_perm q).mem_iff]

/-- The first call's events are all before the second's, so the whole call's queue is the one after the other. -/
theorem sortEvents_split {t : BitVec 32} {before after : List Word64}
    (hbefore : ∀ w ∈ before, (fieldOffset w).toNat < t.toNat) (hafter : ∀ w ∈ after, DelayFits t w) :
    sortEvents (before ++ after.map (delayed t)) = sortEvents before ++ (sortEvents after).map (delayed t) := by
  rw [← sortEvents_delayed hafter]
  refine sortEvents_append fun v hv u hu => ?_
  obtain ⟨w, hw, rfl⟩ := List.mem_map.mp hu
  have hlt := hbefore v hv
  rw [offsetLe_iff, toNat_fieldOffset_delayed (hafter w hw)]
  omega

theorem legal_split {t : BitVec 32} {before after : List Word64} (hbefore : ∀ w ∈ before, legalEventWord w = true)
    (hafter : ∀ w ∈ after, legalEventWord w = true) :
    ∀ w ∈ before ++ after.map (delayed t), legalEventWord w = true := by
  intro w hw
  obtain hw | hw := List.mem_append.mp hw
  · exact hbefore w hw
  · obtain ⟨v, hv, rfl⟩ := List.mem_map.mp hw
    exact (delayed_spec t (hafter v hv)).1

/-- The second call starts, `t` samples behind, where the first ended. -/
theorem Shifted.secondCall {c : Config.Voicing} {s a : State} {t m : BitVec 32} {ws : List Word64}
    (h : Shifted 0 [] a (renderCall c t ws s)) (ht : (renderCall c t ws s).pos = t) (hn : t.toNat + m.toNat = a.n.toNat)
    (after : List Word64) :
    Shifted t.toNat (samplesOf (renderCall c t ws s).out) a
      { callStart m (renderCall c t ws s) with evq := after } where
  sound := by
    refine h.sound.trans ?_
    rw [callStart, latch_renderCall]
    rfl
  n := hn.le
  pos := by rw [h.pos, ht, Nat.zero_add]; rfl
  out := by rw [h.out]; exact (List.append_nil _).symm
  left := h.left
  right := ⟨Nat.zero_le _, rfl⟩

/-- The first call's end and a state of the whole call, from where the second call and the rest of the whole one go
together. -/
theorem exists_split {c : Config.Voicing} {s : State} {before after : List Word64} {t n : BitVec 32}
    (htn : t.toNat ≤ n.toNat) (hfit : before.length + after.length ≤ c.evqDepth)
    (hbefore : ∀ w ∈ before, legalEventWord w = true ∧ (fieldOffset w).toNat < t.toNat)
    (hafter : ∀ w ∈ after, legalEventWord w = true ∧ (fieldOffset w).toNat < (n - t).toNat)
    (hdelay : ∀ w ∈ after, DelayFits t w) :
    ∃ a, Shifted 0 [] a (renderCall c t before s) ∧ a.n = n ∧
      renderCall c n (before ++ after.map (delayed t)) s =
        { sliceLoop c ((sortEvents after).map (delayed t)) a with evq := [] } := by
  have hsub : (n - t).toNat = n.toNat - t.toNat := BitVec.toNat_sub_of_le htn
  have hstart : Shifted 0 [] { callStart n s with evq := before ++ after.map (delayed t) }
      { callStart t s with evq := before } :=
    ⟨rfl, (Nat.zero_add _).trans_le htn, rfl, rfl, ⟨Nat.zero_le _, rfl⟩, ⟨Nat.zero_le _, rfl⟩⟩
  have hlater : ∀ u ∈ (sortEvents after).map (delayed t),
      t.toNat ≤ (fieldOffset u).toNat ∧ (fieldOffset u).toNat < n.toNat := by
    refine List.forall_mem_map.mpr (forall_mem_sortEvents.mpr fun w hw => ?_)
    obtain ⟨-, hlt⟩ := hafter w hw
    rw [toNat_fieldOffset_delayed (hdelay w hw)]
    omega
  obtain ⟨a, ha, hn, hloop⟩ :=
    hstart.firstPart c (forall_mem_sortEvents.mpr fun w hw => (hbefore w hw).2) hlater
  refine ⟨a, ?_, hn, ?_⟩
  · rw [renderCall_fits c t s (fun w hw => (hbefore w hw).1) (by omega)]
    exact ha.congr ha.sound ⟨rfl, rfl, rfl⟩ ⟨rfl, rfl, rfl⟩
  · rw [renderCall_fits c n s (legal_split (fun w hw => (hbefore w hw).1) fun w hw => (hafter w hw).1)
      (by rw [List.length_append, List.length_map]; exact hfit),
      sortEvents_split (fun w hw => (hbefore w hw).2) hdelay, hloop]

/-- Settles O59: the whole call goes with the first call up to the split, and from there with the second. -/
theorem blockSplitAmongEvents : Obligations.BlockSplitAmongEvents := by
  intro c s before after t n htn hfit hbefore hafter whole first second
  have hsub : (n - t).toNat = n.toNat - t.toNat := BitVec.toNat_sub_of_le htn
  have hdelay : ∀ w ∈ after, DelayFits t w := fun w hw => by
    have hlt := (hafter w hw).2
    have hwrap := n.isLt
    rw [DelayFits]
    omega
  obtain ⟨a, ha, hna, hwhole⟩ := exists_split (s := s) htn hfit hbefore hafter hdelay
  have hn : t.toNat + (n - t).toNat = a.n.toNat := by rw [hna]; omega
  have hpos : first.pos = t := (renderMakesExactlyN c t before s).2
  have hend := (ha.secondCall hpos hn after).sliceLoop c
    (forall_mem_sortEvents.mpr fun w hw => ⟨laterEvent_delayed (hafter w hw).1 (hdelay w hw), (hafter w hw).2⟩) hn.symm
  have hsecond : second = _ := renderCall_fits c (n - t) first (fun w hw => (hafter w hw).1) (by omega)
  rw [show whole = _ from hwhole, hsecond]
  exact ⟨hend.out, hend.sound.voice, hend.sound.params, hend.sound.diag, hend.sound.nfcnt⟩

end Sys2Proof.Proofs.BlockSplit
end

section
/-! PROOFS. The split of a call at its one event (`47_render_scheduler.md` R180): a case of the split among events, but for a
voice whose queue holds no word, where both calls drop the event. -/

namespace Sys2Proof.Proofs.OneEventSplit

open Sys2Proof Sys2Proof.Machine Sys2Proof.Safety Sys2Proof.Laws Sys2Proof.Proofs.Encoding
  Sys2Proof.Proofs.SchedulerSteps Sys2Proof.Proofs.CallFrame Sys2Proof.Proofs.WholeCall Sys2Proof.Proofs.BlockSplit

/-! ### The event word -/

/-- Only the offset of a word of format N is delayed. -/
theorem delayed_encodeN (t : BitVec 32) (op : BitVec 4) (note velocity : BitVec 7) (accent slide : Bool)
    (off : BitVec 32) :
    delayed t (encodeN op note velocity accent slide off) = encodeN op note velocity accent slide (off + t) := by
  rw [delayed, fieldOffset_encodeN]
  exact congrArg (· ++ (off + t)) BitVec.extractLsb'_append_eq_left

theorem legal_encodeN {op : BitVec 4} (h : op = 1#4 ∨ op = 2#4) (note velocity : BitVec 7) (accent slide : Bool)
    (off : BitVec 32) : legalEventWord (encodeN op note velocity accent slide off) = true := by
  obtain rfl | rfl := h
  · exact legalEventWord_of_ok (decodePayload_eq_ok_iff.mpr
      ⟨decodeWord_of_encode (i := .noteon note velocity accent slide off) rfl rfl, rfl⟩)
  · exact legalEventWord_of_ok (decodePayload_eq_ok_iff.mpr
      ⟨decodeWord_of_encode (i := .noteoff note velocity accent slide off) rfl rfl, rfl⟩)

/-! ### A queue of depth 0 -/

theorem oneSample_flag (c : Config.Voicing) (m : BitVec 4) (s : State) :
    oneSample c (flag m s) = flag m (oneSample c s) := by
  rw [oneSample_eq, oneSample_eq, (soundStep_soundOnly c).flag, (sampleMade_soundValue c).flag]
  rfl

theorem sampleSteps_flag (c : Config.Voicing) (k : Nat) (m : BitVec 4) (s : State) :
    sampleSteps c k (flag m s) = flag m (sampleSteps c k s) := by
  induction k generalizing s with
  | zero => rfl
  | succ k ih => rw [sampleSteps_succ, sampleSteps_succ, oneSample_flag, ih]

/-- An event that is dropped raises `EVDROP` at the start of the call, which nothing in the call reads. -/
theorem renderCall_dropped {c : Config.Voicing} (hdepth : c.evqDepth = 0) (n : BitVec 32) {w : Word64}
    (hw : legalEventWord w = true) (s : State) : renderCall c n [w] s = flag 0b1000#4 (renderCall c n [] s) := by
  have hcap : capturePayload c.evqDepth [w] (callStart n s) = flag 0b1000#4 (callStart n s) :=
    captureWord_of_full hw hdepth.symm
  have hloop : sliceLoop c [] (flag 0b1000#4 (callStart n s)) = flag 0b1000#4 (sliceLoop c [] (callStart n s)) :=
    sampleSteps_flag c _ _ _
  rw [renderCall_eq, hcap]
  change { sliceLoop c [] (flag 0b1000#4 (callStart n s)) with evq := [] } = _
  rw [hloop]
  rfl

/-- Settles O56: the event is the only one behind the split, or is dropped from both calls. -/
theorem blockSplitIsInvisible : Obligations.BlockSplitIsInvisible := by
  intro c s op note velocity accent slide t n hop ht whole first second
  rcases Nat.eq_zero_or_pos c.evqDepth with hdepth | hdepth
  · obtain ⟨hout, hvoice, hparams, hdiag, hnfcnt⟩ :=
      blockSplitAmongEvents c s [] [] t n ht.le (Nat.zero_le _) nofun nofun
    have hwhole : whole = _ := renderCall_dropped hdepth n (legal_encodeN hop note velocity accent slide t) s
    have hsecond : second = _ :=
      renderCall_dropped hdepth (n - t) (legal_encodeN hop note velocity accent slide 0#32) first
    rw [hwhole, hsecond]
    exact ⟨hout, hvoice, hparams, congrArg (· ||| 0b1000#4) hdiag, hnfcnt⟩
  · have hsplit := blockSplitAmongEvents c s [] [encodeN op note velocity accent slide 0#32] t n ht.le hdepth nofun
      (List.forall_mem_singleton.mpr ⟨legal_encodeN hop note velocity accent slide 0#32, by
        rw [fieldOffset_encodeN, BitVec.toNat_sub_of_le ht.le]
        exact Nat.sub_pos_of_lt ht⟩)
    rwa [List.map_singleton, List.nil_append, delayed_encodeN, BitVec.zero_add] at hsplit

end Sys2Proof.Proofs.OneEventSplit
end
